-- ==== Sys2Proof/Word.lean ====
section
/-! DEFINITION. The byte and the two-byte word of the sequencer's ports (spec/00_scope.md R9: bit 0 is the least significant). -/

namespace Sys2Proof

/-- A byte on either port, and the unit of the EEPROM array (20_memory.md R50). -/
abbrev Byte := BitVec 8

/-- The 16-bit address or length field of a descriptor or frame (00_scope.md R8). -/
abbrev Half := BitVec 16

end Sys2Proof
end

