-- ==== Sys2Proof/Config.lean ====
section
/-! DEFINITION. The configuration registers (spec/10_state.md R21) and the free values of the model (opaque constants with no body). -/

namespace Sys2Proof

/-- `SPAN_POLICY` (00_scope.md R5). -/
inductive SpanPolicy where
  /-- `REJECT` = 0, the default. -/
  | reject
  /-- `SPLIT` = 1. -/
  | split
  deriving DecidableEq, Repr

/-- The Device Handle: the configuration registers of 10_state.md R21. `LAST_ADDR` is derived (`Machine.lastAddr`).
No event changes any of them (R22). -/
structure Config where
  /-- `PAGE_SIZE`, 17 bits. -/
  pageSize : BitVec 17
  /-- `ADDR_SPACE_SIZE`, 17 bits. -/
  addrSpaceSize : BitVec 17
  /-- `CS_ID`, an opaque value on which nothing computes (R8). -/
  csId : Nat
  /-- `SPAN_POLICY`. -/
  spanPolicy : SpanPolicy
  /-- `POLL_LIMIT`: `none` is `NONE` (00_scope.md R6). -/
  pollLimit : Option Nat
  /-- `T_POLL_US`, microseconds. -/
  tPollUs : Nat
  /-- `T_WREN_US`, microseconds. -/
  tWrenUs : Nat
  /-- `DUMMY`, the byte sent when only the answer matters. -/
  dummy : Byte
  deriving DecidableEq, Repr

/-- The defaults of 00_scope.md R4 to R8. `CS_ID` has no default there: 0 is the model's (DESIGN CHOICE, log 2). -/
def Config.default : Config where
  pageSize := 32
  addrSpaceSize := 4096
  csId := 0
  spanPolicy := .reject
  pollLimit := none
  tPollUs := 1
  tWrenUs := 1
  dummy := 0x00

/-- FREE VALUE: the `n`-th byte the spec writes `draw_8()` for (00_scope.md R14; log 5). Safe: nothing can be proved of it. -/
opaque Config.draw8 : Nat → Byte

/-- FREE VALUE: the `n`-th draw for status bits 7 to 4 (20_memory.md R53, R68; log 5). Safe. -/
opaque Config.draw4 : Nat → BitVec 4

/-- FREE VALUE: after how many micro-steps the `n`-th write cycle completes, `none` for never (20_memory.md R71, U20; log 6). Safe. -/
opaque Config.cycleEnd : Nat → Option Nat

end Sys2Proof
end

