-- ==== Sys2Proof/Syntax.lean ====
section
/-! DEFINITION. The instructions: one constructor per row of spec/opcode_table.json, six host commands and six wire frames.
Fields an operation ignores (30_encoding.md R94) are kept, so that no bit of a descriptor is lost by decoding it. -/

namespace Sys2Proof

/-- The twelve rows of the opcode table. -/
inductive Instr where
  /-- `WAIT` (40_status_poller.md R135); `addr` and `len` are ignored (R94). -/
  | wait (addr len : Half)
  /-- `WREN` (41_command_framer.md R152); `addr` and `len` are ignored (R94). -/
  | wren (addr len : Half)
  /-- `WRBYTE addr, v` (42_addressing_engine.md R189); `len` is ignored (R94). -/
  | wrbyte (addr len : Half) (v : Byte)
  /-- `WRITE addr, data` (42_addressing_engine.md R188); `len` bytes of payload. -/
  | write (addr len : Half) (data : List Byte)
  /-- `RDBYTE addr` (41_command_framer.md R160); `len` is ignored (R94). -/
  | rdbyte (addr len : Half)
  /-- `READ addr, len` (41_command_framer.md R159). -/
  | read (addr len : Half)
  /-- The RDSR frame `05 dummy` (30_encoding.md R102, 20_memory.md R68). -/
  | rdsrFrame (dummy : Byte)
  /-- The WREN frame `06` (R103, R70 (a)). -/
  | wrenFrame
  /-- The WRITE frame `02 addr data` (R104, R70 (b)); any number of data bytes, since the device takes any (R62). -/
  | writeFrame (addr : Half) (data : List Byte)
  /-- The READ frame `03 addr dummies` (R105, R69): one data byte returned per byte sent. -/
  | readFrame (addr : Half) (dummies : List Byte)
  /-- The WRDI frame `04 ...` (R108, 20_memory.md R74); the document gives no layout, so any further bytes. -/
  | wrdiFrame (rest : List Byte)
  /-- The WRSR frame `01 ...` (R109, 20_memory.md R74); the document gives no layout, so any further bytes. -/
  | wrsrFrame (rest : List Byte)
  deriving DecidableEq, Repr

/-- The six host operations (30_encoding.md R92). -/
inductive HostOp where
  | wait | wren | wrbyte | write | rdbyte | read
  deriving DecidableEq, Repr

/-- The six wire opcodes (30_encoding.md R101). -/
inductive WireOp where
  | wrsr | write | read | wrdi | rdsr | wren
  deriving DecidableEq, Repr

end Sys2Proof
end

