-- ==== Sys2Proof/WellFormed.lean ====
section
/-! DEFINITION. Which instructions an encoding admits. -/

namespace Sys2Proof

/-- The one relation between an instruction's fields: a WRITE carries exactly `len` payload bytes (30_encoding.md R93).
Every other field is as wide as its place in the encoding, and a frame may have any length. -/
def Instr.wf : Instr → Bool
  | .wait _ _ => true
  | .wren _ _ => true
  | .wrbyte _ _ _ => true
  | .write _ len data => data.length == len.toNat
  | .rdbyte _ _ => true
  | .read _ _ => true
  | .rdsrFrame _ => true
  | .wrenFrame => true
  | .writeFrame _ _ => true
  | .readFrame _ _ => true
  | .wrdiFrame _ => true
  | .wrsrFrame _ => true

end Sys2Proof
end

