-- ==== Sys2Proof/Decode.lean ====
section
/-! DEFINITION. Decoding of host descriptors and wire frames, total on any bytes, and the encoder (spec/30_encoding.md). -/

namespace Sys2Proof

/-- `v[15:8]`. -/
def hiByte (v : Half) : Byte := v.extractLsb' 8 8

/-- `v[7:0]`. -/
def loByte (v : Half) : Byte := v.extractLsb' 0 8

/-- `{hi, lo}`, the big-endian pair of 30_encoding.md R91 and 20_memory.md R58. -/
def joinBytes (hi lo : Byte) : Half := hi ++ lo

/-- The host opcode values (30_encoding.md R92). -/
def hostOpcode : HostOp → Byte
  | .wait => 0x10
  | .wren => 0x11
  | .wrbyte => 0x12
  | .write => 0x13
  | .rdbyte => 0x14
  | .read => 0x15

/-- The host operation an opcode byte names; `none` for a reserved one (R95). -/
def hostOpOf (b : Byte) : Option HostOp :=
  match b.toNat with
  | 0x10 => some .wait
  | 0x11 => some .wren
  | 0x12 => some .wrbyte
  | 0x13 => some .write
  | 0x14 => some .rdbyte
  | 0x15 => some .read
  | _ => none

/-- The wire opcode values (30_encoding.md R101). -/
def wireOpcode : WireOp → Byte
  | .wrsr => 0x01
  | .write => 0x02
  | .read => 0x03
  | .wrdi => 0x04
  | .rdsr => 0x05
  | .wren => 0x06

/-- The wire opcode a frame's first byte is; `none` for one outside the six (R110). -/
def wireOpOf (b : Byte) : Option WireOp :=
  match b.toNat with
  | 0x01 => some .wrsr
  | 0x02 => some .write
  | 0x03 => some .read
  | 0x04 => some .wrdi
  | 0x05 => some .rdsr
  | 0x06 => some .wren
  | _ => none

/-- Why bytes are no instruction. -/
inductive DecodeError where
  /-- The host port does not yet hold a whole descriptor (R93): nothing has been offered that could be accepted. -/
  | incomplete
  /-- A reserved host opcode with its 5-byte header (R95); `rest` follows the header. -/
  | reserved (op : Byte) (addr len : Half) (rest : List Byte)
  /-- A frame of no bytes. -/
  | emptyFrame
  /-- A frame whose length is not its opcode's (20_memory.md R75). -/
  | malformedFrame (op : WireOp)
  /-- A frame whose first byte is outside the six (R110). -/
  | unlistedFrame (op : Byte)
  deriving DecidableEq, Repr

/-- What the decoder answers: an instruction with the bytes after it, or a named reason. -/
inductive Decoded where
  | instr (i : Instr) (rest : List Byte)
  | bad (e : DecodeError)
  deriving DecidableEq, Repr

/-- A host descriptor: byte 0, then bytes 1 to 4, then the payload (30_encoding.md R91, R93). -/
def decodeHost : List Byte → Decoded
  | op :: ah :: al :: lh :: ll :: rest =>
    let addr := joinBytes ah al
    let len := joinBytes lh ll
    match hostOpOf op with
    | some .wait => .instr (.wait addr len) rest
    | some .wren => .instr (.wren addr len) rest
    | some .wrbyte =>
      match rest with
      | v :: rest => .instr (.wrbyte addr len v) rest
      | [] => .bad .incomplete
    | some .write =>
      if len.toNat ≤ rest.length then
        .instr (.write addr len (rest.take len.toNat)) (rest.drop len.toNat)
      else .bad .incomplete
    | some .rdbyte => .instr (.rdbyte addr len) rest
    | some .read => .instr (.read addr len) rest
    | none => .bad (.reserved op addr len rest)
  | _ => .bad .incomplete

/-- A whole wire frame, the bytes sent between one select and the next deselect (30_encoding.md R100 to R109). -/
def decodeFrame : List Byte → Decoded
  | [] => .bad .emptyFrame
  | op :: rest =>
    match wireOpOf op with
    | some .rdsr =>
      match rest with
      | [dummy] => .instr (.rdsrFrame dummy) []
      | _ => .bad (.malformedFrame .rdsr)
    | some .wren =>
      match rest with
      | [] => .instr .wrenFrame []
      | _ => .bad (.malformedFrame .wren)
    | some .write =>
      match rest with
      | ah :: al :: data => .instr (.writeFrame (joinBytes ah al) data) []
      | _ => .bad (.malformedFrame .write)
    | some .read =>
      match rest with
      | ah :: al :: dummies => .instr (.readFrame (joinBytes ah al) dummies) []
      | _ => .bad (.malformedFrame .read)
    | some .wrdi => .instr (.wrdiFrame rest) []
    | some .wrsr => .instr (.wrsrFrame rest) []
    | none => .bad (.unlistedFrame op)

/-- The 5-byte header of 30_encoding.md R91. -/
def header (op : HostOp) (addr len : Half) : List Byte :=
  [hostOpcode op, hiByte addr, loByte addr, hiByte len, loByte len]

/-- The bytes of an instruction: its descriptor or its frame (30_encoding.md R91 to R93, R102 to R109). -/
def encode : Instr → List Byte
  | .wait addr len => header .wait addr len
  | .wren addr len => header .wren addr len
  | .wrbyte addr len v => header .wrbyte addr len ++ [v]
  | .write addr len data => header .write addr len ++ data
  | .rdbyte addr len => header .rdbyte addr len
  | .read addr len => header .read addr len
  | .rdsrFrame dummy => [wireOpcode .rdsr, dummy]
  | .wrenFrame => [wireOpcode .wren]
  | .writeFrame addr data => wireOpcode .write :: hiByte addr :: loByte addr :: data
  | .readFrame addr dummies => wireOpcode .read :: hiByte addr :: loByte addr :: dummies
  | .wrdiFrame rest => wireOpcode .wrdi :: rest
  | .wrsrFrame rest => wireOpcode .wrsr :: rest

/-- Whether an instruction is a host command, decoded at the host port; the others are wire frames. -/
def Instr.isHost : Instr → Bool
  | .wait _ _ => true
  | .wren _ _ => true
  | .wrbyte _ _ _ => true
  | .write _ _ _ => true
  | .rdbyte _ _ => true
  | .read _ _ => true
  | .rdsrFrame _ => false
  | .wrenFrame => false
  | .writeFrame _ _ => false
  | .readFrame _ _ => false
  | .wrdiFrame _ => false
  | .wrsrFrame _ => false

/-- The descriptor whose header is the 40-bit word `w` of 30_encoding.md R91 (`op = w[39:32]`, sent most significant byte
first), its payload, if it has one, zeros. -/
def descriptorOfWord (w : Nat) : List Byte :=
  let v := BitVec.ofNat 40 w
  let op := v.extractLsb' 32 8
  let len := v.extractLsb' 0 16
  let payload := match hostOpOf op with
    | some .wrbyte => 1
    | some .write => len.toNat
    | _ => 0
  [op, v.extractLsb' 24 8, v.extractLsb' 16 8, v.extractLsb' 8 8, v.extractLsb' 0 8] ++ List.replicate payload 0

/-- The shortest frame whose first byte is `w`, its other bytes zeros (30_encoding.md R102 to R105). -/
def frameOfWord (w : Nat) : List Byte :=
  let op := BitVec.ofNat 8 w
  let more := match wireOpOf op with
    | some .rdsr => 1
    | some .write => 2
    | some .read => 2
    | _ => 0
  op :: List.replicate more 0

/-- The instruction the decoder reads from a row's word: 40 bits are a host descriptor's header, 8 bits a frame's first byte. -/
def decodeTableWord (nbits w : Nat) : Option Instr :=
  if nbits = 40 then
    match decodeHost (descriptorOfWord w) with
    | .instr i _ => some i
    | .bad _ => none
  else if nbits = 8 then
    match decodeFrame (frameOfWord w) with
    | .instr i _ => some i
    | .bad _ => none
  else none

end Sys2Proof
end

