-- ==== Sys2Proof/Machine/State.lean ====
section
/-! DEFINITION. The state of the sequencer, of the device and of the model's own inputs and outputs, as plain data. -/

namespace Sys2Proof.Machine

/-- The 27 micro-states of 10_state.md R24, in the order of its table. -/
inductive Phase where
  | idle | decode
  | pDelay | pSel | pOp | pDummy | pDesel | pTest
  | eSel | eOp | eDesel | eDelay
  | wSel | wOp | wAh | wAl | wData | wDesel | wNext
  | rSel | rOp | rAh | rAl | rData | rDesel
  | xDesel | resp
  deriving DecidableEq, Repr

/-- The response codes of 60_exceptions.md R210: what `ERR` holds (log 21). The reserved codes are never produced. -/
inductive Code where
  | ok | invalidAddress | invalidWriteSpan | deviceUnresponsive | transportError | invalidCommand
  deriving DecidableEq, Repr

/-- A status byte by its named bits (20_memory.md R53; log 20): bits 7:4, block protect 3:2, WEL bit 1, WIP bit 0. -/
structure Status where
  high : BitVec 4
  bp : BitVec 2
  wel : Bool
  wip : Bool
  deriving DecidableEq, Repr

/-- The answer to one exchange (10_state.md R41): a byte or `ERR`. The device's status byte is carried by its named bits. -/
inductive Rx where
  | byte (b : Byte)
  | status (st : Status)
  | err
  deriving DecidableEq, Repr

/-- The events of 00_scope.md R13: two on the host's side, four on the device's. -/
inductive Event where
  | cmd (op : Byte) (addr len : Half) (payload : List Byte)
  | rsp (code : Code) (rdata : List Byte)
  | delay (us : Nat)
  | sel (csId : Nat)
  | desel (csId : Nat)
  | xfer (tx : Byte) (rx : Rx)
  deriving DecidableEq, Repr

/-- What the transport is set to answer at an exchange (20_memory.md R81; log 7): the device's answer, any other
byte in its place, or `ERR`. -/
inductive Answer where
  | device
  | byte (b : Byte)
  | err
  deriving DecidableEq, Repr

/-- The EEPROM array as address and byte pairs, addresses strictly rising, no entry equal to `Memory.unlisted`. -/
abbrev Memory := List Host.Cell

/-- Whether a device receives the byte of an exchange that the transport answers with `ERR` (93_implementation_defined.md U13). -/
inductive FailedByte where
  /-- It does not: the reference device (20_memory.md R67). -/
  | dropped
  /-- It does. -/
  | received
  deriving DecidableEq, Repr

/-- What a device does with a frame that a transport failure cuts short (93_implementation_defined.md U17). -/
inductive CutFrame where
  /-- It takes what it has received as the frame (20_memory.md R70, R75): the reference device. -/
  | taken
  /-- It ignores the frame. -/
  | ignored
  /-- It ignores the frame, and a WRITE frame clears the latch. -/
  | disarming
  deriving DecidableEq, Repr

/-- What a device with its latch set does after a WRITE frame with no data bytes (93_implementation_defined.md U7). -/
inductive EmptyWrite where
  /-- Nothing, and the latch stays set: the reference device (20_memory.md R75). -/
  | unchanged
  /-- The latch is cleared. -/
  | disarming
  /-- A write cycle runs that stores nothing. -/
  | cycling
  deriving DecidableEq, Repr

/-- The parameters of the device model (93_implementation_defined.md U7, U13, U17; their ranges: log 18, log 19). Nothing writes them. -/
structure DeviceModel where
  failedByte : FailedByte
  cutFrame : CutFrame
  emptyWrite : EmptyWrite
  deriving DecidableEq, Repr

/-- The reference device's parameters (20_memory.md R67, R75). -/
def DeviceModel.reference : DeviceModel where
  failedByte := .dropped
  cutFrame := .taken
  emptyWrite := .unchanged

/-- The device (20_memory.md R52), when its running write cycle ends (`cycle`, an input; log 6), and its parameters. -/
structure Device where
  mem : Memory
  wip : Bool
  wel : Bool
  bp : BitVec 2
  dsel : Bool
  fr : List Byte
  ign : Bool
  cycle : Option Nat
  model : DeviceModel
  deriving DecidableEq, Repr

/-- The whole machine. The last block is the model's own: inputs, free-value counters and outputs (INVENTORY.md). -/
structure State where
  /-- The configuration registers (10_state.md R21). -/
  cfg : Config
  /-- `phase` (R24). -/
  phase : Phase
  /-- `sel` (R26). -/
  sel : Bool
  /-- `OP` (R27). -/
  op : Byte
  /-- `ADDR` (R27). -/
  addr : Half
  /-- `LEN` (R27). -/
  len : Half
  /-- `WBUF` (R27). -/
  wbuf : List Byte
  /-- `CUR` (R28). -/
  cur : Half
  /-- `RUN` (R28). -/
  run : BitVec 17
  /-- `REM` (R28). -/
  rem : Half
  /-- `IDX` (R28). -/
  idx : Half
  /-- `PCNT` (R29). -/
  pcnt : Nat
  /-- `SR` (R30). -/
  sr : Status
  /-- `RBUF` (R31). -/
  rbuf : List Byte
  /-- `ERR` (R32). -/
  err : Code
  /-- The device (20_memory.md R52). -/
  dev : Device
  /-- The trace (00_scope.md R13), oldest event first: an output. -/
  trace : List Event
  /-- Descriptor bytes the host has offered and the sequencer has not taken (log 9): an input. -/
  hostPort : List Byte
  /-- Frames a bench is to drive at the device while no operation runs (log 12): an input. -/
  bench : List (List Byte)
  /-- What the bench received in its last frame (log 12): an output. -/
  benchRx : List Rx
  /-- What the transport answers next (log 7): an input; when it is empty the device answers. -/
  script : List Answer
  /-- How long the coming write cycles last (log 6): an input; when it is empty a free value decides. -/
  cycles : List (Option Nat)
  /-- How many free cycle lengths have been taken (log 6). -/
  cycleCount : Nat
  /-- How many unspecified values have been drawn (log 5). -/
  draws : Nat
  deriving DecidableEq, Repr

/-- Where the model stops because no rule applies. Only states that no run reaches (log 23); each is safe. -/
inductive Fault where
  /-- Raised by `W_DATA` with `RUN = 0` and by `R_DATA` with `REM = 0`: the rules enter them only with bytes left (R154, R158). Safe. -/
  | emptyDataPhase
  /-- Raised by `W_DATA` when `IDX` is not an index of `WBUF` (R154 reads `WBUF[IDX]`). Safe. -/
  | payloadMissing
  /-- Raised by `P_TEST` when the device is ready and `OP` is none of the six operations (R132 has no case for it). Safe. -/
  | noOperation
  deriving DecidableEq, Repr

/-- Where the spec gives a run no meaning and asks a model to refuse it. -/
inductive Refusal where
  /-- Raised by an arm of `exec` whose instruction has no meaning yet. Safe. -/
  | notModelled (mnemonic : String)
  /-- Raised by `step` when the configuration is not legal (70_reset_and_hazards.md R246, U8). Safe. -/
  | illegalConfiguration
  /-- Raised by `step` when `bp` is not 0, and by a WRITE frame's deselect that would then commit (20_memory.md R65, U5). Safe. -/
  | blockProtected
  /-- Raised by the deselect of a frame with opcode 0x01 that the device does not ignore (20_memory.md R74, U6). Safe. -/
  | writeStatus
  /-- Raised by the deselect of a frame with an opcode outside the six that the device does not ignore (R74, U6). Safe. -/
  | unlistedOpcode
  /-- Raised by a wire frame driven from the bench while an operation runs (60_exceptions.md R231, U10). Safe. -/
  | secondMaster
  deriving DecidableEq, Repr

/-- The device at the start of a run (20_memory.md R57); `mem` lists nothing and `wip = 0` are the model's choices of two
parameters of the run (log 3, log 4), and it is the reference device. -/
def Device.reset : Device where
  mem := []
  wip := false
  wel := false
  bp := 0
  dsel := false
  fr := []
  ign := false
  cycle := none
  model := .reference

/-- Reset with configuration `cfg` and device `dev` (70_reset_and_hazards.md R240, 10_state.md R45): no event is emitted.
The registers R45 leaves unspecified hold 0 (DESIGN CHOICE, log 1). -/
def State.construct (cfg : Config) (dev : Device) : State where
  cfg := cfg
  phase := .idle
  sel := false
  op := 0
  addr := 0
  len := 0
  wbuf := []
  cur := 0
  run := 0
  rem := 0
  idx := 0
  pcnt := 0
  sr := ⟨0, 0, false, false⟩
  rbuf := []
  err := .ok
  dev := dev
  trace := []
  hostPort := []
  bench := []
  benchRx := []
  script := []
  cycles := []
  cycleCount := 0
  draws := 0

/-- Reset with the default configuration. -/
def State.reset : State := State.construct Config.default Device.reset

end Sys2Proof.Machine
end

