-- ==== Sys2Proof/Machine/Operands.lean ====
section
/-! DEFINITION. Address arithmetic and the checks on configuration registers (spec/42_addressing_engine.md R180, R181). -/

namespace Sys2Proof.Machine

/-- `LAST_ADDR = ADDR_SPACE_SIZE - 1` (00_scope.md R4; log 24). -/
def lastAddr (c : Config) : Nat := c.addrSpaceSize.toNat - 1

/-- `2 ^ k` for some `k` a 17-bit register can show. -/
def isPowerOfTwo (n : Nat) : Bool := (List.range 17).any (fun k => n == 2 ^ k)

/-- A legal configuration (70_reset_and_hazards.md R246). -/
def configLegal (c : Config) : Bool :=
  isPowerOfTwo c.pageSize.toNat && isPowerOfTwo c.addrSpaceSize.toNat
    && decide (c.pageSize.toNat ≤ c.addrSpaceSize.toNat)
    && decide (1 ≤ c.tPollUs) && decide (1 ≤ c.tWrenUs)
    && (match c.pollLimit with
      | none => true
      | some n => decide (1 ≤ n))

/-- `max_run(a) = PAGE_SIZE - (a % PAGE_SIZE)` (R180). -/
def maxRun (c : Config) (a : Half) : Nat := c.pageSize.toNat - a.toNat % c.pageSize.toNat

/-- The page base `a - (a % PAGE_SIZE)` (R180). -/
def pageBase (c : Config) (a : Nat) : Nat := a - a % c.pageSize.toNat

/-- The device's view of an address: the excess bits are ignored (20_memory.md R64). -/
def deviceAddr (c : Config) (a : Half) : Nat := a.toNat % c.addrSpaceSize.toNat

/-- The address of data byte `n` of a READ frame at `a`: the counter wraps at the top of the array (20_memory.md R69). -/
def readAddr (c : Config) (a : Half) (n : Nat) : Nat := (deviceAddr c a + n) % c.addrSpaceSize.toNat

/-- The address of data byte `j` of a WRITE frame at `a`: the counter wraps inside the page (20_memory.md R62). -/
def writeAddr (c : Config) (a : Nat) (j : Nat) : Nat :=
  pageBase c a + (a % c.pageSize.toNat + j) % c.pageSize.toNat

end Sys2Proof.Machine
end

