-- ==== Sys2Proof/Machine/Flags.lean ====
section
/-! DEFINITION. The status byte's bits (spec/20_memory.md R53), the response codes (spec/60_exceptions.md R210) and a device answer
as a byte. -/

namespace Sys2Proof.Machine

/-- The status byte on the wire: `{high, bp, wel, wip}` (R53, R68). -/
def statusByte (st : Status) : Byte :=
  st.high ++ st.bp ++ BitVec.ofBool st.wel ++ BitVec.ofBool st.wip

/-- A byte read as a status byte (R53). -/
def statusOf (b : Byte) : Status where
  high := b.extractLsb' 4 4
  bp := b.extractLsb' 2 2
  wel := b.getLsbD 1
  wip := b.getLsbD 0

/-- The value of a response code (R210). -/
def codeByte : Code → Byte
  | .ok => 0x00
  | .invalidAddress => 0x01
  | .invalidWriteSpan => 0x02
  | .deviceUnresponsive => 0x03
  | .transportError => 0x04
  | .invalidCommand => 0x05

/-- A response as bytes: `[code] ++ rdata` (30_encoding.md R97). -/
def responseBytes (code : Code) (rdata : List Byte) : List Byte := codeByte code :: rdata

/-- An answer as the byte received, `none` for `ERR`. -/
def rxByte : Rx → Option Byte
  | .byte b => some b
  | .status st => some (statusByte st)
  | .err => none

/-- An answer as the status byte received, `none` for `ERR`. -/
def rxStatus : Rx → Option Status
  | .byte b => some (statusOf b)
  | .status st => some st
  | .err => none

end Sys2Proof.Machine
end

