-- ==== Sys2Proof/Machine/Ops.lean ====
section
/-! DEFINITION. The shared operations: the array, the device event by event (spec/20_memory.md section 5), the sequencer's
events (spec/10_state.md section 5), and `raise` with the response that ends every operation (spec/60_exceptions.md R216). -/

namespace Sys2Proof.Machine

/-- A step's outcome. -/
abbrev Res := Host.Outcome State Fault Refusal

/-- Go on with `f` after a next state; a fault or a refusal stops. -/
def andThen (r : Res) (f : State → Res) : Res :=
  match r with
  | .next s => f s
  | .fault e => .fault e
  | .refused e => .refused e

/-! ### The array -/

/-- What a byte of the array that no entry lists reads as (DESIGN CHOICE, log 4). -/
def Memory.unlisted : Byte := 0x00

/-- `MemRead(a, 1)` (20_memory.md R60). -/
def Memory.read : Memory → Nat → Byte
  | [], _ => Memory.unlisted
  | (b, v) :: m, a => if a = b then v else Memory.read m a

/-- `MemWrite(a, 1, v)` (20_memory.md R60), keeping the canonical form. -/
def Memory.write : Memory → Nat → Byte → Memory
  | [], a, v => if v = Memory.unlisted then [] else [(a, v)]
  | (b, w) :: m, a, v =>
    if a < b then
      if v = Memory.unlisted then (b, w) :: m else (a, v) :: (b, w) :: m
    else if a = b then
      if v = Memory.unlisted then m else (a, v) :: m
    else (b, w) :: Memory.write m a v

/-- Every address is at least `lo`, addresses rise strictly, no entry equals what an unlisted byte reads as. -/
def Memory.wfFrom (lo : Nat) : Memory → Bool
  | [] => true
  | (b, v) :: m => decide (lo ≤ b) && decide (v ≠ Memory.unlisted) && Memory.wfFrom (b + 1) m

/-- The canonical form of an array. -/
def Memory.wf (m : Memory) : Bool := Memory.wfFrom 0 m

/-- Data bytes `bs`, the first of them number `j`, of a WRITE frame at address `a`, stored in order (20_memory.md R70 (b), R62). -/
def storePage (c : Config) (a : Nat) : Nat → List Byte → Memory → Memory
  | _, [], m => m
  | j, b :: bs, m => storePage c a (j + 1) bs (Memory.write m (writeAddr c a j) b)

/-! ### The device -/

/-- The running write cycle completes now (20_memory.md R71): `cycle` says when (log 6). -/
def cycleEnds (d : Device) : Bool := d.wip && decide (d.cycle = some 0)

/-- One micro-step less to the end of the cycle. -/
def cycleLeft : Option Nat → Option Nat
  | none => none
  | some 0 => none
  | some (k + 1) => some k

/-- The device's own turn (R71): completion clears `wip` and `wel`; nothing happens while no cycle runs. -/
def deviceTurn (d : Device) : Device :=
  { d with wip := d.wip && !cycleEnds d
           wel := d.wel && !cycleEnds d
           cycle := if d.wip then cycleLeft d.cycle else d.cycle }

/-- The device's own turn, taken before every micro-step (R15, R71). -/
def cycleTick (s : State) : State := { s with dev := deviceTurn s.dev }

/-- A write cycle starts (R70 (b)); its end is the next input, or a free value (log 6). -/
def startCycle (s : State) : State :=
  match s.cycles with
  | e :: rest => { s with dev := { s.dev with wip := true, cycle := e }, cycles := rest }
  | [] => { s with dev := { s.dev with wip := true, cycle := Config.cycleEnd s.cycleCount }, cycleCount := s.cycleCount + 1 }

/-- `SEL` at the device (R66). -/
def deviceSelect (s : State) : State :=
  { s with dev := { s.dev with dsel := true, fr := [], ign := false } }

/-- An unspecified byte, `draw_8()`, number `n` (00_scope.md R14; log 5), and the number of the next draw. -/
def drawByte (n : Nat) : Rx × Nat := (.byte (Config.draw8 n), n + 1)

/-- The device's status register as one RDSR answer (R53, R68): bits 7 to 4 are drawn. -/
def drawStatus (d : Device) (n : Nat) : Rx × Nat := (.status ⟨Config.draw4 n, d.bp, d.wel, d.wip⟩, n + 1)

/-- The device takes a byte into its frame; the first one decides whether the frame is ignored (R67). Unselected it takes nothing. -/
def deviceTake (tx : Byte) (d : Device) : Device :=
  if d.dsel then
    { d with fr := d.fr ++ [tx]
             ign := if d.fr = [] then d.wip && decide (wireOpOf tx ≠ some .rdsr) else d.ign }
  else d

/-- What the device answers to the byte at position `|fr|` (R67 to R69), with the number of the next draw. -/
def deviceAnswer (c : Config) (d : Device) (n : Nat) : Rx × Nat :=
  if d.dsel then
    match d.fr with
    | [] => drawByte n
    | op :: rest =>
      match wireOpOf op, rest with
      | some .rdsr, [] => drawStatus d n
      | some .read, ah :: al :: data =>
        if d.ign then drawByte n
        else (.byte (Memory.read d.mem (readAddr c (joinBytes ah al) data.length)), n)
      | _, _ => drawByte n
  else drawByte n

/-- `XFER` at the device (R67): the answer is that of the frame before this byte. -/
def deviceXfer (tx : Byte) (s : State) : Rx × State :=
  let a := deviceAnswer s.cfg s.dev s.draws
  (a.1, { s with dev := deviceTake tx s.dev, draws := a.2 })

/-- The device receives a WRITE frame it does not ignore. -/
def takesWrite (d : Device) : Bool :=
  match d.fr with
  | [] => false
  | op :: _ => !d.ign && decide (wireOpOf op = some .write)

/-- The frame is cut by a transport failure: the device goes by what it has received, or ignores the frame from here on (R75, U17;
log 19). -/
def deviceCut (d : Device) : Device :=
  match d.model.cutFrame with
  | .taken => d
  | .ignored => { d with ign := true }
  | .disarming => { d with ign := true, wel := d.wel && !takesWrite d }

/-- An exchange of `tx` that the transport answers with `ERR`, at the device: the byte is not received, or it is (R67, U13; log 19), and
the frame is cut. Unselected it does nothing. -/
def deviceFail (tx : Byte) (d : Device) : Device :=
  if d.dsel then
    match d.model.failedByte with
    | .dropped => deviceCut d
    | .received => deviceCut (deviceTake tx d)
  else d

/-- The end of a WRITE frame without data, the latch set (R75, U7; log 18). -/
def commitEmpty (s : State) : State :=
  match s.dev.model.emptyWrite with
  | .unchanged => s
  | .disarming => { s with dev := { s.dev with wel := false } }
  | .cycling => startCycle s

/-- The end of a WRITE frame whose bytes after the opcode are `rest` (R70 (b), (c), R75). -/
def commitWrite (rest : List Byte) (s : State) : Res :=
  match rest with
  | ah :: al :: b :: bs =>
    if s.dev.wel then
      if s.dev.bp = 0 then
        let a := deviceAddr s.cfg (joinBytes ah al)
        .next (startCycle { s with dev := { s.dev with mem := storePage s.cfg a 0 (b :: bs) s.dev.mem } })
      else .refused .blockProtected
    else .next s
  | [_, _] => if s.dev.wel then .next (commitEmpty s) else .next s
  | _ => .next s

/-- `DESEL` at the device (R70, R74). -/
def deviceDeselect (s : State) : Res :=
  let t := { s with dev := { s.dev with dsel := false } }
  if s.dev.ign then .next t
  else
    match s.dev.fr with
    | [] => .next t
    | op :: rest =>
      match wireOpOf op with
      | some .wren =>
        match rest with
        | [] => .next { t with dev := { t.dev with wel := true } }
        | _ :: _ => .next t
      | some .write => commitWrite rest t
      | some .read => .next t
      | some .rdsr => .next t
      | some .wrdi => .next { t with dev := { t.dev with wel := false } }
      | some .wrsr => .refused .writeStatus
      | none => .refused .unlistedOpcode

/-- One exchange as the transport answers it (10_state.md R41, 20_memory.md R81; log 7). On `ERR` the reference device is
as if the byte had not been exchanged (R67), any other as its parameters say (`deviceFail`). -/
def transfer (tx : Byte) (s : State) : Rx × State :=
  let t := { s with script := s.script.tail }
  match s.script.head? with
  | none => deviceXfer tx t
  | some .device => deviceXfer tx t
  | some (.byte b) => (.byte b, (deviceXfer tx t).2)
  | some .err => (.err, { t with dev := deviceFail tx s.dev })

/-! ### The sequencer's events -/

/-- `emit E` (00_scope.md R12, R13). -/
def emit (e : Event) (s : State) : State := { s with trace := s.trace ++ [e] }

/-- `phase <- P` (R12). -/
def goto (p : Phase) (s : State) : State := { s with phase := p }

/-- `DELAY(n)` (10_state.md R42), then phase `p`. -/
def doDelay (n : Nat) (p : Phase) (s : State) : State := goto p (emit (.delay n) s)

/-- `SEL(CS_ID)` (10_state.md R40, R26), then phase `p`. -/
def doSelect (p : Phase) (s : State) : State :=
  goto p { emit (.sel s.cfg.csId) (deviceSelect s) with sel := true }

/-- `DESEL(CS_ID)` (10_state.md R40, R26), then phase `p`. -/
def doDeselect (p : Phase) (s : State) : Res :=
  andThen (deviceDeselect s) fun t => .next (goto p { emit (.desel t.cfg.csId) t with sel := false })

/-- `r <- emit XFER(tx)` (00_scope.md R12). -/
def exchange (tx : Byte) (s : State) : Rx × State :=
  let (r, t) := transfer tx s
  (r, emit (.xfer tx r) t)

/-- `raise E` (60_exceptions.md R216), the one way an operation ends early. -/
def raise (e : Code) (s : State) : State :=
  { s with err := e, rbuf := [], phase := if s.sel then .xDesel else .resp }

/-- The return from an error, and of every operation: `RSP(ERR, RBUF)`, then `IDLE` (60_exceptions.md R216, R219; 10_state.md R39). -/
def respond (s : State) : State := goto .idle (emit (.rsp s.err s.rbuf) s)

/-- Send `tx`, discard the answer, go on in phase `p`; on `ERR` raise `TransportError` (60_exceptions.md R214). -/
def sendByte (tx : Byte) (p : Phase) (s : State) : State :=
  let (r, t) := exchange tx s
  match r with
  | .err => raise .transportError t
  | .byte _ => goto p t
  | .status _ => goto p t

/-- Acceptance of `CMD(op, addr, len, payload)` (10_state.md R38). -/
def accept (op : Byte) (addr len : Half) (payload : List Byte) (s : State) : State :=
  emit (.cmd op addr len payload)
    { s with op := op, addr := addr, len := len, wbuf := payload, rbuf := [], err := .ok, phase := .decode }

end Sys2Proof.Machine
end

