-- ==== Sys2Proof/Machine/Poller.lean ====
section
/-! DEFINITION. The Status Poller's phases (spec/40_status_poller.md). -/

namespace Sys2Proof.Machine

/-- Entering the wait procedure (R138). -/
def startWait (s : State) : State := { s with pcnt := 0, phase := .pDelay }

/-- `P_DELAY` (R131). -/
def stepPDelay (s : State) : State := doDelay s.cfg.tPollUs .pSel s

/-- `P_SEL` (R131). -/
def stepPSel (s : State) : State := doSelect .pOp s

/-- `P_OP` (R131). -/
def stepPOp (s : State) : State := sendByte (wireOpcode .rdsr) .pDummy s

/-- `P_DUMMY` (R131): the status byte goes to `SR`. -/
def stepPDummy (s : State) : State :=
  let (r, t) := exchange s.cfg.dummy s
  match rxStatus r with
  | none => raise .transportError t
  | some st => goto .pDesel { t with sr := st }

/-- `P_DESEL` (R131). -/
def stepPDesel (s : State) : Res := doDeselect .pTest s

/-- What follows a wait that found the device ready, by `OP` (R132). -/
def afterWait (s : State) : Res :=
  match hostOpOf s.op with
  | some .wait => .next (goto .resp s)
  | some .wren => .next (goto .eSel s)
  | some .wrbyte => .next (goto .eSel s)
  | some .write => .next (goto .eSel s)
  | some .rdbyte => .next (goto .rSel s)
  | some .read => .next (goto .rSel s)
  | none => .fault .noOperation

/-- A busy answer (R132, R133): count it, and raise `DeviceUnresponsive` at the limit. -/
def countBusy (s : State) : State :=
  let t := { s with pcnt := s.pcnt + 1 }
  match s.cfg.pollLimit with
  | none => goto .pDelay t
  | some n => if n ≤ s.pcnt + 1 then raise .deviceUnresponsive t else goto .pDelay t

/-- `P_TEST` (R132): only bit 0 of `SR` counts. -/
def stepPTest (s : State) : Res :=
  if s.sr.wip then .next (countBusy s) else afterWait s

end Sys2Proof.Machine
end

