-- ==== Sys2Proof/Machine/Addressing.lean ====
section
/-! DEFINITION. The Addressing Engine: `DECODE` and `W_NEXT` (spec/42_addressing_engine.md R186, R187). -/

namespace Sys2Proof.Machine

/-- `DECODE` for RDBYTE and READ: the address check, then `REM` (R182, R186). -/
def setupRead (s : State) : State :=
  if lastAddr s.cfg < s.addr.toNat then raise .invalidAddress s
  else startWait { s with rem := s.len }

/-- `DECODE` for WRBYTE and WRITE: address, then span, then the first chunk (R182 to R186). -/
def setupWrite (s : State) : State :=
  if lastAddr s.cfg < s.addr.toNat then raise .invalidAddress s
  else
    let m := maxRun s.cfg s.addr
    if s.len.toNat ≤ m then
      startWait { s with cur := s.addr, run := BitVec.ofNat 17 s.len.toNat, rem := 0, idx := 0 }
    else
      match s.cfg.spanPolicy with
      | .reject => raise .invalidWriteSpan s
      | .split =>
        startWait { s with cur := s.addr, run := BitVec.ofNat 17 m, rem := BitVec.ofNat 16 (s.len.toNat - m), idx := 0 }

/-- `DECODE` (R186): opcode, then address, then span (60_exceptions.md R218). -/
def stepDecode (s : State) : State :=
  match hostOpOf s.op with
  | some .wait => startWait { s with len := 0 }
  | some .wren => startWait { s with len := 0 }
  | some .rdbyte => setupRead { s with len := 1 }
  | some .read => setupRead s
  | some .wrbyte => setupWrite { s with len := 1 }
  | some .write => setupWrite s
  | none => raise .invalidCommand s

/-- `W_NEXT` (R187): the next chunk starts at the base of the same page. -/
def stepWNext (s : State) : State :=
  if s.rem = 0 then goto .resp s
  else
    let r := min s.rem.toNat s.cfg.pageSize.toNat
    startWait
      { s with cur := BitVec.ofNat 16 (pageBase s.cfg s.cur.toNat), run := BitVec.ofNat 17 r,
               rem := BitVec.ofNat 16 (s.rem.toNat - r) }

end Sys2Proof.Machine
end

