-- ==== Sys2Proof/Machine/Framer.lean ====
section
/-! DEFINITION. The Command Framer's phases: write-enable, write frame, read frame (spec/41_command_framer.md). -/

namespace Sys2Proof.Machine

/-- `E_SEL` (R151). -/
def stepESel (s : State) : State := doSelect .eOp s

/-- `E_OP` (R151). -/
def stepEOp (s : State) : State := sendByte (wireOpcode .wren) .eDesel s

/-- `E_DESEL` (R151). -/
def stepEDesel (s : State) : Res := doDeselect .eDelay s

/-- `E_DELAY` (R151): host op WREN ends here, the writes go on to their frame. -/
def stepEDelay (s : State) : State :=
  doDelay s.cfg.tWrenUs (if hostOpOf s.op = some .wren then .resp else .wSel) s

/-- `W_SEL` (R154). -/
def stepWSel (s : State) : State := doSelect .wOp s

/-- `W_OP` (R154). -/
def stepWOp (s : State) : State := sendByte (wireOpcode .write) .wAh s

/-- `W_AH` (R154). -/
def stepWAh (s : State) : State := sendByte (hiByte s.cur) .wAl s

/-- `W_AL` (R154): no data phase when there is no data. -/
def stepWAl (s : State) : State :=
  sendByte (loByte s.cur) (if s.run = 0 then .wDesel else .wData) s

/-- `W_DATA` (R154): one payload byte; `IDX` and `RUN` move only when the exchange succeeds. -/
def stepWData (s : State) : Res :=
  if s.run = 0 then .fault .emptyDataPhase
  else
    match s.wbuf[s.idx.toNat]? with
    | none => .fault .payloadMissing
    | some b =>
      let (r, t) := exchange b s
      match rxByte r with
      | none => .next (raise .transportError t)
      | some _ =>
        .next (goto (if s.run - 1 = 0 then .wDesel else .wData) { t with idx := s.idx + 1, run := s.run - 1 })

/-- `W_DESEL` (R154). -/
def stepWDesel (s : State) : Res := doDeselect .wNext s

/-- `R_SEL` (R158). -/
def stepRSel (s : State) : State := doSelect .rOp s

/-- `R_OP` (R158). -/
def stepROp (s : State) : State := sendByte (wireOpcode .read) .rAh s

/-- `R_AH` (R158). -/
def stepRAh (s : State) : State := sendByte (hiByte s.addr) .rAl s

/-- `R_AL` (R158): no data phase when nothing is to be read. -/
def stepRAl (s : State) : State :=
  sendByte (loByte s.addr) (if s.rem = 0 then .rDesel else .rData) s

/-- `R_DATA` (R158): one byte received, appended to `RBUF` unexamined. -/
def stepRData (s : State) : Res :=
  if s.rem = 0 then .fault .emptyDataPhase
  else
    let (r, t) := exchange s.cfg.dummy s
    match rxByte r with
    | none => .next (raise .transportError t)
    | some b =>
      .next (goto (if s.rem - 1 = 0 then .rDesel else .rData) { t with rbuf := s.rbuf ++ [b], rem := s.rem - 1 })

/-- `R_DESEL` (R158). -/
def stepRDesel (s : State) : Res := doDeselect .resp s

/-- `X_DESEL` (60_exceptions.md R216). -/
def stepXDesel (s : State) : Res := doDeselect .resp s

end Sys2Proof.Machine
end

