-- ==== Sys2Proof/Machine/Sequencer.lean ====
section
/-! DEFINITION. The micro-step (one phase of spec/10_state.md R24, one event at most) and a whole stretch of an operation. -/

namespace Sys2Proof.Machine

/-- What the sequencer does in its phase (10_state.md R24, R25). In `IDLE` it does nothing of its own. -/
def phaseStep (s : State) : Res :=
  match s.phase with
  | .idle => .next s
  | .decode => .next (stepDecode s)
  | .pDelay => .next (stepPDelay s)
  | .pSel => .next (stepPSel s)
  | .pOp => .next (stepPOp s)
  | .pDummy => .next (stepPDummy s)
  | .pDesel => stepPDesel s
  | .pTest => stepPTest s
  | .eSel => .next (stepESel s)
  | .eOp => .next (stepEOp s)
  | .eDesel => stepEDesel s
  | .eDelay => .next (stepEDelay s)
  | .wSel => .next (stepWSel s)
  | .wOp => .next (stepWOp s)
  | .wAh => .next (stepWAh s)
  | .wAl => .next (stepWAl s)
  | .wData => stepWData s
  | .wDesel => stepWDesel s
  | .wNext => .next (stepWNext s)
  | .rSel => .next (stepRSel s)
  | .rOp => .next (stepROp s)
  | .rAh => .next (stepRAh s)
  | .rAl => .next (stepRAl s)
  | .rData => stepRData s
  | .rDesel => stepRDesel s
  | .xDesel => stepXDesel s
  | .resp => .next (respond s)

/-- One micro-step: the device's own turn (20_memory.md R71), then the sequencer's phase. -/
def tick (s : State) : Res := phaseStep (cycleTick s)

/-- Where a stretch ends: the operation has responded, or a status read found the device busy and another one is due (log 8). -/
def pausesAt (before after : Phase) : Bool :=
  decide (after = .idle) || (decide (before = .pTest) && decide (after = .pDelay))

/-- Micro-steps up to the end of the stretch, at most `fuel` of them. -/
def runStretch : Nat → State → Res
  | 0, s => .next s
  | n + 1, s =>
    match tick s with
    | .next t => if pausesAt s.phase t.phase then .next t else runStretch n t
    | .fault e => .fault e
    | .refused e => .refused e

/-- More micro-steps than any stretch takes (log 8); were it fewer, the next step would go on from the phase reached. -/
def stretchFuel (s : State) : Nat := 64 * (s.len.toNat + s.run.toNat + s.rem.toNat + 2)

/-- The operation in progress goes on to its response, or to the next busy answer. -/
def resume (s : State) : Res := runStretch (stretchFuel s) s

/-- A host command: accepted in `IDLE` and run; in any other phase it is not accepted (10_state.md R38) and the operation in
progress goes on (log 10). -/
def operate (op : Byte) (addr len : Half) (payload : List Byte) (s : State) : Res :=
  if s.phase = .idle then resume (accept op addr len payload s) else resume s

end Sys2Proof.Machine
end

