-- ==== Sys2Proof/Machine/HostOps.lean ====
section
/-! DEFINITION. The meanings of the six host commands (spec/30_encoding.md R92): each runs its operation from `CMD` to `RSP`. -/

namespace Sys2Proof.Machine

/-- `WAIT` (40_status_poller.md R135). -/
def execWait (addr len : Half) (s : State) : Res := operate (hostOpcode .wait) addr len [] s

/-- `WREN` (41_command_framer.md R152). -/
def execWren (addr len : Half) (s : State) : Res := operate (hostOpcode .wren) addr len [] s

/-- `WRBYTE` (42_addressing_engine.md R189). -/
def execWrbyte (addr len : Half) (v : Byte) (s : State) : Res := operate (hostOpcode .wrbyte) addr len [v] s

/-- `WRITE` (42_addressing_engine.md R188). -/
def execWrite (addr len : Half) (data : List Byte) (s : State) : Res := operate (hostOpcode .write) addr len data s

/-- `RDBYTE` (41_command_framer.md R160). -/
def execRdbyte (addr len : Half) (s : State) : Res := operate (hostOpcode .rdbyte) addr len [] s

/-- `READ` (41_command_framer.md R159). -/
def execRead (addr len : Half) (s : State) : Res := operate (hostOpcode .read) addr len [] s

/-- A descriptor with a reserved opcode: its 5 bytes are taken, `DECODE` raises `InvalidCommand` (30_encoding.md R95,
60_exceptions.md R215). It is no row of the opcode table, so `step` calls it directly (log 11). -/
def execReserved (op : Byte) (addr len : Half) (s : State) : Res := operate op addr len [] s

end Sys2Proof.Machine
end

