-- ==== Sys2Proof/Machine/WireOps.lean ====
section
/-! DEFINITION. The meanings of the six wire frames as the device takes them (spec/20_memory.md section 5): one whole
frame on the wire, driven while no operation runs (95_test_vectors.md V-A11; log 12). The sequencer's side of the four frames
it emits is in its phases. -/

namespace Sys2Proof.Machine

/-- The bytes of a frame, one exchange each, the device's own turn before each; an `ERR` cuts the frame (20_memory.md R75). -/
def driveBytes : List Byte → State → State
  | [], s => s
  | b :: bs, s =>
    let (r, t) := transfer b (cycleTick s)
    let t := { t with benchRx := t.benchRx ++ [r] }
    match r with
    | .err => t
    | .byte _ => driveBytes bs t
    | .status _ => driveBytes bs t

/-- A whole frame: select, the bytes, deselect (00_scope.md R13). -/
def driveFrame (bytes : List Byte) (s : State) : Res :=
  deviceDeselect (cycleTick (driveBytes bytes (deviceSelect (cycleTick { s with benchRx := [] }))))

/-- A frame from the bench; while an operation runs it would be a second master's (60_exceptions.md R231, U10). -/
def benchFrame (bytes : List Byte) (s : State) : Res :=
  if s.phase = .idle then driveFrame bytes s else .refused .secondMaster

/-- The RDSR frame (R68). -/
def execRdsrFrame (dummy : Byte) (s : State) : Res := benchFrame [wireOpcode .rdsr, dummy] s

/-- The WREN frame (R70 (a)). -/
def execWrenFrame (s : State) : Res := benchFrame [wireOpcode .wren] s

/-- The WRITE frame (R70 (b), (c), R62, R75). -/
def execWriteFrame (addr : Half) (data : List Byte) (s : State) : Res :=
  benchFrame (wireOpcode .write :: hiByte addr :: loByte addr :: data) s

/-- The READ frame (R69). -/
def execReadFrame (addr : Half) (dummies : List Byte) (s : State) : Res :=
  benchFrame (wireOpcode .read :: hiByte addr :: loByte addr :: dummies) s

/-- The WRDI frame (R74). -/
def execWrdiFrame (rest : List Byte) (s : State) : Res := benchFrame (wireOpcode .wrdi :: rest) s

/-- The WRSR frame (R74, U6): refused unless the device ignores it (R73). -/
def execWrsrFrame (rest : List Byte) (s : State) : Res := benchFrame (wireOpcode .wrsr :: rest) s

end Sys2Proof.Machine
end

