-- ==== Sys2Proof/Machine/Dispatch.lean ====
section
/-! DEFINITION. One arm per row of the opcode table. -/

namespace Sys2Proof.Machine

def exec (i : Instr) (s : State) : Host.Outcome State Fault Refusal :=
  match i with
  | .wait addr len => Sys2Proof.Machine.execWait addr len s
  | .wren addr len => Sys2Proof.Machine.execWren addr len s
  | .wrbyte addr len v => Sys2Proof.Machine.execWrbyte addr len v s
  | .write addr len data => Sys2Proof.Machine.execWrite addr len data s
  | .rdbyte addr len => Sys2Proof.Machine.execRdbyte addr len s
  | .read addr len => Sys2Proof.Machine.execRead addr len s
  | .rdsrFrame dummy => Sys2Proof.Machine.execRdsrFrame dummy s
  | .wrenFrame => Sys2Proof.Machine.execWrenFrame s
  | .writeFrame addr data => Sys2Proof.Machine.execWriteFrame addr data s
  | .readFrame addr dummies => Sys2Proof.Machine.execReadFrame addr dummies s
  | .wrdiFrame rest => Sys2Proof.Machine.execWrdiFrame rest s
  | .wrsrFrame rest => Sys2Proof.Machine.execWrsrFrame rest s

end Sys2Proof.Machine
end

