-- ==== Sys2Proof/Machine/Fetch.lean ====
section
/-! DEFINITION. What the machine takes next while no operation runs: a frame of the bench, a descriptor of the host, or nothing. -/

namespace Sys2Proof.Machine

/-- The runs the spec gives no meaning: an illegal configuration (70_reset_and_hazards.md R246, U8), a protected device
(20_memory.md R65, U5). `none` when the state is admissible. -/
def gate (s : State) : Option Refusal :=
  if configLegal s.cfg then
    if s.dev.bp = 0 then none else some .blockProtected
  else some .illegalConfiguration

/-- A frame of the bench: the instruction it decodes to, or, where its shape is no row's, driven as it is (20_memory.md R75,
R70 (d); log 13). -/
def takeBench (frame : List Byte) (s : State) : Res :=
  match decodeFrame frame with
  | .instr i _ => exec i s
  | .bad _ => benchFrame frame s

/-- The host port in `IDLE` (10_state.md R38): a whole descriptor is taken and run, a reserved opcode with its 5 bytes (30_encoding.md
R95); with no whole descriptor there the sequencer emits nothing (60_exceptions.md R233) and only the device may move
(00_scope.md R17; log 9). -/
def takeHost (s : State) : Res :=
  match decodeHost s.hostPort with
  | .instr i rest => exec i { s with hostPort := rest }
  | .bad (.reserved op addr len rest) => execReserved op addr len { s with hostPort := rest }
  | .bad _ => .next (cycleTick s)

/-- The next thing in `IDLE`: a waiting bench frame first, then the host port (log 12). -/
def takeNext (s : State) : Res :=
  match s.bench with
  | frame :: rest => takeBench frame { s with bench := rest }
  | [] => takeHost s

end Sys2Proof.Machine
end

