-- ==== Sys2Proof/Machine/Step.lean ====
section
/-! DEFINITION. One step: in `IDLE` the next command or frame, otherwise the operation in progress goes on. -/

namespace Sys2Proof.Machine

/-- One step. An operation that found the device busy is in progress between steps (log 8). -/
def step (s : State) : Host.Outcome State Fault Refusal :=
  match gate s with
  | some r => .refused r
  | none => if s.phase = .idle then takeNext s else resume s

/-- `s` with the instruction of a table row's word where `step` takes its next instruction (log 26): a descriptor at the head of
the host port, with no bench frame before it, or a frame at the head of the bench; in `IDLE`, the only phase that takes one. -/
def State.withFetchWord (s : State) (nbits w : Nat) : State :=
  if nbits = 8 then { s with phase := .idle, bench := frameOfWord w :: s.bench }
  else { s with phase := .idle, bench := [], hostPort := descriptorOfWord w ++ s.hostPort }

end Sys2Proof.Machine
end

