-- ==== Sys2Proof/Machine/Bulk.lean ====
section
/-! DEFINITION. The host-side pseudo-operations CLEAR_ALL and DUMP_ALL as the host runs them (spec/43_bulk_pseudo_ops.md). They
have no encoding and are no row of the table; the sequencer sees only their WRBYTE and RDBYTE commands. -/

namespace Sys2Proof.Machine

/-- What a bulk operation reports (R202): the code, how many commands ended with `OK`, and, for DUMP_ALL, the bytes read. -/
structure BulkReport where
  code : Code
  count : Nat
  out : List Byte
  deriving DecidableEq, Repr

/-- The command CLEAR_ALL issues for address `a` (R200). -/
def clearCommand (a : Nat) : Instr := .wrbyte (BitVec.ofNat 16 a) 1 0x00

/-- The command DUMP_ALL issues for address `a` (R201). -/
def dumpCommand (a : Nat) : Instr := .rdbyte (BitVec.ofNat 16 a) 1

/-- The expansion of CLEAR_ALL in increasing address order (R200). -/
def clearAllCommands (c : Config) : List Instr := (List.range c.addrSpaceSize.toNat).map clearCommand

/-- The expansion of DUMP_ALL in increasing address order (R201). -/
def dumpAllCommands (c : Config) : List Instr := (List.range c.addrSpaceSize.toNat).map dumpCommand

/-- Go on with the operation in progress until it has responded, at most `polls` stretches. -/
def awaitResponse : Nat → State → Option State
  | 0, s => if s.phase = .idle then some s else none
  | n + 1, s =>
    if s.phase = .idle then some s
    else
      match resume s with
      | .next t => awaitResponse n t
      | .fault _ => none
      | .refused _ => none

/-- Issue one command and take its response (00_scope.md R16); `none` while it has not come within `polls` busy answers. -/
def issue (polls : Nat) (i : Instr) (s : State) : Option State :=
  match exec i s with
  | .next t => awaitResponse polls t
  | .fault _ => none
  | .refused _ => none

/-- The host's loop over commands: stop at the first response that is not `OK` and report how many were (R200 to R202). -/
def bulkRun (polls : Nat) : List Instr → BulkReport → State → Option (BulkReport × State)
  | [], rep, s => some (rep, s)
  | i :: is, rep, s =>
    match issue polls i s with
    | none => none
    | some t =>
      if t.err = .ok then bulkRun polls is { rep with count := rep.count + 1, out := rep.out ++ t.rbuf } t
      else some ({ rep with code := t.err }, t)

/-- CLEAR_ALL (R200). -/
def clearAll (polls : Nat) (s : State) : Option (BulkReport × State) :=
  bulkRun polls (clearAllCommands s.cfg) ⟨.ok, 0, []⟩ s

/-- DUMP_ALL (R201). -/
def dumpAll (polls : Nat) (s : State) : Option (BulkReport × State) :=
  bulkRun polls (dumpAllCommands s.cfg) ⟨.ok, 0, []⟩ s

end Sys2Proof.Machine
end

