-- ==== Sys2Proof/Safety.lean ====
section
/-! DEFINITION. What claims are stated with: the order of phases, a monitor of the trace, the invariant of the machine, when a run
is finished, and the conditions under which an operation goes through without waiting. -/

namespace Sys2Proof.Machine

/-! ### Control (spec/10_state.md R25, R33) -/

/-- The phases in which chip-select is asserted (R33 (b)). -/
def selectedPhase : Phase → Bool
  | .pOp | .pDummy | .pDesel => true
  | .eOp | .eDesel => true
  | .wOp | .wAh | .wAl | .wData | .wDesel => true
  | .rOp | .rAh | .rAl | .rData | .rDesel => true
  | .xDesel => true
  | _ => false

/-- The phases a phase may lead to (R25): the table's order, the wait loop, the dispatch after a wait, the data loops and their
skips, the chunk loop, and the exits to `X_DESEL` or `RESP` on an error. -/
def successors : Phase → List Phase
  | .idle => [.idle]
  | .decode => [.pDelay, .resp, .xDesel]
  | .pDelay => [.pSel]
  | .pSel => [.pOp]
  | .pOp => [.pDummy, .xDesel, .resp]
  | .pDummy => [.pDesel, .xDesel, .resp]
  | .pDesel => [.pTest]
  | .pTest => [.pDelay, .eSel, .rSel, .resp, .xDesel]
  | .eSel => [.eOp]
  | .eOp => [.eDesel, .xDesel, .resp]
  | .eDesel => [.eDelay]
  | .eDelay => [.wSel, .resp]
  | .wSel => [.wOp]
  | .wOp => [.wAh, .xDesel, .resp]
  | .wAh => [.wAl, .xDesel, .resp]
  | .wAl => [.wData, .wDesel, .xDesel, .resp]
  | .wData => [.wData, .wDesel, .xDesel, .resp]
  | .wDesel => [.wNext]
  | .wNext => [.pDelay, .resp]
  | .rSel => [.rOp]
  | .rOp => [.rAh, .xDesel, .resp]
  | .rAh => [.rAl, .xDesel, .resp]
  | .rAl => [.rData, .rDesel, .xDesel, .resp]
  | .rData => [.rData, .rDesel, .xDesel, .resp]
  | .rDesel => [.resp]
  | .xDesel => [.resp]
  | .resp => [.idle]

/-! ### A monitor of the trace (spec/10_state.md R33 (c) to (e), 40_status_poller.md R134, 42_addressing_engine.md R185) -/

/-- What the monitor knows after a trace. -/
structure Monitor where
  /-- Between a `CMD` and its `RSP`. -/
  busy : Bool
  /-- Between a `SEL` and its `DESEL`. -/
  selected : Bool
  /-- Exchanges so far in the open frame. -/
  count : Nat
  /-- First byte sent in the frame. -/
  opcode : Byte
  /-- The last status read answered WIP = 0 and no WRITE frame has ended since. -/
  ready : Bool
  /-- A WREN frame has been sent since that status read. -/
  latched : Bool
  deriving DecidableEq, Repr

/-- Whether an answer is a byte whose bit 0 is 0. -/
def showsReady : Rx → Bool
  | .byte b => !b.getLsbD 0
  | .status st => !st.wip
  | .err => false

/-- A first byte the monitor lets a frame begin with: a status read always, any other frame only when the device was last seen
ready, a WRITE frame only after a WREN frame. -/
def mayBegin (m : Monitor) (tx : Byte) : Bool :=
  match wireOpOf tx with
  | some .rdsr => true
  | some .wren => m.ready
  | some .read => m.ready
  | some .write => m.ready && m.latched
  | some .wrdi => false
  | some .wrsr => false
  | none => false

/-- The monitor after an exchange. -/
def Monitor.exchanged (m : Monitor) (tx : Byte) (rx : Rx) : Monitor :=
  { m with
    count := m.count + 1
    opcode := if m.count = 0 then tx else m.opcode
    ready := if m.count = 1 ∧ wireOpOf m.opcode = some .rdsr then showsReady rx else m.ready && decide (rx ≠ .err)
    latched := m.latched && decide (rx ≠ .err) }

/-- The monitor after one event, `none` where the event is out of place. -/
def Monitor.next (m : Monitor) : Event → Option Monitor
  | .cmd _ _ _ _ => if m.busy || m.selected then none else some ⟨true, false, 0, 0, false, false⟩
  | .rsp _ _ => if m.busy && !m.selected then some { m with busy := false } else none
  | .delay _ => if m.busy && !m.selected then some m else none
  | .sel _ => if m.busy && !m.selected then some { m with selected := true, count := 0, opcode := 0 } else none
  | .xfer tx rx =>
    if m.busy && m.selected && (m.count != 0 || mayBegin m tx) then some (m.exchanged tx rx) else none
  | .desel _ =>
    if m.busy && m.selected then
      match wireOpOf m.opcode with
      | some .write => some { m with selected := false, ready := false, latched := false }
      | some .wren => some { m with selected := false, latched := m.ready }
      | _ => some { m with selected := false, latched := false }
    else none

/-- The monitor before any event. -/
def Monitor.init : Monitor := ⟨false, false, 0, 0, false, false⟩

/-- The monitor run over a trace, `none` once an event was out of place. -/
def monitor (trace : List Event) : Option Monitor :=
  trace.foldl (fun m e => m.bind fun m => m.next e) (some Monitor.init)

/-- What the monitor must know in phase `p`, with `wip` bit 0 of `SR`. -/
def phaseAgrees (p : Phase) (wip : Bool) (m : Monitor) : Bool :=
  match p with
  | .pOp => m.count == 0
  | .pDummy => m.count == 1 && decide (wireOpOf m.opcode = some .rdsr)
  | .pDesel => decide (wireOpOf m.opcode = some .rdsr) && m.ready == !wip
  | .pTest => m.ready == !wip
  | .eSel => m.ready
  | .eOp => m.ready && m.count == 0
  | .eDesel => m.ready && decide (wireOpOf m.opcode = some .wren)
  | .eDelay => m.ready && m.latched
  | .wSel => m.ready && m.latched
  | .wOp => m.ready && m.latched && m.count == 0
  | .wAh => m.count != 0
  | .wAl => m.count != 0
  | .wData => m.count != 0
  | .rSel => m.ready
  | .rOp => m.ready && m.count == 0
  | .rAh => m.count != 0
  | .rAl => m.count != 0
  | .rData => m.count != 0
  | _ => true

/-- The trace so far is one the rules allow, and the control state is where the trace says. -/
def traceInv (s : State) : Prop :=
  ∃ m, monitor s.trace = some m ∧ m.busy = decide (s.phase ≠ .idle) ∧ m.selected = s.sel ∧
    phaseAgrees s.phase s.sr.wip m = true

/-! ### The invariant -/

/-- A first byte the sequencer sends (30_encoding.md R100). -/
def emittedOpcode (b : Byte) : Bool :=
  match wireOpOf b with
  | some .rdsr => true
  | some .wren => true
  | some .write => true
  | some .read => true
  | some .wrdi => false
  | some .wrsr => false
  | none => false

/-- The frame `fr` the device holds in phase `p` is one of the sequencer's: nothing before the opcode, an emitted opcode after it. -/
def frameInv (p : Phase) (fr : List Byte) : Bool :=
  match p with
  | .pOp | .eOp | .wOp | .rOp => fr == []
  | .xDesel => match fr with
    | [] => true
    | op :: _ => emittedOpcode op
  | _ => !selectedPhase p || (match fr with
    | [] => false
    | op :: _ => emittedOpcode op)

/-- The operation `o` is one that phase `p` belongs to (10_state.md R25). -/
def opInv (p : Phase) (o : Option HostOp) : Bool :=
  match p with
  | .idle | .decode | .xDesel | .resp => true
  | .pDelay | .pSel | .pOp | .pDummy | .pDesel | .pTest => o.isSome
  | .eSel | .eOp | .eDesel | .eDelay =>
    decide (o = some .wren) || decide (o = some .wrbyte) || decide (o = some .write)
  | .wSel | .wOp | .wAh | .wAl | .wData | .wDesel | .wNext => decide (o = some .wrbyte) || decide (o = some .write)
  | .rSel | .rOp | .rAh | .rAl | .rData | .rDesel => decide (o = some .rdbyte) || decide (o = some .read)

/-- Whether the write path's registers matter: a wait, write-enable or write-frame phase of WRBYTE or WRITE. -/
def writing (p : Phase) (o : Option HostOp) : Bool :=
  (decide (o = some .wrbyte) || decide (o = some .write)) &&
  match p with
  | .idle | .decode | .xDesel | .resp => false
  | _ => true

/-- The write path's registers (R28, R155, 42_addressing_engine.md R181): `IDX`, `RUN` and `REM` add up to the payload, and the
chunk lies in its page and in the array. -/
def writeInv (s : State) : Prop :=
  s.idx.toNat + s.run.toNat + s.rem.toNat = s.wbuf.length ∧ s.wbuf.length < 2 ^ 16 ∧
    s.run.toNat ≤ maxRun s.cfg s.cur ∧ s.cur.toNat ≤ lastAddr s.cfg

/-- In `DECODE` the payload is as long as the operation says (30_encoding.md R93). -/
def payloadInv (s : State) : Prop :=
  match hostOpOf s.op with
  | some .wrbyte => s.wbuf.length = 1
  | some .write => s.wbuf.length = s.len.toNat
  | _ => True

/-- A data phase has data left (R154, R158); after a write frame the chunk is sent. -/
def countInv (p : Phase) (run : BitVec 17) (rem : Half) : Bool :=
  match p with
  | .wData => run != 0
  | .wDesel => run == 0
  | .wNext => run == 0
  | .rData => rem != 0
  | _ => true

/-- Every listed byte of the array has an address inside it (20_memory.md R50). -/
def memoryInside (c : Config) (m : Memory) : Prop := ∀ x ∈ m, x.1 < c.addrSpaceSize.toNat

/-- The control part of the invariant: chip-select and the trace (10_state.md R33). -/
def controlInv (s : State) : Prop :=
  s.sel = selectedPhase s.phase ∧ s.dev.dsel = s.sel ∧ traceInv s

/-- The data part: the registers an operation works with, and the frame the device holds. -/
def dataInv (s : State) : Prop :=
  frameInv s.phase s.dev.fr = true ∧ opInv s.phase (hostOpOf s.op) = true ∧ countInv s.phase s.run s.rem = true ∧
    (writing s.phase (hostOpOf s.op) = true → writeInv s) ∧ (s.phase = .decode → payloadInv s)

/-- The array part (20_memory.md R50): canonical, and nothing outside it. -/
def memoryInv (s : State) : Prop := Memory.wf s.dev.mem = true ∧ memoryInside s.cfg s.dev.mem

/-- The invariant: an admissible configuration and device, and the three parts. -/
def Inv (s : State) : Prop := gate s = none ∧ controlInv s ∧ dataInv s ∧ memoryInv s

/-! ### Runs -/

/-- A finished run (00_scope.md R17): nothing offered, `IDLE`, deselected, no write cycle pending. -/
def finished (s : State) : Prop :=
  s.phase = .idle ∧ s.sel = false ∧ s.dev.wip = false ∧ s.hostPort = [] ∧ s.bench = []

/-- The device answers every coming exchange (20_memory.md R81). -/
def quiet (s : State) : Prop := ∀ a ∈ s.script, a = .device

/-- An operation started now goes through without waiting: `IDLE` and deselected, the device idle and answering. -/
def goesThrough (s : State) : Prop := s.phase = .idle ∧ s.sel = false ∧ s.dev.wip = false ∧ quiet s

/-- What every operation and frame leaves alone: the configuration (10_state.md R22), the device's block-protect bits
(20_memory.md R53) and parameters, and what the outside world has waiting. -/
def sameSurroundings (s t : State) : Prop :=
  t.cfg = s.cfg ∧ t.dev.bp = s.dev.bp ∧ t.dev.model = s.dev.model ∧ t.hostPort = s.hostPort ∧ t.bench = s.bench

/-- A frame of the bench touches no register of the sequencer and adds nothing to its trace. -/
def sameSequencer (s t : State) : Prop :=
  t.phase = s.phase ∧ t.sel = s.sel ∧ t.op = s.op ∧ t.addr = s.addr ∧ t.len = s.len ∧ t.wbuf = s.wbuf ∧ t.cur = s.cur ∧
    t.run = s.run ∧ t.rem = s.rem ∧ t.idx = s.idx ∧ t.pcnt = s.pcnt ∧ t.sr = s.sr ∧ t.rbuf = s.rbuf ∧ t.err = s.err ∧
    t.trace = s.trace

/-- Every byte of the array reads as before. -/
def sameArray (s t : State) : Prop := ∀ a, Memory.read t.dev.mem a = Memory.read s.dev.mem a

/-- The working registers of the write path (10_state.md R28) but `REM`, and the bench's view, are as before. -/
def sameWritePath (s t : State) : Prop := t.cur = s.cur ∧ t.run = s.run ∧ t.idx = s.idx ∧ t.benchRx = s.benchRx

/-- The command registers hold the command (R27), with `LEN` as `DECODE` leaves it. -/
def holdsCommand (op : HostOp) (addr len : Half) (payload : List Byte) (t : State) : Prop :=
  t.op = hostOpcode op ∧ t.addr = addr ∧ t.len = len ∧ t.wbuf = payload

/-- The operation has responded with `code` and `rdata` (10_state.md R39): `IDLE`, deselected, and what was delivered. -/
def responded (code : Code) (rdata : List Byte) (t : State) : Prop :=
  t.phase = .idle ∧ t.sel = false ∧ t.dev.dsel = false ∧ t.err = code ∧ t.rbuf = rdata

/-- A host command as the descriptor's four values (30_encoding.md R91); a wire frame is none. -/
def hostCommand : Instr → Option (HostOp × Half × Half × List Byte)
  | .wait addr len => some (.wait, addr, len, [])
  | .wren addr len => some (.wren, addr, len, [])
  | .wrbyte addr len v => some (.wrbyte, addr, len, [v])
  | .write addr len data => some (.write, addr, len, data)
  | .rdbyte addr len => some (.rdbyte, addr, len, [])
  | .read addr len => some (.read, addr, len, [])
  | .rdsrFrame _ | .wrenFrame | .writeFrame _ _ | .readFrame _ _ | .wrdiFrame _ | .wrsrFrame _ => none

/-- A host command that reads the array or nothing. -/
def reads : Instr → Bool
  | .wait _ _ | .wren _ _ | .rdbyte _ _ | .read _ _ => true
  | .wrbyte _ _ _ | .write _ _ _ => false
  | .rdsrFrame _ | .wrenFrame | .writeFrame _ _ | .readFrame _ _ | .wrdiFrame _ | .wrsrFrame _ => false

/-- A host command that `DECODE` lets through, in one frame or, under `SPLIT`, in several (42_addressing_engine.md R182 to R184,
R186). -/
def passes (c : Config) : Instr → Bool
  | .wait _ _ | .wren _ _ => true
  | .wrbyte addr _ _ | .rdbyte addr _ | .read addr _ => decide (addr.toNat ≤ lastAddr c)
  | .write addr len _ => decide (addr.toNat ≤ lastAddr c) && (decide (len.toNat ≤ maxRun c addr) || decide (c.spanPolicy = .split))
  | .rdsrFrame _ | .wrenFrame | .writeFrame _ _ | .readFrame _ _ | .wrdiFrame _ | .wrsrFrame _ => false

/-- What the array holds once the frame cut by a failed exchange of `tx` is over, no write cycle running before: a device that goes by
what it has received stores the data bytes it has (60_exceptions.md R220, 20_memory.md R75), with `tx` among them if it has received
that (93_implementation_defined.md U13, U17). -/
def cutArray (s : State) (tx : Byte) : Memory :=
  match s.dev.model.cutFrame, s.dev.fr ++ (if s.dev.model.failedByte = .received then [tx] else []) with
  | .taken, op :: ah :: al :: data =>
    if wireOpOf op = some .write ∧ s.dev.ign = false ∧ s.dev.wel = true then
      storePage s.cfg (deviceAddr s.cfg (joinBytes ah al)) 0 data s.dev.mem
    else s.dev.mem
  | _, _ => s.dev.mem

/-- The phases in which a byte is exchanged (60_exceptions.md R214). -/
def exchangePhase : Phase → Bool
  | .pOp | .pDummy | .eOp | .wOp | .wAh | .wAl | .wData | .rOp | .rAh | .rAl | .rData => true
  | _ => false

/-- A write cycle is running and will not end during the next `n` micro-steps (20_memory.md R71). -/
def busyFor (n : Nat) (d : Device) : Prop :=
  d.wip = true ∧ match d.cycle with
    | none => True
    | some k => n ≤ k

/-- A write cycle is running and never ends: the stuck device of 20_memory.md R72. -/
def stuck (d : Device) : Prop := d.wip = true ∧ d.cycle = none

/-- The operation goes on for `n` more steps, if it has not responded before. -/
def goesOn : Nat → State → Res
  | 0, s => .next s
  | n + 1, s => if s.phase = .idle then .next s else andThen (resume s) (goesOn n)

/-! ### What is sent -/

/-- An event without the byte received, which a trace may leave open (00_scope.md R13: `XFER(tx, -)`). -/
inductive Sent where
  | cmd (op : Byte) (addr len : Half) (payload : List Byte)
  | rsp (code : Code) (rdata : List Byte)
  | delay (us : Nat)
  | sel (csId : Nat)
  | desel (csId : Nat)
  | tx (b : Byte)
  deriving DecidableEq, Repr

/-- An event without the byte received. -/
def sentOf : Event → Sent
  | .cmd op addr len payload => .cmd op addr len payload
  | .rsp code rdata => .rsp code rdata
  | .delay us => .delay us
  | .sel c => .sel c
  | .desel c => .desel c
  | .xfer tx _ => .tx tx

/-- A trace without the bytes received. -/
def sent (trace : List Event) : List Sent := trace.map sentOf

/-- One frame: select, its bytes, deselect (00_scope.md R13). -/
def frameSent (c : Config) (bytes : List Byte) : List Sent := [.sel c.csId] ++ bytes.map .tx ++ [.desel c.csId]

/-- One status read (40_status_poller.md R131, 30_encoding.md R102). -/
def statusSent (c : Config) : List Sent := [.delay c.tPollUs] ++ frameSent c [0x05, c.dummy]

/-- The write-enable procedure (41_command_framer.md R151, 30_encoding.md R103). -/
def enableSent (c : Config) : List Sent := frameSent c [0x06] ++ [.delay c.tWrenUs]

/-- The WRITE frame of a chunk (30_encoding.md R104). -/
def writeSent (c : Config) (addr : Half) (data : List Byte) : List Sent :=
  frameSent c ([0x02, hiByte addr, loByte addr] ++ data)

/-- The READ frame (30_encoding.md R105). -/
def readSent (c : Config) (addr : Half) (n : Nat) : List Sent :=
  frameSent c ([0x03, hiByte addr, loByte addr] ++ List.replicate n c.dummy)

/-- What a READ of `n` bytes at `addr` finds in the array (20_memory.md R69, 41_command_framer.md R159). -/
def readBack (c : Config) (m : Memory) (addr : Half) (n : Nat) : List Byte :=
  (List.range n).map fun j => Memory.read m (readAddr c addr j)

end Sys2Proof.Machine
end

