-- ==== Sys2Proof/Certificates/Slice0/Obligations.lean ====
section
/-! DEFINITION. The statements for the provers, each a Prop. Premises common to many: `gate s = none` (a legal configuration and
unprotected device, spec/70_reset_and_hazards.md R246, spec/20_memory.md R65), `quiet s` (the device answers every exchange, R81),
`goesThrough s` (an operation can start and the device is idle). The device is the reference device or any other that its parameters
allow (spec/93_implementation_defined.md U7, U13, U17; log 18, log 19). Forms that are the model's own throughout: a step is a stretch
of micro-steps `tick` (log 8), the trace is a field (log 25), the moments of the device's own step are counted in micro-steps (log 6),
the transport's coming answers are a list (log 7). -/

open Sys2Proof Sys2Proof.Machine

/-! ### Reset and configuration -/

/-- spec/10_state.md R45, spec/70_reset_and_hazards.md R240: what reset leaves, for every configuration and device. The values of the
registers R45 leaves unspecified are the model's and are not stated. -/
def Obligations.ResetValues : Prop :=
  ∀ (c : Config) (d : Device),
    (State.construct c d).cfg = c ∧ (State.construct c d).phase = .idle ∧ (State.construct c d).sel = false ∧
      (State.construct c d).wbuf = [] ∧ (State.construct c d).rbuf = [] ∧ codeByte (State.construct c d).err = 0x00 ∧
      (State.construct c d).trace = []

/-- spec/00_scope.md R4 to R8 (the defaults), spec/20_memory.md R57 (the device's start), R67, R75 (the reference device), for the reset
state itself. -/
def Obligations.DefaultConfiguration : Prop :=
  State.reset.cfg.pageSize.toNat = 32 ∧ State.reset.cfg.addrSpaceSize.toNat = 4096 ∧ lastAddr State.reset.cfg = 4095 ∧
    State.reset.cfg.spanPolicy = .reject ∧ State.reset.cfg.pollLimit = none ∧ State.reset.cfg.tPollUs = 1 ∧
    State.reset.cfg.tWrenUs = 1 ∧ State.reset.cfg.dummy = 0x00 ∧ State.reset.dev.wel = false ∧ State.reset.dev.bp = 0 ∧
    State.reset.dev.dsel = false ∧ State.reset.dev.fr = [] ∧ State.reset.dev.ign = false ∧
    State.reset.dev.model = ⟨.dropped, .taken, .unchanged⟩

/-- The invariant holds after reset with every legal configuration, every array in canonical form inside the address space and
every device the parameters allow. -/
def Obligations.InvariantAtReset : Prop :=
  Inv State.reset ∧
    ∀ (c : Config) (m : Memory) (wip : Bool) (cycle : Option Nat) (model : DeviceModel),
      configLegal c = true → Memory.wf m = true → memoryInside c m →
      Inv (State.construct c { Device.reset with mem := m, wip := wip, cycle := cycle, model := model })

/-- spec/70_reset_and_hazards.md R246: which configurations are legal, and that a step refuses the others (U8) and a device with
block-protect bits set (spec/20_memory.md R65, U5); where the model refuses is its choice (log 14). -/
def Obligations.LegalConfiguration : Prop :=
  (∀ c : Config, configLegal c = true ↔
    (∃ k, c.pageSize.toNat = 2 ^ k) ∧ (∃ b, b ≤ 16 ∧ c.addrSpaceSize.toNat = 2 ^ b) ∧
      c.pageSize.toNat ≤ c.addrSpaceSize.toNat ∧ 1 ≤ c.tPollUs ∧ 1 ≤ c.tWrenUs ∧ ∀ n, c.pollLimit = some n → 1 ≤ n) ∧
    ∀ s : State,
      (configLegal s.cfg = false → step s = .refused .illegalConfiguration) ∧
      (configLegal s.cfg = true → s.dev.bp ≠ 0 → step s = .refused .blockProtected)

/-! ### Encoding -/

/-- A few descriptors and frames of spec/95_test_vectors.md V-E1 to V-E5, byte by byte. -/
def Obligations.DecodeKnownWords : Prop :=
  decodeHost [0x10, 0xFF, 0xFF, 0xFF, 0xFF] = .instr (.wait 0xFFFF 0xFFFF) [] ∧
    decodeHost [0x11, 0, 0, 0, 0] = .instr (.wren 0 0) [] ∧
    decodeHost [0x12, 0x01, 0x23, 0x00, 0x07, 0xAB] = .instr (.wrbyte 0x0123 7 0xAB) [] ∧
    decodeHost [0x13, 0x00, 0x1E, 0x00, 0x02, 0x11, 0x22] = .instr (.write 0x001E 2 [0x11, 0x22]) [] ∧
    decodeHost [0x14, 0x0F, 0xFF, 0x00, 0x01] = .instr (.rdbyte 0x0FFF 1) [] ∧
    decodeHost [0x15, 0x0F, 0xFE, 0x00, 0x06] = .instr (.read 0x0FFE 6) [] ∧
    decodeFrame [0x05, 0x00] = .instr (.rdsrFrame 0) [] ∧
    decodeFrame [0x06] = .instr .wrenFrame [] ∧
    decodeFrame [0x02, 0x00, 0x1E, 0x11, 0x22] = .instr (.writeFrame 0x001E [0x11, 0x22]) [] ∧
    decodeFrame [0x03, 0x0F, 0xFE, 0, 0] = .instr (.readFrame 0x0FFE [0, 0]) []

/-- spec/30_encoding.md R101: the six opcode values, the WIP bit, and that the first byte of a frame is never another than the
four the table says are emitted. -/
def Obligations.WireOpcodeValues : Prop :=
  wireOpcode .read = 0x03 ∧ wireOpcode .write = 0x02 ∧ wireOpcode .wrdi = 0x04 ∧ wireOpcode .wren = 0x06 ∧
    wireOpcode .rdsr = 0x05 ∧ wireOpcode .wrsr = 0x01 ∧ (∀ o : WireOp, wireOpOf (wireOpcode o) = some o) ∧
    (∀ b : Byte, (statusOf b).wip = true ↔ b &&& 0x01 ≠ 0) ∧
    ∀ s t : State, s.phase = .pOp ∨ s.phase = .eOp ∨ s.phase = .wOp ∨ s.phase = .rOp → tick s = .next t →
      ∃ o r, (o = .rdsr ∨ o = .wren ∨ o = .write ∨ o = .read) ∧ t.trace = s.trace ++ [.xfer (wireOpcode o) r]

/-- spec/60_exceptions.md R210, spec/30_encoding.md R97: the codes, and a response as bytes. -/
def Obligations.ResponseBytes : Prop :=
  codeByte .ok = 0x00 ∧ codeByte .invalidAddress = 0x01 ∧ codeByte .invalidWriteSpan = 0x02 ∧
    codeByte .deviceUnresponsive = 0x03 ∧ codeByte .transportError = 0x04 ∧ codeByte .invalidCommand = 0x05 ∧
    ∀ (e : Code) (bs : List Byte), responseBytes e bs = [codeByte e] ++ bs

/-- spec/20_memory.md R53: where the status register's bits stand in the byte, and that a byte read as a status and written back is
the byte. -/
def Obligations.StatusByteLayout : Prop :=
  (∀ st : Status, (statusByte st).getLsbD 0 = st.wip ∧ (statusByte st).getLsbD 1 = st.wel ∧
    (statusByte st).extractLsb' 2 2 = st.bp ∧ (statusByte st).extractLsb' 4 4 = st.high ∧ statusOf (statusByte st) = st) ∧
    ∀ b : Byte, statusByte (statusOf b) = b

/-- spec/30_encoding.md R91 to R93, R102 to R109: decoding an encoded well-formed instruction gives it back, with whatever follows a
descriptor left over. -/
def Obligations.DecodeEncode : Prop :=
  ∀ i : Instr, i.wf = true →
    (i.isHost = true → ∀ rest, decodeHost (encode i ++ rest) = .instr i rest) ∧
    (i.isHost = false → decodeFrame (encode i) = .instr i [])

/-- The other direction: what decodes is well-formed and encodes to the bytes it was decoded from. -/
def Obligations.EncodeDecode : Prop :=
  ∀ (bs rest : List Byte) (i : Instr),
    (decodeHost bs = .instr i rest → i.wf = true ∧ i.isHost = true ∧ encode i ++ rest = bs) ∧
    (decodeFrame bs = .instr i rest → i.wf = true ∧ i.isHost = false ∧ encode i = bs ∧ rest = [])

/-- spec/30_encoding.md R93: the length of every descriptor, the header's fields and the payload's place. -/
def Obligations.DescriptorLength : Prop :=
  ∀ (addr len : Half) (v : Byte) (data : List Byte), data.length = len.toNat →
    (encode (.wait addr len)).length = 5 ∧ (encode (.wren addr len)).length = 5 ∧
      (encode (.rdbyte addr len)).length = 5 ∧ (encode (.read addr len)).length = 5 ∧
      (encode (.wrbyte addr len v)).length = 6 ∧ (encode (.write addr len data)).length = 5 + len.toNat ∧
      (∀ i, (encode (.write addr len data))[5 + i]? = data[i]?) ∧
      ∀ op rest, hostOpOf op = none →
        decodeHost ([op, hiByte addr, loByte addr, hiByte len, loByte len] ++ rest) = .bad (.reserved op addr len rest)

/-- spec/30_encoding.md R95, spec/60_exceptions.md R215: a reserved opcode's five bytes are taken, nothing is sent to the device, and
the response is `InvalidCommand`. -/
def Obligations.ReservedOpcode : Prop :=
  ∀ (s : State) (op ah al lh ll : Byte) (rest : List Byte), op.toNat < 0x10 ∨ 0x15 < op.toNat →
    gate s = none → s.phase = .idle → s.sel = false → s.bench = [] → s.hostPort = op :: ah :: al :: lh :: ll :: rest →
    ∃ t, step s = .next t ∧ t.phase = .idle ∧ t.sel = false ∧ t.err = .invalidCommand ∧ t.rbuf = [] ∧ t.hostPort = rest ∧
      t.trace = s.trace ++ [.cmd op (ah ++ al) (lh ++ ll) [], .rsp .invalidCommand []] ∧
      t.dev.mem = s.dev.mem ∧ t.dev.fr = s.dev.fr ∧ t.script = s.script

/-! ### The step -/

/-- A step in `IDLE` runs the decoded instruction: with a whole descriptor at the host port the instruction it decodes to
(spec/10_state.md R38), its bytes taken from the port; with a frame on the bench, which comes first (the model's choice, log 12), the
instruction it decodes to, the frame taken from the bench. -/
def Obligations.StepRunsTheDecodedInstruction : Prop :=
  ∀ (s : State) (i : Instr), gate s = none → s.phase = .idle →
    (∀ rest, s.bench = [] → decodeHost s.hostPort = .instr i rest → step s = exec i { s with hostPort := rest }) ∧
    ∀ frame frames, s.bench = frame :: frames → decodeFrame frame = .instr i [] → step s = exec i { s with bench := frames }

/-- spec/60_exceptions.md R233: in `IDLE` with nothing offered the sequencer emits nothing; only the device may move, one turn a step (the model's
choice, log 31). -/
def Obligations.StepIdle : Prop :=
  ∀ s : State, gate s = none → s.phase = .idle → s.bench = [] → s.hostPort = [] →
    step s = .next { s with dev := deviceTurn s.dev }

/-- spec/10_state.md R38: outside `IDLE` a step goes on with the operation in progress, a host command is not accepted, whichever it
is, and a frame of the bench is refused as a second master's (spec/60_exceptions.md R231; refusing is the model's, log 10, 12). -/
def Obligations.NotAcceptedOutsideIdle : Prop :=
  ∀ (s : State) (i : Instr), s.phase ≠ .idle →
    (gate s = none → step s = resume s) ∧ (i.isHost = true → exec i s = resume s) ∧
      (i.isHost = false → exec i s = .refused .secondMaster)

/-- spec/10_state.md R27: the command registers are written when a command is accepted and hold until the next, but for `LEN`, which
`DECODE` forces to 1 or 0 for the operations that ignore it (spec/42_addressing_engine.md R186). -/
def Obligations.CommandRegisters : Prop :=
  (∀ (s : State) (op : Byte) (addr len : Half) (payload : List Byte),
    (accept op addr len payload s).op = op ∧ (accept op addr len payload s).addr = addr ∧
      (accept op addr len payload s).len = len ∧ (accept op addr len payload s).wbuf = payload) ∧
    ∀ s t : State, tick s = .next t →
      t.op = s.op ∧ t.addr = s.addr ∧ t.wbuf = s.wbuf ∧
        t.len = (if s.phase = .decode then
          (match hostOpOf s.op with
            | some .wrbyte => 1
            | some .rdbyte => 1
            | some .wait => 0
            | some .wren => 0
            | some .write => s.len
            | some .read => s.len
            | none => s.len) else s.len)

/-- spec/10_state.md R22: reset takes the configuration, and no step, no instruction and no micro-step changes it. -/
def Obligations.ConfigurationImmutable : Prop :=
  (∀ c d, (State.construct c d).cfg = c) ∧ ∀ s t : State, (step s = .next t → t.cfg = s.cfg) ∧ (∀ i, exec i s = .next t → t.cfg = s.cfg) ∧
    (tick s = .next t → t.cfg = s.cfg)

/-- spec/10_state.md R24, R26, R43: a micro-step emits one event or none, and `sel` changes with `SEL` and `DESEL` and with nothing
else. -/
def Obligations.OneEventPerMicroStep : Prop :=
  ∀ s t : State, tick s = .next t →
    (t.trace = s.trace ∧ t.sel = s.sel) ∨
      ∃ e, t.trace = s.trace ++ [e] ∧ t.sel = (match e with
        | .sel _ => true
        | .desel _ => false
        | .cmd _ _ _ _ => s.sel
        | .rsp _ _ => s.sel
        | .delay _ => s.sel
        | .xfer _ _ => s.sel)

/-- spec/10_state.md R25: the phases a micro-step may lead to; the wait loop exactly while the captured WIP is 1; which procedure
follows the wait by `OP` alone; the data loops while bytes remain. -/
def Obligations.PhaseOrder : Prop :=
  ∀ s t : State, tick s = .next t →
    t.phase ∈ successors s.phase ∧
      (s.phase = .pTest → s.sr.wip = true → t.phase = .pDelay ∨ t.err = .deviceUnresponsive) ∧
      (s.phase = .pTest → s.sr.wip = false → t.phase = (match hostOpOf s.op with
        | some .wait => .resp
        | some .rdbyte => .rSel
        | some .read => .rSel
        | _ => .eSel)) ∧
      (s.phase = .eDelay → t.phase = if hostOpOf s.op = some .wren then .resp else .wSel) ∧
      (s.phase = .wAl → t.err = s.err → t.err ≠ .transportError → t.phase = if s.run = 0 then .wDesel else .wData) ∧
      (s.phase = .rAl → t.err = s.err → t.err ≠ .transportError → t.phase = if s.rem = 0 then .rDesel else .rData) ∧
      (s.phase = .wData → t.err = s.err → t.err ≠ .transportError → t.phase = if t.run = 0 then .wDesel else .wData) ∧
      (s.phase = .rData → t.err = s.err → t.err ≠ .transportError → t.phase = if t.rem = 0 then .rDesel else .rData)

/-- spec/40_status_poller.md R132: the test. Only bit 0 of `SR` is examined: the other fields of `st` are arbitrary. -/
def Obligations.PollTest : Prop :=
  ∀ (s : State) (st : Status), s.phase = .pTest → s.sel = false → s.sr = st →
    (st.wip = false →
      (hostOpOf s.op = some .wait → phaseStep s = .next { s with phase := .resp }) ∧
      (hostOpOf s.op = some .wren ∨ hostOpOf s.op = some .wrbyte ∨ hostOpOf s.op = some .write →
        phaseStep s = .next { s with phase := .eSel }) ∧
      (hostOpOf s.op = some .rdbyte ∨ hostOpOf s.op = some .read → phaseStep s = .next { s with phase := .rSel })) ∧
    (st.wip = true →
      (∀ n, s.cfg.pollLimit = some n → n ≤ s.pcnt + 1 →
        phaseStep s = .next { s with pcnt := s.pcnt + 1, err := .deviceUnresponsive, rbuf := [], phase := .resp }) ∧
      ((∀ n, s.cfg.pollLimit = some n → s.pcnt + 1 < n) →
        phaseStep s = .next { s with pcnt := s.pcnt + 1, phase := .pDelay }))

/-- spec/42_addressing_engine.md R186, R182 to R184: what `DECODE` sets up, in numbers, and what it rejects. -/
def Obligations.DecodeSetsUp : Prop :=
  ∀ s : State, gate s = none → s.phase = .decode → s.sel = false →
    ∃ t, phaseStep s = .next t ∧ t.trace = s.trace ∧ t.dev = s.dev ∧
      (∀ o, hostOpOf s.op = some o → (o = .wait ∨ o = .wren) →
        t.phase = .pDelay ∧ t.pcnt = 0 ∧ t.len = 0 ∧ t.err = s.err) ∧
      (∀ o, hostOpOf s.op = some o → o ≠ .wait → o ≠ .wren → lastAddr s.cfg < s.addr.toNat →
        t.phase = .resp ∧ t.err = .invalidAddress ∧ t.rbuf = [] ∧
          t.len = (if o = .rdbyte ∨ o = .wrbyte then 1 else s.len)) ∧
      (∀ o, hostOpOf s.op = some o → (o = .rdbyte ∨ o = .read) → s.addr.toNat ≤ lastAddr s.cfg →
        t.phase = .pDelay ∧ t.pcnt = 0 ∧ t.rem = t.len ∧ t.len = (if o = .rdbyte then 1 else s.len) ∧ t.err = s.err) ∧
      (∀ o, hostOpOf s.op = some o → (o = .wrbyte ∨ o = .write) → s.addr.toNat ≤ lastAddr s.cfg →
        t.len = (if o = .wrbyte then 1 else s.len) ∧
          (t.len.toNat ≤ s.cfg.pageSize.toNat - s.addr.toNat % s.cfg.pageSize.toNat →
            t.phase = .pDelay ∧ t.pcnt = 0 ∧ t.cur = s.addr ∧ t.run.toNat = t.len.toNat ∧ t.rem = 0 ∧ t.idx = 0 ∧
              t.err = s.err) ∧
          (s.cfg.pageSize.toNat - s.addr.toNat % s.cfg.pageSize.toNat < t.len.toNat → s.cfg.spanPolicy = .reject →
            t.phase = .resp ∧ t.err = .invalidWriteSpan ∧ t.rbuf = []) ∧
          (s.cfg.pageSize.toNat - s.addr.toNat % s.cfg.pageSize.toNat < t.len.toNat → s.cfg.spanPolicy = .split →
            t.phase = .pDelay ∧ t.pcnt = 0 ∧ t.cur = s.addr ∧
              t.run.toNat = s.cfg.pageSize.toNat - s.addr.toNat % s.cfg.pageSize.toNat ∧
              t.rem.toNat = t.len.toNat - t.run.toNat ∧ t.idx = 0 ∧ t.err = s.err)) ∧
      (hostOpOf s.op = none → t.phase = .resp ∧ t.err = .invalidCommand ∧ t.rbuf = [])

/-- spec/42_addressing_engine.md R187: the end of a write, or the next chunk at the base of the same page; `IDX` stays. -/
def Obligations.NextChunk : Prop :=
  ∀ s : State, gate s = none → s.phase = .wNext →
    ∃ t, phaseStep s = .next t ∧ t.trace = s.trace ∧ t.dev = s.dev ∧ t.idx = s.idx ∧ t.err = s.err ∧
      (s.rem = 0 → t.phase = .resp ∧ t.cur = s.cur) ∧
      (s.rem ≠ 0 → t.phase = .pDelay ∧ t.pcnt = 0 ∧ t.cur.toNat = s.cur.toNat - s.cur.toNat % s.cfg.pageSize.toNat ∧
        t.run.toNat = min s.rem.toNat s.cfg.pageSize.toNat ∧ t.rem.toNat = s.rem.toNat - t.run.toNat)

/-- spec/60_exceptions.md R216: `raise`, and how the operation then ends: `DESEL` if chip-select is asserted, then the response. -/
def Obligations.RaiseEnds : Prop :=
  (∀ (e : Code) (s : State),
    raise e s = { s with err := e, rbuf := [], phase := if s.sel = true then .xDesel else .resp }) ∧
    (∀ s t : State, s.phase = .xDesel → phaseStep s = .next t →
      t.phase = .resp ∧ t.sel = false ∧ t.err = s.err ∧ t.rbuf = s.rbuf ∧ t.trace = s.trace ++ [.desel s.cfg.csId]) ∧
    ∀ s : State, s.phase = .resp → phaseStep s = .next { s with trace := s.trace ++ [.rsp s.err s.rbuf], phase := .idle }

/-! ### The host commands: completion and result -/

/-- spec/40_status_poller.md R131, R135: `WAIT` with the device ready: one status read, then `OK`. -/
def Obligations.WaitCompletes : Prop :=
  ∀ (s : State) (addr len : Half), goesThrough s →
    ∃ t, exec (.wait addr len) s = .next t ∧ responded .ok [] t ∧ holdsCommand .wait addr 0 [] t ∧
      sent t.trace = sent s.trace ++ [.cmd 0x10 addr len []] ++ statusSent s.cfg ++ [.rsp .ok []] ∧
      t.pcnt = 0 ∧ t.sr.wip = false ∧ t.sr.wel = s.dev.wel ∧ t.sr.bp = s.dev.bp ∧ t.rem = s.rem ∧
      t.dev.mem = s.dev.mem ∧ t.dev.wip = false ∧ t.dev.wel = s.dev.wel ∧ sameSurroundings s t ∧ sameWritePath s t

/-- spec/41_command_framer.md R151, R152: `WREN` with the device ready: the wait, the write-enable frame and its pause; the device's
latch is set (spec/20_memory.md R70 (a)). -/
def Obligations.WrenCompletes : Prop :=
  ∀ (s : State) (addr len : Half), goesThrough s →
    ∃ t, exec (.wren addr len) s = .next t ∧ responded .ok [] t ∧ holdsCommand .wren addr 0 [] t ∧
      sent t.trace = sent s.trace ++ [.cmd 0x11 addr len []] ++ statusSent s.cfg ++ enableSent s.cfg ++ [.rsp .ok []] ∧
      t.pcnt = 0 ∧ t.sr.wip = false ∧ t.sr.wel = s.dev.wel ∧ t.sr.bp = s.dev.bp ∧ t.rem = s.rem ∧
      t.dev.mem = s.dev.mem ∧ t.dev.wip = false ∧ t.dev.wel = true ∧ sameSurroundings s t ∧ sameWritePath s t

/-- spec/41_command_framer.md R158, R159: `READ` with the device ready: the wait, one READ frame, and the array's bytes from `addr` on,
wrapping at its top (spec/20_memory.md R69); any length, 0 among them (spec/42_addressing_engine.md R191). -/
def Obligations.ReadCompletes : Prop :=
  ∀ (s : State) (addr len : Half), goesThrough s → addr.toNat ≤ lastAddr s.cfg →
    ∃ t, exec (.read addr len) s = .next t ∧ responded .ok (readBack s.cfg s.dev.mem addr len.toNat) t ∧
      holdsCommand .read addr len [] t ∧
      sent t.trace = sent s.trace ++ [.cmd 0x15 addr len []] ++ statusSent s.cfg ++ readSent s.cfg addr len.toNat ++
        [.rsp .ok (readBack s.cfg s.dev.mem addr len.toNat)] ∧
      t.pcnt = 0 ∧ t.sr.wip = false ∧ t.sr.wel = s.dev.wel ∧ t.sr.bp = s.dev.bp ∧ t.rem = 0 ∧
      t.dev.mem = s.dev.mem ∧ t.dev.wip = false ∧ t.dev.wel = s.dev.wel ∧ sameSurroundings s t ∧ sameWritePath s t

/-- spec/41_command_framer.md R160: `RDBYTE` is `READ` of one byte, whatever the descriptor's `len` (spec/30_encoding.md R94). -/
def Obligations.RdbyteCompletes : Prop :=
  ∀ (s : State) (addr len : Half), goesThrough s → configLegal s.cfg = true → addr.toNat ≤ lastAddr s.cfg →
    ∃ t, exec (.rdbyte addr len) s = .next t ∧ responded .ok [Memory.read s.dev.mem addr.toNat] t ∧
      holdsCommand .rdbyte addr 1 [] t ∧
      sent t.trace = sent s.trace ++ [.cmd 0x14 addr len []] ++ statusSent s.cfg ++ readSent s.cfg addr 1 ++
        [.rsp .ok [Memory.read s.dev.mem addr.toNat]] ∧
      t.pcnt = 0 ∧ t.sr.wip = false ∧ t.sr.wel = s.dev.wel ∧ t.sr.bp = s.dev.bp ∧ t.rem = 0 ∧
      t.dev.mem = s.dev.mem ∧ t.dev.wip = false ∧ t.dev.wel = s.dev.wel ∧ sameSurroundings s t ∧ sameWritePath s t

/-- spec/42_addressing_engine.md R188, spec/41_command_framer.md R153, R154: `WRITE` of a payload that fits its page, the device
ready: the wait, the write-enable, one WRITE frame; the bytes stand at `addr` and after it, every other byte as before, and the
response comes while the write cycle may still run, both bits set or both cleared by its end (spec/20_memory.md R70, R71, R77). That the
array shows the bytes already at that response is general knowledge in the spec and a choice of this model (R70, G2; log 17,
DEDUCED). -/
def Obligations.WriteCompletes : Prop :=
  ∀ (s : State) (addr len : Half) (data : List Byte),
    goesThrough s → gate s = none → Memory.wf s.dev.mem = true → data.length = len.toNat → data ≠ [] →
    addr.toNat ≤ lastAddr s.cfg → len.toNat ≤ maxRun s.cfg addr →
    ∃ t, exec (.write addr len data) s = .next t ∧ responded .ok [] t ∧ holdsCommand .write addr len data t ∧
      sent t.trace = sent s.trace ++ [.cmd 0x13 addr len data] ++ statusSent s.cfg ++ enableSent s.cfg ++
        writeSent s.cfg addr data ++ [.rsp .ok []] ∧
      t.pcnt = 0 ∧ t.sr.wip = false ∧ t.cur = addr ∧ t.run = 0 ∧ t.rem = 0 ∧ t.idx = len ∧
      (∀ j, j < data.length → some (Memory.read t.dev.mem (addr.toNat + j)) = data[j]?) ∧
      (∀ a, a < addr.toNat ∨ addr.toNat + data.length ≤ a → Memory.read t.dev.mem a = Memory.read s.dev.mem a) ∧
      t.dev.wel = t.dev.wip ∧ sameSurroundings s t ∧ t.benchRx = s.benchRx

/-- spec/42_addressing_engine.md R189: `WRBYTE` is `WRITE` of one byte, whatever the descriptor's `len`. That the array shows the byte
already at the response is general knowledge in the spec and a choice of this model (spec/20_memory.md R70, G2; log 17, DEDUCED). -/
def Obligations.WrbyteCompletes : Prop :=
  ∀ (s : State) (addr len : Half) (v : Byte),
    goesThrough s → gate s = none → Memory.wf s.dev.mem = true → addr.toNat ≤ lastAddr s.cfg →
    ∃ t, exec (.wrbyte addr len v) s = .next t ∧ responded .ok [] t ∧ holdsCommand .wrbyte addr 1 [v] t ∧
      sent t.trace = sent s.trace ++ [.cmd 0x12 addr len [v]] ++ statusSent s.cfg ++ enableSent s.cfg ++
        writeSent s.cfg addr [v] ++ [.rsp .ok []] ∧
      t.pcnt = 0 ∧ t.sr.wip = false ∧ t.cur = addr ∧ t.run = 0 ∧ t.rem = 0 ∧ t.idx = 1 ∧
      (∀ a, Memory.read t.dev.mem a = if a = addr.toNat then v else Memory.read s.dev.mem a) ∧
      t.dev.wel = t.dev.wip ∧ sameSurroundings s t ∧ t.benchRx = s.benchRx

/-- spec/42_addressing_engine.md R191, spec/20_memory.md R75: `WRITE` of no data sends the three bytes of its frame, and the array
is as before; the reference device then keeps its latch and starts no cycle, another does as its parameter says (U7, log 18). -/
def Obligations.EmptyWriteCompletes : Prop :=
  ∀ (s : State) (addr : Half), goesThrough s → addr.toNat ≤ lastAddr s.cfg →
    ∃ t, exec (.write addr 0 []) s = .next t ∧ responded .ok [] t ∧ holdsCommand .write addr 0 [] t ∧
      sent t.trace = sent s.trace ++ [.cmd 0x13 addr 0 []] ++ statusSent s.cfg ++ enableSent s.cfg ++
        writeSent s.cfg addr [] ++ [.rsp .ok []] ∧
      t.cur = addr ∧ t.run = 0 ∧ t.rem = 0 ∧ t.idx = 0 ∧ t.dev.mem = s.dev.mem ∧
      (s.dev.model.emptyWrite = .unchanged → t.dev.wip = false ∧ t.dev.wel = true) ∧
      (s.dev.model.emptyWrite = .disarming → t.dev.wip = false ∧ t.dev.wel = false) ∧
      (s.dev.model.emptyWrite = .cycling → t.dev.wel = t.dev.wip) ∧
      sameSurroundings s t ∧ t.benchRx = s.benchRx

/-! ### Waiting -/

/-- spec/40_status_poller.md R131, R132, R134: a device that is busy is asked for its status once and nothing else is sent to it; the
operation then waits in `P_DELAY` for another status read. So for every host command that `DECODE` lets through, a split WRITE
among them. -/
def Obligations.BusyDeviceIsWaitedFor : Prop :=
  ∀ (s : State) (i : Instr) (o : HostOp) (addr len : Half) (payload : List Byte),
    gate s = none → s.phase = .idle → s.sel = false → quiet s → busyFor 5 s.dev →
    hostCommand i = some (o, addr, len, payload) → passes s.cfg i = true → (∀ n, s.cfg.pollLimit = some n → 1 < n) →
    ∃ t, exec i s = .next t ∧ t.phase = .pDelay ∧ t.sel = false ∧ t.pcnt = 1 ∧ t.sr.wip = true ∧ t.err = .ok ∧ t.rbuf = [] ∧
      sent t.trace = sent s.trace ++ [.cmd (hostOpcode o) addr len payload] ++ statusSent s.cfg ∧
      t.dev.mem = s.dev.mem ∧ sameSurroundings s t

/-- spec/40_status_poller.md R133: with `POLL_LIMIT = N` a stuck device is read exactly `N` times and the operation ends with
`DeviceUnresponsive`. So for every host command that `DECODE` lets through, a split WRITE among them. -/
def Obligations.StuckDeviceIsReported : Prop :=
  ∀ (s : State) (i : Instr) (o : HostOp) (addr len : Half) (payload : List Byte) (n : Nat),
    gate s = none → s.phase = .idle → s.sel = false → quiet s → stuck s.dev → s.cfg.pollLimit = some n →
    hostCommand i = some (o, addr, len, payload) → passes s.cfg i = true →
    ∃ t, andThen (exec i s) (goesOn (n - 1)) = .next t ∧ responded .deviceUnresponsive [] t ∧
      sent t.trace = sent s.trace ++ [.cmd (hostOpcode o) addr len payload] ++
        (List.replicate n (statusSent s.cfg)).flatten ++ [.rsp .deviceUnresponsive []] ∧
      t.pcnt = n ∧ t.dev.mem = s.dev.mem ∧ t.dev.wip = true ∧ sameSurroundings s t

/-- spec/40_status_poller.md R133, spec/00_scope.md R16: with `POLL_LIMIT = NONE` an operation on a stuck device never responds. So for
every host command that `DECODE` lets through, a split WRITE among them. -/
def Obligations.StuckDeviceHangs : Prop :=
  ∀ (s : State) (i : Instr) (n : Nat),
    gate s = none → s.phase = .idle → s.sel = false → quiet s → stuck s.dev → s.cfg.pollLimit = none →
    i.isHost = true → passes s.cfg i = true →
    ∃ t, andThen (exec i s) (goesOn n) = .next t ∧ t.phase = .pDelay ∧ t.pcnt = n + 1

/-- spec/20_memory.md R72, spec/00_scope.md R16: with `POLL_LIMIT = NONE` and a device whose write cycles end, the one running and those
to come, every operation that `DECODE` lets through responds, and with `OK`, a WRITE under `SPLIT` in several chunks among them. -/
def Obligations.EveryOperationResponds : Prop :=
  ∀ (s : State) (i : Instr),
    gate s = none → s.phase = .idle → s.sel = false → quiet s → s.cfg.pollLimit = none → i.wf = true → passes s.cfg i = true →
    (s.dev.wip = true → s.dev.cycle ≠ none) → (∀ e ∈ s.cycles, e ≠ none) → (encode i).length ≤ s.cycles.length →
    ∃ n t, andThen (exec i s) (goesOn n) = .next t ∧ t.phase = .idle ∧ t.sel = false ∧ t.err = .ok

/-! ### Errors -/

/-- spec/60_exceptions.md R211: an address above `LAST_ADDR` is answered `InvalidAddress`, for each of the four addressed operations,
nothing sent to the device, whatever the payload's length (R218). -/
def Obligations.InvalidAddress : Prop :=
  ∀ (s : State) (i : Instr) (o : HostOp) (addr len : Half) (payload : List Byte),
    s.phase = .idle → s.sel = false → hostCommand i = some (o, addr, len, payload) → o ≠ .wait → o ≠ .wren →
    lastAddr s.cfg < addr.toNat →
    ∃ t, exec i s = .next t ∧ t.phase = .idle ∧ t.sel = false ∧ t.err = .invalidAddress ∧ t.rbuf = [] ∧
      t.trace = s.trace ++ [.cmd (hostOpcode o) addr len payload, .rsp .invalidAddress []] ∧
      t.dev.mem = s.dev.mem ∧ t.dev.fr = s.dev.fr ∧ sameSurroundings s t

/-- spec/60_exceptions.md R212, spec/42_addressing_engine.md R183: a payload longer than `max_run` is answered `InvalidWriteSpan` under
`REJECT`, nothing sent to the device; and no micro-step raises it but `DECODE` of such a WRITE under `REJECT`. -/
def Obligations.InvalidWriteSpan : Prop :=
  (∀ (s : State) (addr len : Half) (data : List Byte),
    s.phase = .idle → s.sel = false → addr.toNat ≤ lastAddr s.cfg → maxRun s.cfg addr < len.toNat →
    s.cfg.spanPolicy = .reject →
    ∃ t, exec (.write addr len data) s = .next t ∧ t.phase = .idle ∧ t.sel = false ∧ t.err = .invalidWriteSpan ∧ t.rbuf = [] ∧
      t.trace = s.trace ++ [.cmd 0x13 addr len data, .rsp .invalidWriteSpan []] ∧
      t.dev.mem = s.dev.mem ∧ t.dev.fr = s.dev.fr ∧ sameSurroundings s t) ∧
    ∀ s t : State, gate s = none → tick s = .next t → t.err = .invalidWriteSpan → s.err ≠ .invalidWriteSpan →
      s.phase = .decode ∧ hostOpOf s.op = some .write ∧ s.addr.toNat ≤ lastAddr s.cfg ∧
        maxRun s.cfg s.addr < s.len.toNat ∧ s.cfg.spanPolicy = .reject

/-- spec/60_exceptions.md R210 to R215: the only micro-steps that change `ERR`, and to which code. -/
def Obligations.ErrorCauses : Prop :=
  ∀ s t : State, tick s = .next t → t.err ≠ s.err →
    (t.err = .invalidCommand ∧ s.phase = .decode ∧ hostOpOf s.op = none) ∨
      (t.err = .invalidAddress ∧ s.phase = .decode ∧ lastAddr s.cfg < s.addr.toNat) ∨
      (t.err = .invalidWriteSpan ∧ s.phase = .decode ∧ s.cfg.spanPolicy = .reject) ∨
      (t.err = .deviceUnresponsive ∧ s.phase = .pTest ∧ s.sr.wip = true ∧ ∃ n, s.cfg.pollLimit = some n ∧ n ≤ s.pcnt + 1) ∨
      (t.err = .transportError ∧ exchangePhase s.phase = true ∧ ∃ b, t.trace = s.trace ++ [.xfer b .err])

/-- spec/60_exceptions.md R214, R216, R219: `ERR` from the transport at any exchange ends the operation: one `DESEL`, then the
response `TransportError` with no data, and the sequencer is idle. The array is then what the cut frame leaves (R220, spec/20_memory.md
R67, R75; for a device other than the reference device by its parameters, U13, U17, log 19). -/
def Obligations.TransportErrorEnds : Prop :=
  ∀ (s : State) (rest : List Answer), Inv s → exchangePhase s.phase = true → s.script = .err :: rest →
    ∃ t b, runStretch 3 s = .next t ∧ responded .transportError [] t ∧
      t.trace = s.trace ++ [.xfer b .err, .desel s.cfg.csId, .rsp .transportError []] ∧
      (s.dev.wip = false → t.dev.mem = cutArray s b)

/-! ### Frames: what is left unchanged -/

/-- The frame of WAIT, WREN, RDBYTE and READ from `IDLE`, for any answers of the transport and however long it waits: the array, the
configuration, the device's parameters, the write path's registers and the outside world's inputs are as before, and the command
registers hold the command. -/
def Obligations.ReadingFrame : Prop :=
  ∀ (s u t : State) (i : Instr) (n : Nat),
    reads i = true → s.phase = .idle → s.sel = false → exec i s = .next u → goesOn n u = .next t →
    sameArray s t ∧ sameSurroundings s t ∧ sameWritePath s t ∧ t.cycles = s.cycles ∧
      (∀ addr len, i = .wait addr len ∨ i = .wren addr len → t.rem = s.rem ∧ t.rbuf = []) ∧
      ∀ o addr len payload, hostCommand i = some (o, addr, len, payload) →
        t.op = hostOpcode o ∧ t.addr = addr ∧ t.wbuf = payload

/-- The frame of WRBYTE and WRITE from `IDLE`, for any answers of the transport and however long it waits: every byte outside the
addresses the device's page counter gives its payload (spec/20_memory.md R62) reads as before, whether the operation completes, is
split or fails halfway (spec/60_exceptions.md R220), whatever the device's parameters; `RBUF` is empty, as accepting the command left
it (spec/10_state.md R31, R38). -/
def Obligations.WritingFrame : Prop :=
  ∀ (s u t : State) (i : Instr) (o : HostOp) (addr len : Half) (payload : List Byte) (n : Nat),
    hostCommand i = some (o, addr, len, payload) → i.wf = true → o = .wrbyte ∨ o = .write →
    gate s = none → s.phase = .idle → s.sel = false → Memory.wf s.dev.mem = true →
    exec i s = .next u → goesOn n u = .next t →
    (∀ a, (∀ j, j < payload.length → a ≠ writeAddr s.cfg (deviceAddr s.cfg addr) j) →
      Memory.read t.dev.mem a = Memory.read s.dev.mem a) ∧
    sameSurroundings s t ∧ t.op = hostOpcode o ∧ t.addr = addr ∧ t.wbuf = payload ∧ t.rbuf = [] ∧ t.benchRx = s.benchRx

/-- The frame of the six wire frames: no register of the sequencer and no event of its trace; the array only by a WRITE frame, and then
only where its data bytes go. -/
def Obligations.WireFrameFrame : Prop :=
  ∀ (s t : State) (i : Instr), i.isHost = false → exec i s = .next t →
    sameSequencer s t ∧ sameSurroundings s t ∧
      ((∀ addr data, i ≠ .writeFrame addr data) → sameArray s t) ∧
      ∀ addr data, i = .writeFrame addr data → Memory.wf s.dev.mem = true →
        ∀ a, (∀ j, j < data.length → a ≠ writeAddr s.cfg (deviceAddr s.cfg addr) j) →
          Memory.read t.dev.mem a = Memory.read s.dev.mem a

/-! ### Whole operations, whatever the device's timing -/

/-- spec/42_addressing_engine.md R188, R184, R189: a WRITE or WRBYTE that is answered `OK`, after any number of busy answers and in any
number of chunks, leaves exactly the array that storing its payload byte by byte with the page's wrap leaves. That the array shows it
already at the response is general knowledge in the spec and a choice of this model (spec/20_memory.md R70, G2; log 17, DEDUCED). -/
def Obligations.WriteStoresItsData : Prop :=
  ∀ (s u t : State) (i : Instr) (o : HostOp) (addr len : Half) (payload : List Byte) (n : Nat),
    hostCommand i = some (o, addr, len, payload) → i.wf = true → o = .wrbyte ∨ o = .write →
    gate s = none → s.phase = .idle → s.sel = false → quiet s →
    exec i s = .next u → goesOn n u = .next t → t.phase = .idle → t.err = .ok →
    t.dev.mem = storePage s.cfg addr.toNat 0 payload s.dev.mem ∧ addr.toNat ≤ lastAddr s.cfg

/-- spec/41_command_framer.md R159, R160, spec/20_memory.md R69, R73: a READ or RDBYTE that is answered `OK`, after any number of busy
answers, returns the array's bytes from its address on. -/
def Obligations.ReadReturnsTheArray : Prop :=
  ∀ (s u t : State) (i : Instr) (o : HostOp) (addr len : Half) (payload : List Byte) (n : Nat),
    hostCommand i = some (o, addr, len, payload) → o = .rdbyte ∨ o = .read →
    s.phase = .idle → s.sel = false → quiet s →
    exec i s = .next u → goesOn n u = .next t → t.phase = .idle → t.err = .ok →
    t.rbuf = readBack s.cfg s.dev.mem addr (if o = .rdbyte then 1 else len.toNat)

/-- spec/20_memory.md R77, spec/40_status_poller.md R130, R134: when WAIT is answered `OK` no write cycle is running; when WREN is, the
latch is set besides. -/
def Obligations.WaitIsAFence : Prop :=
  ∀ (s u t : State) (i : Instr) (addr len : Half) (n : Nat),
    i = .wait addr len ∨ i = .wren addr len → s.phase = .idle → s.sel = false → quiet s →
    exec i s = .next u → goesOn n u = .next t → t.phase = .idle → t.err = .ok →
    t.dev.wip = false ∧ (i = .wren addr len → t.dev.wel = true)

/-- spec/20_memory.md R78, spec/95_test_vectors.md S2: writing `v` to `a` and then reading `a` returns `v`, whatever the device's
timing. -/
def Obligations.RoundTrip : Prop :=
  ∀ (s u t w x : State) (addr len len' : Half) (v : Byte) (m n : Nat),
    gate s = none → s.phase = .idle → s.sel = false → quiet s → Memory.wf s.dev.mem = true →
    exec (.wrbyte addr len v) s = .next u → goesOn m u = .next t → t.phase = .idle → t.err = .ok →
    exec (.rdbyte addr len') t = .next w → goesOn n w = .next x → x.phase = .idle → x.err = .ok →
    x.rbuf = [v]

/-- spec/42_addressing_engine.md R192 (d): a WRITE answered `OK` under `SPLIT`, in however many chunks, leaves the array that one WRITE
frame with all its bytes leaves. That both arrays can be compared at the response and at the frame's deselect is general knowledge in
the spec and a choice of this model (spec/20_memory.md R70, G2; log 17, DEDUCED). -/
def Obligations.SplitEqualsOneFrame : Prop :=
  ∀ (s u t v : State) (addr len : Half) (data : List Byte) (n : Nat),
    gate s = none → s.phase = .idle → s.sel = false → quiet s → s.dev.wip = false → data ≠ [] → data.length = len.toNat →
    s.cfg.spanPolicy = .split →
    exec (.write addr len data) s = .next u → goesOn n u = .next t → t.phase = .idle → t.err = .ok →
    exec (.writeFrame addr data) { s with dev := { s.dev with wel := true } } = .next v →
    t.dev.mem = v.dev.mem

/-! ### The engine's arithmetic and the page -/

/-- spec/42_addressing_engine.md R180: `max_run` and the page base. -/
def Obligations.MaxRun : Prop :=
  ∀ (c : Config) (a : Half), configLegal c = true →
    1 ≤ maxRun c a ∧ maxRun c a ≤ c.pageSize.toNat ∧
      (maxRun c a = c.pageSize.toNat ↔ c.pageSize.toNat ∣ a.toNat) ∧
      (maxRun c a = 1 ↔ c.pageSize.toNat ∣ a.toNat + 1) ∧
      maxRun c a = c.pageSize.toNat - a.toNat % c.pageSize.toNat ∧
      pageBase c a.toNat = a.toNat - a.toNat % c.pageSize.toNat ∧
      (∀ k, c.pageSize.toNat = 2 ^ k → a.toNat % c.pageSize.toNat = (a.extractLsb' 0 k).toNat)

/-- spec/42_addressing_engine.md R192 (a), (b), spec/20_memory.md R62: a run of at most `max_run` bytes stands at consecutive addresses, its
last possible byte at the page's final offset, and the byte after it would land on the page's base. -/
def Obligations.MaxRunNeverWraps : Prop :=
  ∀ (c : Config) (a : Half), configLegal c = true →
    (∀ j, j < maxRun c a → writeAddr c a.toNat j = a.toNat + j) ∧
      writeAddr c a.toNat (maxRun c a - 1) = pageBase c a.toNat + (c.pageSize.toNat - 1) ∧
      writeAddr c a.toNat (maxRun c a) = pageBase c a.toNat

/-- spec/20_memory.md R62: data byte `j` of a WRITE frame stands at `pb + ((off + j) % P)` unless a later byte overwrites it, and no
byte outside the page changes. -/
def Obligations.PageWrap : Prop :=
  ∀ (c : Config) (a : Nat) (data : List Byte) (m : Memory), configLegal c = true → Memory.wf m = true →
    (∀ j b, data[j]? = some b →
      (∀ i, j < i → i < data.length → (a % c.pageSize.toNat + i) % c.pageSize.toNat ≠ (a % c.pageSize.toNat + j) % c.pageSize.toNat) →
      Memory.read (storePage c a 0 data m) (a - a % c.pageSize.toNat + (a % c.pageSize.toNat + j) % c.pageSize.toNat) = b) ∧
    ∀ x, x / c.pageSize.toNat ≠ a / c.pageSize.toNat → Memory.read (storePage c a 0 data m) x = Memory.read m x

/-! ### The device's frames -/

/-- spec/20_memory.md R68: the RDSR frame returns the status bits as they are at its second byte, busy or not, and changes nothing. -/
def Obligations.RdsrFrame : Prop :=
  ∀ (s : State) (dummy : Byte), s.phase = .idle → quiet s → s.dev.wip = false ∨ busyFor 4 s.dev →
    ∃ t r high, exec (.rdsrFrame dummy) s = .next t ∧
      t.benchRx = [.byte r, .status ⟨high, s.dev.bp, s.dev.wel, s.dev.wip⟩] ∧
      t.dev.mem = s.dev.mem ∧ t.dev.wip = s.dev.wip ∧ t.dev.wel = s.dev.wel ∧ t.dev.dsel = false ∧
      t.dev.fr = [0x05, dummy] ∧ sameSequencer s t ∧ sameSurroundings s t

/-- spec/20_memory.md R70 (a): the WREN frame sets the latch at its deselect. -/
def Obligations.WrenFrame : Prop :=
  ∀ s : State, s.phase = .idle → quiet s → s.dev.wip = false →
    ∃ t, exec .wrenFrame s = .next t ∧ t.dev.wel = true ∧ t.dev.wip = false ∧ t.dev.mem = s.dev.mem ∧ t.dev.dsel = false ∧
      sameSequencer s t ∧ sameSurroundings s t

/-- spec/20_memory.md R70 (b), (c), R62, R64, R75: the WRITE frame stores its data with the page's wrap, at the address modulo the array's
size, and starts a write cycle; with the latch clear it changes nothing, and with no data nothing in the array. That the cycle starts at
the deselect and that a clear latch means no change are general knowledge there (G2, G3, log 17); what a frame without data does besides
is the device's parameter, nothing for the reference device (U7, log 18). -/
def Obligations.WriteFrame : Prop :=
  ∀ (s : State) (addr : Half) (data : List Byte), s.phase = .idle → quiet s → s.dev.wip = false → s.dev.bp = 0 →
    ∃ t, exec (.writeFrame addr data) s = .next t ∧ t.dev.dsel = false ∧ sameSequencer s t ∧ sameSurroundings s t ∧
      (s.dev.wel = true → data ≠ [] → t.dev.wip = true ∧ t.dev.wel = true ∧
        t.dev.mem = storePage s.cfg (addr.toNat % s.cfg.addrSpaceSize.toNat) 0 data s.dev.mem) ∧
      (s.dev.wel = false → t.dev.wip = false ∧ t.dev.wel = false ∧ t.dev.mem = s.dev.mem) ∧
      (s.dev.wel = true → data = [] → t.dev.mem = s.dev.mem ∧
        (s.dev.model.emptyWrite = .unchanged → t.dev.wip = false ∧ t.dev.wel = true) ∧
        (s.dev.model.emptyWrite = .disarming → t.dev.wip = false ∧ t.dev.wel = false) ∧
        (s.dev.model.emptyWrite = .cycling → t.dev.wip = true ∧ t.dev.wel = true))

/-- spec/20_memory.md R69: the READ frame returns the array's bytes from its address on, one a byte sent after the address, wrapping at
the top; what is sent there does not matter; nothing changes. -/
def Obligations.ReadFrame : Prop :=
  ∀ (s : State) (addr : Half) (dummies : List Byte), s.phase = .idle → quiet s → s.dev.wip = false →
    ∃ t a b c, exec (.readFrame addr dummies) s = .next t ∧
      t.benchRx = [.byte a, .byte b, .byte c] ++ (readBack s.cfg s.dev.mem addr dummies.length).map .byte ∧
      t.dev.mem = s.dev.mem ∧ t.dev.wip = false ∧ t.dev.wel = s.dev.wel ∧ t.dev.dsel = false ∧
      sameSequencer s t ∧ sameSurroundings s t

/-- spec/20_memory.md R74: the WRDI frame clears the latch (from general knowledge there, G4; log 16); the WRSR frame has no meaning at an
idle device and is refused (U6). -/
def Obligations.UnusedFrames : Prop :=
  ∀ (s : State) (rest : List Byte), s.phase = .idle → quiet s → s.dev.wip = false →
    (∃ t, exec (.wrdiFrame rest) s = .next t ∧ t.dev.wel = false ∧ t.dev.wip = false ∧ t.dev.mem = s.dev.mem ∧
      t.dev.dsel = false ∧ sameSequencer s t ∧ sameSurroundings s t) ∧
    exec (.wrsrFrame rest) s = .refused .writeStatus

/-- spec/20_memory.md R73, R70 (d), R67: a busy device ignores every frame but RDSR: the frame runs and changes nothing. That
this takes in WRSR, which R74 asks a model to refuse, is the model's reading (log 15). -/
def Obligations.BusyDeviceIgnoresFrames : Prop :=
  ∀ (s : State) (i : Instr), s.phase = .idle → quiet s → i.isHost = false → (∀ dummy, i ≠ .rdsrFrame dummy) →
    busyFor ((encode i).length + 2) s.dev →
    ∃ t, exec i s = .next t ∧ t.dev.mem = s.dev.mem ∧ t.dev.wip = true ∧ t.dev.wel = s.dev.wel ∧ t.dev.dsel = false ∧
      t.benchRx.length = (encode i).length ∧ (∀ x ∈ t.benchRx, ∃ b, x = .byte b) ∧ sameSequencer s t ∧ sameSurroundings s t

/-! ### The whole machine -/

/-- spec/10_state.md R33 (a) to (e), spec/42_addressing_engine.md R181, R185, spec/40_status_poller.md R134: from every state that meets
the invariant a micro-step has a next state, and that meets it. -/
def Obligations.MicroStepKeepsInvariant : Prop := ∀ s : State, Inv s → ∃ t, tick s = .next t ∧ Inv t

/-- The same of a step, with whatever the host or the bench has offered. -/
def Obligations.StepKeepsInvariant : Prop := ∀ s t : State, Inv s → step s = .next t → Inv t

/-- spec/60_exceptions.md R219, spec/42_addressing_engine.md R181: the sequencer never halts: with no bench frame waiting, a step from a
state that meets the invariant faults never and refuses nothing. -/
def Obligations.SequencerNeverStops : Prop := ∀ s : State, Inv s → s.bench = [] → ∃ t, step s = .next t

/-- spec/20_memory.md R50, R60: every step, from any state, keeps the array in its canonical form. -/
def Obligations.ArrayStaysCanonical : Prop :=
  ∀ s t : State, Memory.wf s.dev.mem = true →
    (step s = .next t → Memory.wf t.dev.mem = true) ∧ ∀ i, exec i s = .next t → Memory.wf t.dev.mem = true

/-! ### Bulk pseudo-operations -/

/-- spec/43_bulk_pseudo_ops.md R200, R203: when CLEAR_ALL and then DUMP_ALL report `OK`, they report every address, the array reads zero
everywhere and so does what was dumped, whatever the device's timing (the loops' form is the model's, log 29). -/
def Obligations.ClearThenDump : Prop :=
  ∀ (s t u : State) (p q : Nat) (r1 r2 : BulkReport),
    gate s = none → s.phase = .idle → s.sel = false → quiet s → Memory.wf s.dev.mem = true →
    clearAll p s = some (r1, t) → r1.code = .ok → dumpAll q t = some (r2, u) → r2.code = .ok →
    r1.count = s.cfg.addrSpaceSize.toNat ∧ r2.count = s.cfg.addrSpaceSize.toNat ∧
      (∀ a, a < s.cfg.addrSpaceSize.toNat → Memory.read u.dev.mem a = 0x00) ∧
      r2.out = List.replicate s.cfg.addrSpaceSize.toNat 0x00
end

