-- ==== Sys2Proof/Laws/State.lean ====
section
/-! SUPPORT. What each named update of the state does to each field: one lemma a field, true by unfolding, for simp. -/

namespace Sys2Proof.Machine

section
variable (e : Event) (s : State)
@[simp] theorem emit_cfg : (emit e s).cfg = s.cfg := rfl
@[simp] theorem emit_phase : (emit e s).phase = s.phase := rfl
@[simp] theorem emit_sel : (emit e s).sel = s.sel := rfl
@[simp] theorem emit_op : (emit e s).op = s.op := rfl
@[simp] theorem emit_addr : (emit e s).addr = s.addr := rfl
@[simp] theorem emit_len : (emit e s).len = s.len := rfl
@[simp] theorem emit_wbuf : (emit e s).wbuf = s.wbuf := rfl
@[simp] theorem emit_cur : (emit e s).cur = s.cur := rfl
@[simp] theorem emit_run : (emit e s).run = s.run := rfl
@[simp] theorem emit_rem : (emit e s).rem = s.rem := rfl
@[simp] theorem emit_idx : (emit e s).idx = s.idx := rfl
@[simp] theorem emit_pcnt : (emit e s).pcnt = s.pcnt := rfl
@[simp] theorem emit_sr : (emit e s).sr = s.sr := rfl
@[simp] theorem emit_rbuf : (emit e s).rbuf = s.rbuf := rfl
@[simp] theorem emit_err : (emit e s).err = s.err := rfl
@[simp] theorem emit_dev : (emit e s).dev = s.dev := rfl
@[simp] theorem emit_trace : (emit e s).trace = s.trace ++ [e] := rfl
@[simp] theorem emit_hostPort : (emit e s).hostPort = s.hostPort := rfl
@[simp] theorem emit_bench : (emit e s).bench = s.bench := rfl
@[simp] theorem emit_benchRx : (emit e s).benchRx = s.benchRx := rfl
@[simp] theorem emit_script : (emit e s).script = s.script := rfl
@[simp] theorem emit_cycles : (emit e s).cycles = s.cycles := rfl
@[simp] theorem emit_cycleCount : (emit e s).cycleCount = s.cycleCount := rfl
@[simp] theorem emit_draws : (emit e s).draws = s.draws := rfl
end

section
variable (p : Phase) (s : State)
@[simp] theorem goto_cfg : (goto p s).cfg = s.cfg := rfl
@[simp] theorem goto_phase : (goto p s).phase = p := rfl
@[simp] theorem goto_sel : (goto p s).sel = s.sel := rfl
@[simp] theorem goto_op : (goto p s).op = s.op := rfl
@[simp] theorem goto_addr : (goto p s).addr = s.addr := rfl
@[simp] theorem goto_len : (goto p s).len = s.len := rfl
@[simp] theorem goto_wbuf : (goto p s).wbuf = s.wbuf := rfl
@[simp] theorem goto_cur : (goto p s).cur = s.cur := rfl
@[simp] theorem goto_run : (goto p s).run = s.run := rfl
@[simp] theorem goto_rem : (goto p s).rem = s.rem := rfl
@[simp] theorem goto_idx : (goto p s).idx = s.idx := rfl
@[simp] theorem goto_pcnt : (goto p s).pcnt = s.pcnt := rfl
@[simp] theorem goto_sr : (goto p s).sr = s.sr := rfl
@[simp] theorem goto_rbuf : (goto p s).rbuf = s.rbuf := rfl
@[simp] theorem goto_err : (goto p s).err = s.err := rfl
@[simp] theorem goto_dev : (goto p s).dev = s.dev := rfl
@[simp] theorem goto_trace : (goto p s).trace = s.trace := rfl
@[simp] theorem goto_hostPort : (goto p s).hostPort = s.hostPort := rfl
@[simp] theorem goto_bench : (goto p s).bench = s.bench := rfl
@[simp] theorem goto_benchRx : (goto p s).benchRx = s.benchRx := rfl
@[simp] theorem goto_script : (goto p s).script = s.script := rfl
@[simp] theorem goto_cycles : (goto p s).cycles = s.cycles := rfl
@[simp] theorem goto_cycleCount : (goto p s).cycleCount = s.cycleCount := rfl
@[simp] theorem goto_draws : (goto p s).draws = s.draws := rfl
end

section
variable (e : Code) (s : State)
@[simp] theorem raise_cfg : (raise e s).cfg = s.cfg := rfl
@[simp] theorem raise_phase : (raise e s).phase = if s.sel then .xDesel else .resp := rfl
@[simp] theorem raise_sel : (raise e s).sel = s.sel := rfl
@[simp] theorem raise_op : (raise e s).op = s.op := rfl
@[simp] theorem raise_addr : (raise e s).addr = s.addr := rfl
@[simp] theorem raise_len : (raise e s).len = s.len := rfl
@[simp] theorem raise_wbuf : (raise e s).wbuf = s.wbuf := rfl
@[simp] theorem raise_cur : (raise e s).cur = s.cur := rfl
@[simp] theorem raise_run : (raise e s).run = s.run := rfl
@[simp] theorem raise_rem : (raise e s).rem = s.rem := rfl
@[simp] theorem raise_idx : (raise e s).idx = s.idx := rfl
@[simp] theorem raise_pcnt : (raise e s).pcnt = s.pcnt := rfl
@[simp] theorem raise_sr : (raise e s).sr = s.sr := rfl
@[simp] theorem raise_rbuf : (raise e s).rbuf = [] := rfl
@[simp] theorem raise_err : (raise e s).err = e := rfl
@[simp] theorem raise_dev : (raise e s).dev = s.dev := rfl
@[simp] theorem raise_trace : (raise e s).trace = s.trace := rfl
@[simp] theorem raise_hostPort : (raise e s).hostPort = s.hostPort := rfl
@[simp] theorem raise_bench : (raise e s).bench = s.bench := rfl
@[simp] theorem raise_benchRx : (raise e s).benchRx = s.benchRx := rfl
@[simp] theorem raise_script : (raise e s).script = s.script := rfl
@[simp] theorem raise_cycles : (raise e s).cycles = s.cycles := rfl
@[simp] theorem raise_cycleCount : (raise e s).cycleCount = s.cycleCount := rfl
@[simp] theorem raise_draws : (raise e s).draws = s.draws := rfl
end

section
variable (s : State)
@[simp] theorem respond_cfg : (respond s).cfg = s.cfg := rfl
@[simp] theorem respond_phase : (respond s).phase = .idle := rfl
@[simp] theorem respond_sel : (respond s).sel = s.sel := rfl
@[simp] theorem respond_op : (respond s).op = s.op := rfl
@[simp] theorem respond_addr : (respond s).addr = s.addr := rfl
@[simp] theorem respond_len : (respond s).len = s.len := rfl
@[simp] theorem respond_wbuf : (respond s).wbuf = s.wbuf := rfl
@[simp] theorem respond_cur : (respond s).cur = s.cur := rfl
@[simp] theorem respond_run : (respond s).run = s.run := rfl
@[simp] theorem respond_rem : (respond s).rem = s.rem := rfl
@[simp] theorem respond_idx : (respond s).idx = s.idx := rfl
@[simp] theorem respond_pcnt : (respond s).pcnt = s.pcnt := rfl
@[simp] theorem respond_sr : (respond s).sr = s.sr := rfl
@[simp] theorem respond_rbuf : (respond s).rbuf = s.rbuf := rfl
@[simp] theorem respond_err : (respond s).err = s.err := rfl
@[simp] theorem respond_dev : (respond s).dev = s.dev := rfl
@[simp] theorem respond_trace : (respond s).trace = s.trace ++ [.rsp s.err s.rbuf] := rfl
@[simp] theorem respond_hostPort : (respond s).hostPort = s.hostPort := rfl
@[simp] theorem respond_bench : (respond s).bench = s.bench := rfl
@[simp] theorem respond_benchRx : (respond s).benchRx = s.benchRx := rfl
@[simp] theorem respond_script : (respond s).script = s.script := rfl
@[simp] theorem respond_cycles : (respond s).cycles = s.cycles := rfl
@[simp] theorem respond_cycleCount : (respond s).cycleCount = s.cycleCount := rfl
@[simp] theorem respond_draws : (respond s).draws = s.draws := rfl
end

section
variable (op : Byte) (addr len : Half) (payload : List Byte) (s : State)
@[simp] theorem accept_cfg : (accept op addr len payload s).cfg = s.cfg := rfl
@[simp] theorem accept_phase : (accept op addr len payload s).phase = .decode := rfl
@[simp] theorem accept_sel : (accept op addr len payload s).sel = s.sel := rfl
@[simp] theorem accept_op : (accept op addr len payload s).op = op := rfl
@[simp] theorem accept_addr : (accept op addr len payload s).addr = addr := rfl
@[simp] theorem accept_len : (accept op addr len payload s).len = len := rfl
@[simp] theorem accept_wbuf : (accept op addr len payload s).wbuf = payload := rfl
@[simp] theorem accept_cur : (accept op addr len payload s).cur = s.cur := rfl
@[simp] theorem accept_run : (accept op addr len payload s).run = s.run := rfl
@[simp] theorem accept_rem : (accept op addr len payload s).rem = s.rem := rfl
@[simp] theorem accept_idx : (accept op addr len payload s).idx = s.idx := rfl
@[simp] theorem accept_pcnt : (accept op addr len payload s).pcnt = s.pcnt := rfl
@[simp] theorem accept_sr : (accept op addr len payload s).sr = s.sr := rfl
@[simp] theorem accept_rbuf : (accept op addr len payload s).rbuf = [] := rfl
@[simp] theorem accept_err : (accept op addr len payload s).err = .ok := rfl
@[simp] theorem accept_dev : (accept op addr len payload s).dev = s.dev := rfl
@[simp] theorem accept_trace : (accept op addr len payload s).trace = s.trace ++ [.cmd op addr len payload] := rfl
@[simp] theorem accept_hostPort : (accept op addr len payload s).hostPort = s.hostPort := rfl
@[simp] theorem accept_bench : (accept op addr len payload s).bench = s.bench := rfl
@[simp] theorem accept_benchRx : (accept op addr len payload s).benchRx = s.benchRx := rfl
@[simp] theorem accept_script : (accept op addr len payload s).script = s.script := rfl
@[simp] theorem accept_cycles : (accept op addr len payload s).cycles = s.cycles := rfl
@[simp] theorem accept_cycleCount : (accept op addr len payload s).cycleCount = s.cycleCount := rfl
@[simp] theorem accept_draws : (accept op addr len payload s).draws = s.draws := rfl
end

section
variable (s : State)
@[simp] theorem startWait_cfg : (startWait s).cfg = s.cfg := rfl
@[simp] theorem startWait_phase : (startWait s).phase = .pDelay := rfl
@[simp] theorem startWait_sel : (startWait s).sel = s.sel := rfl
@[simp] theorem startWait_op : (startWait s).op = s.op := rfl
@[simp] theorem startWait_addr : (startWait s).addr = s.addr := rfl
@[simp] theorem startWait_len : (startWait s).len = s.len := rfl
@[simp] theorem startWait_wbuf : (startWait s).wbuf = s.wbuf := rfl
@[simp] theorem startWait_cur : (startWait s).cur = s.cur := rfl
@[simp] theorem startWait_run : (startWait s).run = s.run := rfl
@[simp] theorem startWait_rem : (startWait s).rem = s.rem := rfl
@[simp] theorem startWait_idx : (startWait s).idx = s.idx := rfl
@[simp] theorem startWait_pcnt : (startWait s).pcnt = 0 := rfl
@[simp] theorem startWait_sr : (startWait s).sr = s.sr := rfl
@[simp] theorem startWait_rbuf : (startWait s).rbuf = s.rbuf := rfl
@[simp] theorem startWait_err : (startWait s).err = s.err := rfl
@[simp] theorem startWait_dev : (startWait s).dev = s.dev := rfl
@[simp] theorem startWait_trace : (startWait s).trace = s.trace := rfl
@[simp] theorem startWait_hostPort : (startWait s).hostPort = s.hostPort := rfl
@[simp] theorem startWait_bench : (startWait s).bench = s.bench := rfl
@[simp] theorem startWait_benchRx : (startWait s).benchRx = s.benchRx := rfl
@[simp] theorem startWait_script : (startWait s).script = s.script := rfl
@[simp] theorem startWait_cycles : (startWait s).cycles = s.cycles := rfl
@[simp] theorem startWait_cycleCount : (startWait s).cycleCount = s.cycleCount := rfl
@[simp] theorem startWait_draws : (startWait s).draws = s.draws := rfl
end

section
variable (s : State)
@[simp] theorem cycleTick_cfg : (cycleTick s).cfg = s.cfg := rfl
@[simp] theorem cycleTick_phase : (cycleTick s).phase = s.phase := rfl
@[simp] theorem cycleTick_sel : (cycleTick s).sel = s.sel := rfl
@[simp] theorem cycleTick_op : (cycleTick s).op = s.op := rfl
@[simp] theorem cycleTick_addr : (cycleTick s).addr = s.addr := rfl
@[simp] theorem cycleTick_len : (cycleTick s).len = s.len := rfl
@[simp] theorem cycleTick_wbuf : (cycleTick s).wbuf = s.wbuf := rfl
@[simp] theorem cycleTick_cur : (cycleTick s).cur = s.cur := rfl
@[simp] theorem cycleTick_run : (cycleTick s).run = s.run := rfl
@[simp] theorem cycleTick_rem : (cycleTick s).rem = s.rem := rfl
@[simp] theorem cycleTick_idx : (cycleTick s).idx = s.idx := rfl
@[simp] theorem cycleTick_pcnt : (cycleTick s).pcnt = s.pcnt := rfl
@[simp] theorem cycleTick_sr : (cycleTick s).sr = s.sr := rfl
@[simp] theorem cycleTick_rbuf : (cycleTick s).rbuf = s.rbuf := rfl
@[simp] theorem cycleTick_err : (cycleTick s).err = s.err := rfl
@[simp] theorem cycleTick_dev : (cycleTick s).dev = deviceTurn s.dev := rfl
@[simp] theorem cycleTick_trace : (cycleTick s).trace = s.trace := rfl
@[simp] theorem cycleTick_hostPort : (cycleTick s).hostPort = s.hostPort := rfl
@[simp] theorem cycleTick_bench : (cycleTick s).bench = s.bench := rfl
@[simp] theorem cycleTick_benchRx : (cycleTick s).benchRx = s.benchRx := rfl
@[simp] theorem cycleTick_script : (cycleTick s).script = s.script := rfl
@[simp] theorem cycleTick_cycles : (cycleTick s).cycles = s.cycles := rfl
@[simp] theorem cycleTick_cycleCount : (cycleTick s).cycleCount = s.cycleCount := rfl
@[simp] theorem cycleTick_draws : (cycleTick s).draws = s.draws := rfl
end

section
variable (s : State)
@[simp] theorem deviceSelect_cfg : (deviceSelect s).cfg = s.cfg := rfl
@[simp] theorem deviceSelect_phase : (deviceSelect s).phase = s.phase := rfl
@[simp] theorem deviceSelect_sel : (deviceSelect s).sel = s.sel := rfl
@[simp] theorem deviceSelect_op : (deviceSelect s).op = s.op := rfl
@[simp] theorem deviceSelect_addr : (deviceSelect s).addr = s.addr := rfl
@[simp] theorem deviceSelect_len : (deviceSelect s).len = s.len := rfl
@[simp] theorem deviceSelect_wbuf : (deviceSelect s).wbuf = s.wbuf := rfl
@[simp] theorem deviceSelect_cur : (deviceSelect s).cur = s.cur := rfl
@[simp] theorem deviceSelect_run : (deviceSelect s).run = s.run := rfl
@[simp] theorem deviceSelect_rem : (deviceSelect s).rem = s.rem := rfl
@[simp] theorem deviceSelect_idx : (deviceSelect s).idx = s.idx := rfl
@[simp] theorem deviceSelect_pcnt : (deviceSelect s).pcnt = s.pcnt := rfl
@[simp] theorem deviceSelect_sr : (deviceSelect s).sr = s.sr := rfl
@[simp] theorem deviceSelect_rbuf : (deviceSelect s).rbuf = s.rbuf := rfl
@[simp] theorem deviceSelect_err : (deviceSelect s).err = s.err := rfl
@[simp] theorem deviceSelect_dev : (deviceSelect s).dev = { s.dev with dsel := true, fr := [], ign := false } := rfl
@[simp] theorem deviceSelect_trace : (deviceSelect s).trace = s.trace := rfl
@[simp] theorem deviceSelect_hostPort : (deviceSelect s).hostPort = s.hostPort := rfl
@[simp] theorem deviceSelect_bench : (deviceSelect s).bench = s.bench := rfl
@[simp] theorem deviceSelect_benchRx : (deviceSelect s).benchRx = s.benchRx := rfl
@[simp] theorem deviceSelect_script : (deviceSelect s).script = s.script := rfl
@[simp] theorem deviceSelect_cycles : (deviceSelect s).cycles = s.cycles := rfl
@[simp] theorem deviceSelect_cycleCount : (deviceSelect s).cycleCount = s.cycleCount := rfl
@[simp] theorem deviceSelect_draws : (deviceSelect s).draws = s.draws := rfl
end

section
variable (n : Nat) (p : Phase) (s : State)
@[simp] theorem doDelay_cfg : (doDelay n p s).cfg = s.cfg := rfl
@[simp] theorem doDelay_phase : (doDelay n p s).phase = p := rfl
@[simp] theorem doDelay_sel : (doDelay n p s).sel = s.sel := rfl
@[simp] theorem doDelay_op : (doDelay n p s).op = s.op := rfl
@[simp] theorem doDelay_addr : (doDelay n p s).addr = s.addr := rfl
@[simp] theorem doDelay_len : (doDelay n p s).len = s.len := rfl
@[simp] theorem doDelay_wbuf : (doDelay n p s).wbuf = s.wbuf := rfl
@[simp] theorem doDelay_cur : (doDelay n p s).cur = s.cur := rfl
@[simp] theorem doDelay_run : (doDelay n p s).run = s.run := rfl
@[simp] theorem doDelay_rem : (doDelay n p s).rem = s.rem := rfl
@[simp] theorem doDelay_idx : (doDelay n p s).idx = s.idx := rfl
@[simp] theorem doDelay_pcnt : (doDelay n p s).pcnt = s.pcnt := rfl
@[simp] theorem doDelay_sr : (doDelay n p s).sr = s.sr := rfl
@[simp] theorem doDelay_rbuf : (doDelay n p s).rbuf = s.rbuf := rfl
@[simp] theorem doDelay_err : (doDelay n p s).err = s.err := rfl
@[simp] theorem doDelay_dev : (doDelay n p s).dev = s.dev := rfl
@[simp] theorem doDelay_trace : (doDelay n p s).trace = s.trace ++ [.delay n] := rfl
@[simp] theorem doDelay_hostPort : (doDelay n p s).hostPort = s.hostPort := rfl
@[simp] theorem doDelay_bench : (doDelay n p s).bench = s.bench := rfl
@[simp] theorem doDelay_benchRx : (doDelay n p s).benchRx = s.benchRx := rfl
@[simp] theorem doDelay_script : (doDelay n p s).script = s.script := rfl
@[simp] theorem doDelay_cycles : (doDelay n p s).cycles = s.cycles := rfl
@[simp] theorem doDelay_cycleCount : (doDelay n p s).cycleCount = s.cycleCount := rfl
@[simp] theorem doDelay_draws : (doDelay n p s).draws = s.draws := rfl
end

section
variable (p : Phase) (s : State)
@[simp] theorem doSelect_cfg : (doSelect p s).cfg = s.cfg := rfl
@[simp] theorem doSelect_phase : (doSelect p s).phase = p := rfl
@[simp] theorem doSelect_sel : (doSelect p s).sel = true := rfl
@[simp] theorem doSelect_op : (doSelect p s).op = s.op := rfl
@[simp] theorem doSelect_addr : (doSelect p s).addr = s.addr := rfl
@[simp] theorem doSelect_len : (doSelect p s).len = s.len := rfl
@[simp] theorem doSelect_wbuf : (doSelect p s).wbuf = s.wbuf := rfl
@[simp] theorem doSelect_cur : (doSelect p s).cur = s.cur := rfl
@[simp] theorem doSelect_run : (doSelect p s).run = s.run := rfl
@[simp] theorem doSelect_rem : (doSelect p s).rem = s.rem := rfl
@[simp] theorem doSelect_idx : (doSelect p s).idx = s.idx := rfl
@[simp] theorem doSelect_pcnt : (doSelect p s).pcnt = s.pcnt := rfl
@[simp] theorem doSelect_sr : (doSelect p s).sr = s.sr := rfl
@[simp] theorem doSelect_rbuf : (doSelect p s).rbuf = s.rbuf := rfl
@[simp] theorem doSelect_err : (doSelect p s).err = s.err := rfl
@[simp] theorem doSelect_dev : (doSelect p s).dev = { s.dev with dsel := true, fr := [], ign := false } := rfl
@[simp] theorem doSelect_trace : (doSelect p s).trace = s.trace ++ [.sel s.cfg.csId] := rfl
@[simp] theorem doSelect_hostPort : (doSelect p s).hostPort = s.hostPort := rfl
@[simp] theorem doSelect_bench : (doSelect p s).bench = s.bench := rfl
@[simp] theorem doSelect_benchRx : (doSelect p s).benchRx = s.benchRx := rfl
@[simp] theorem doSelect_script : (doSelect p s).script = s.script := rfl
@[simp] theorem doSelect_cycles : (doSelect p s).cycles = s.cycles := rfl
@[simp] theorem doSelect_cycleCount : (doSelect p s).cycleCount = s.cycleCount := rfl
@[simp] theorem doSelect_draws : (doSelect p s).draws = s.draws := rfl
end

end Sys2Proof.Machine
end

