-- ==== Sys2Proof/Laws/Exchange.lean ====
section
/-! SUPPORT. What one exchange, one select and one deselect can do, said once. -/

namespace Sys2Proof.Machine

/-- An answer of the device is never `ERR`. -/
theorem deviceAnswer_ne_err (c : Config) (d : Device) (n : Nat) : (deviceAnswer c d n).1 ≠ .err := by
  unfold deviceAnswer drawByte drawStatus
  repeat' split
  all_goals simp

/-- A byte the device takes changes its frame and whether it ignores it, nothing else. -/
theorem deviceTake_eq (tx : Byte) (d : Device) :
    ∃ fr ign, deviceTake tx d = { d with fr := fr, ign := ign } ∧ (fr = d.fr ∨ fr = d.fr ++ [tx]) := by
  unfold deviceTake
  split
  · exact ⟨_, _, rfl, .inr rfl⟩
  · exact ⟨d.fr, d.ign, rfl, .inl rfl⟩

/-- A cut frame changes whether the device ignores it, and the latch at most. -/
theorem deviceCut_eq (d : Device) : ∃ ign wel, deviceCut d = { d with ign := ign, wel := wel } := by
  unfold deviceCut
  split
  · exact ⟨d.ign, d.wel, rfl⟩
  · exact ⟨true, d.wel, rfl⟩
  · exact ⟨true, _, rfl⟩

/-- A failed exchange at any device: its frame is as before or has one byte more; `ign` and the latch may change, nothing else. -/
theorem deviceFail_eq (tx : Byte) (d : Device) :
    ∃ fr ign wel, deviceFail tx d = { d with fr := fr, ign := ign, wel := wel } ∧ (fr = d.fr ∨ fr = d.fr ++ [tx]) := by
  unfold deviceFail
  split
  · split
    · obtain ⟨ign, wel, e⟩ := deviceCut_eq d
      exact ⟨d.fr, ign, wel, by rw [e], .inl rfl⟩
    · obtain ⟨fr, ign, e, h⟩ := deviceTake_eq tx d
      obtain ⟨ign', wel, e'⟩ := deviceCut_eq (deviceTake tx d)
      exact ⟨fr, ign', wel, by rw [e', e], h⟩
  · exact ⟨d.fr, d.ign, d.wel, rfl, .inl rfl⟩

/-- One exchange: either `ERR` with a failed exchange at the device, or a byte with the device having taken `tx`. -/
theorem transfer_cases (tx : Byte) (s : State) :
    transfer tx s = (.err, { s with dev := deviceFail tx s.dev, script := s.script.tail }) ∨
      ∃ r d, r ≠ .err ∧
        transfer tx s = (r, { s with dev := deviceTake tx s.dev, script := s.script.tail, draws := d }) := by
  unfold transfer
  simp only
  split
  · exact .inr ⟨_, _, deviceAnswer_ne_err _ _ _, rfl⟩
  · exact .inr ⟨_, _, deviceAnswer_ne_err _ _ _, rfl⟩
  · next b _ => exact .inr ⟨.byte b, _, by simp, rfl⟩
  · exact .inl rfl

/-- With the device answering, one exchange is the device's own. -/
theorem transfer_quiet {s : State} (h : quiet s) (tx : Byte) :
    transfer tx s = ((deviceAnswer s.cfg s.dev s.draws).1,
      { s with dev := deviceTake tx s.dev, script := s.script.tail, draws := (deviceAnswer s.cfg s.dev s.draws).2 }) := by
  unfold transfer
  simp only
  unfold quiet at h
  cases e : s.script with
  | nil => rfl
  | cons a rest =>
    rw [e] at h
    rw [h a List.mem_cons_self]
    rfl

theorem quiet_tail {s t : State} (h : quiet s) (e : t.script = s.script.tail) : quiet t := by
  intro a ha
  rw [e] at ha
  exact h a (List.mem_of_mem_tail ha)

/-- The same with the event the sequencer emits. -/
theorem exchange_cases (tx : Byte) (s : State) :
    exchange tx s =
        (.err, { s with dev := deviceFail tx s.dev, script := s.script.tail, trace := s.trace ++ [.xfer tx .err] }) ∨
      ∃ r d, r ≠ .err ∧ exchange tx s =
        (r, { s with dev := deviceTake tx s.dev, script := s.script.tail, draws := d, trace := s.trace ++ [.xfer tx r] }) := by
  unfold exchange emit
  obtain h | ⟨r, d, hr, h⟩ := transfer_cases tx s
  · exact .inl (by rw [h])
  · exact .inr ⟨r, d, hr, by rw [h]⟩

/-- Sending a byte: on `ERR` the raise of 60_exceptions.md R216, otherwise the next phase. -/
theorem sendByte_cases (tx : Byte) (p : Phase) (s : State) :
    sendByte tx p s =
        raise .transportError
          { s with dev := deviceFail tx s.dev, script := s.script.tail, trace := s.trace ++ [.xfer tx .err] } ∨
      ∃ r d, r ≠ .err ∧ sendByte tx p s =
        { s with dev := deviceTake tx s.dev, script := s.script.tail, draws := d, trace := s.trace ++ [.xfer tx r], phase := p } := by
  unfold sendByte
  obtain h | ⟨r, d, hr, h⟩ := exchange_cases tx s
  · exact .inl (by rw [h])
  · refine .inr ⟨r, d, hr, ?_⟩
    rw [h]
    cases r with
    | byte b => rfl
    | status st => rfl
    | err => exact absurd rfl hr

/-- What a starting write cycle changes: `wip`, and the model's schedule (log 6). -/
theorem startCycle_eq (s : State) : ∃ c cs n,
    startCycle s = { s with dev := { s.dev with wip := true, cycle := c }, cycles := cs, cycleCount := n } := by
  unfold startCycle
  split
  · exact ⟨_, _, s.cycleCount, rfl⟩
  · exact ⟨_, s.cycles, _, rfl⟩

/-- A deselect that answers: nothing but `dsel`, `wel`, the array and the write cycle can change (20_memory.md R70, R74), and a write
cycle that stores nothing is that of a frame without data (U7). -/
theorem deviceDeselect_cases {s t : State} (h : deviceDeselect s = .next t) :
    (∃ w, t = { s with dev := { s.dev with dsel := false, wel := w } }) ∨
      (∃ op ah al c cs n, s.dev.fr = [op, ah, al] ∧ wireOpOf op = some .write ∧ s.dev.model.emptyWrite = .cycling ∧
        t = { s with dev := { s.dev with dsel := false, wip := true, cycle := c }, cycles := cs, cycleCount := n }) ∨
      ∃ op ah al b bs c cs n, s.dev.fr = op :: ah :: al :: b :: bs ∧ wireOpOf op = some .write ∧ s.dev.ign = false ∧
        s.dev.wel = true ∧ s.dev.bp = 0 ∧
        t = { s with
          dev := { s.dev with
            dsel := false, wip := true, cycle := c,
            mem := storePage s.cfg (deviceAddr s.cfg (joinBytes ah al)) 0 (b :: bs) s.dev.mem }
          cycles := cs, cycleCount := n } := by
  unfold deviceDeselect at h
  simp only at h
  split at h
  · exact .inl ⟨s.dev.wel, by simpa using h.symm⟩
  next ign =>
  split at h
  · exact .inl ⟨s.dev.wel, by simpa using h.symm⟩
  next op rest fr =>
  split at h
  · split at h
    · exact .inl ⟨true, by simpa using h.symm⟩
    · exact .inl ⟨s.dev.wel, by simpa using h.symm⟩
  · next wop =>
    unfold commitWrite at h
    split at h
    · next ah al b bs =>
      split at h
      · next wel =>
        split at h
        · next bp =>
          simp only [Host.Outcome.next.injEq] at h
          obtain ⟨c, cs, n, e⟩ := startCycle_eq { s with
            dev := { s.dev with
              dsel := false, mem := storePage s.cfg (deviceAddr s.cfg (joinBytes ah al)) 0 (b :: bs) s.dev.mem } }
          exact .inr (.inr ⟨op, ah, al, b, bs, c, cs, n, fr, wop, by simpa using ign, wel, bp, h.symm.trans e⟩)
        · exact absurd h (by simp)
      · exact .inl ⟨s.dev.wel, by simpa using h.symm⟩
    · next ah al =>
      split at h
      · simp only [Host.Outcome.next.injEq] at h
        unfold commitEmpty at h
        split at h
        · exact .inl ⟨s.dev.wel, h.symm⟩
        · exact .inl ⟨false, h.symm⟩
        · next m =>
          obtain ⟨c, cs, n, e⟩ := startCycle_eq { s with dev := { s.dev with dsel := false } }
          exact .inr (.inl ⟨op, ah, al, c, cs, n, fr, wop, m, h.symm.trans e⟩)
      · exact .inl ⟨s.dev.wel, by simpa using h.symm⟩
    · exact .inl ⟨s.dev.wel, by simpa using h.symm⟩
  · exact .inl ⟨s.dev.wel, by simpa using h.symm⟩
  · exact .inl ⟨s.dev.wel, by simpa using h.symm⟩
  · exact .inl ⟨false, by simpa using h.symm⟩
  · exact absurd h (by simp)
  · exact absurd h (by simp)

/-- The sequencer's deselect: the device's, then the event (10_state.md R40, R26). -/
theorem doDeselect_cases {p : Phase} {s t : State} (h : doDeselect p s = .next t) :
    ∃ u, deviceDeselect s = .next u ∧ t = { u with trace := u.trace ++ [.desel u.cfg.csId], sel := false, phase := p } := by
  unfold doDeselect andThen at h
  split at h
  · next u e => exact ⟨u, e, by simpa [goto, emit] using h.symm⟩
  · exact absurd h (by simp)
  · exact absurd h (by simp)

theorem deviceTurn_idle {d : Device} (h : d.wip = false) : deviceTurn d = d := by
  cases d
  simp only at h
  subst h
  simp [deviceTurn, cycleEnds]

theorem cycleTick_idle {s : State} (h : s.dev.wip = false) : cycleTick s = s := by
  rw [cycleTick, deviceTurn_idle h]

end Sys2Proof.Machine
end

