-- ==== Sys2Proof/Laws/Memory.lean ====
section
/-! SUPPORT. The laws of the array: read after write, and that every operation keeps the canonical form. -/

namespace Sys2Proof.Machine

theorem Memory.wfFrom_mono {m : Memory} {lo hi : Nat} (h : Memory.wfFrom hi m = true) (le : lo ≤ hi) :
    Memory.wfFrom lo m = true := by
  cases m with
  | nil => rfl
  | cons x m =>
    obtain ⟨b, v⟩ := x
    simp only [Memory.wfFrom, Bool.and_eq_true, decide_eq_true_eq] at h ⊢
    exact ⟨⟨le_trans le h.1.1, h.1.2⟩, h.2⟩

/-- Below a canonical list's first address every byte is unlisted. -/
theorem Memory.read_below {m : Memory} {lo a : Nat} (h : Memory.wfFrom lo m = true) (lt : a < lo) :
    Memory.read m a = Memory.unlisted := by
  induction m generalizing lo with
  | nil => rfl
  | cons x m ih =>
    obtain ⟨b, v⟩ := x
    simp only [Memory.wfFrom, Bool.and_eq_true, decide_eq_true_eq] at h
    rw [Memory.read, if_neg (by omega)]
    exact ih h.2 (by omega)

/-- Read after write, at the same address and at every other. -/
theorem Memory.read_write {m : Memory} {lo : Nat} (h : Memory.wfFrom lo m = true) (a : Nat) (v : Byte) (x : Nat) :
    Memory.read (Memory.write m a v) x = if x = a then v else Memory.read m x := by
  induction m generalizing lo with
  | nil =>
    by_cases hv : v = Memory.unlisted
    · simp [Memory.write, Memory.read, hv]
    · simp [Memory.write, Memory.read, hv]
  | cons y m ih =>
    obtain ⟨b, w⟩ := y
    have h' := h
    simp only [Memory.wfFrom, Bool.and_eq_true, decide_eq_true_eq] at h
    have ih := ih h.2
    by_cases hab : a < b
    · have below : Memory.read ((b, w) :: m) a = Memory.unlisted :=
        Memory.read_below (lo := b) (m := (b, w) :: m)
          (by simp only [Memory.wfFrom, Bool.and_eq_true, decide_eq_true_eq]; exact ⟨⟨le_refl b, h.1.2⟩, h.2⟩) hab
      by_cases hv : v = Memory.unlisted
      · rw [Memory.write, if_pos hab, if_pos hv]
        by_cases hx : x = a
        · rw [if_pos hx, hx, below, hv]
        · rw [if_neg hx]
      · rw [Memory.write, if_pos hab, if_neg hv, Memory.read]
    · by_cases hb : a = b
      · subst hb
        by_cases hv : v = Memory.unlisted
        · rw [Memory.write, if_neg hab, if_pos rfl, if_pos hv]
          by_cases hx : x = a
          · rw [if_pos hx, hx, hv]
            exact Memory.read_below h.2 (Nat.lt_succ_self a)
          · rw [if_neg hx, Memory.read, if_neg hx]
        · rw [Memory.write, if_neg hab, if_pos rfl, if_neg hv, Memory.read, Memory.read]
          by_cases hx : x = a <;> simp [hx]
      · rw [Memory.write, if_neg hab, if_neg hb, Memory.read, Memory.read, ih]
        by_cases hx : x = b
        · have : x ≠ a := fun e => hb (e ▸ hx)
          simp [hx, Ne.symm hb]
        · simp [hx]

theorem Memory.write_wfFrom {m : Memory} {lo : Nat} (h : Memory.wfFrom lo m = true) (a : Nat) (v : Byte) (le : lo ≤ a) :
    Memory.wfFrom lo (Memory.write m a v) = true := by
  induction m generalizing lo with
  | nil =>
    by_cases hv : v = Memory.unlisted
    · rw [Memory.write, if_pos hv]; rfl
    · simp [Memory.write, Memory.wfFrom, hv, le]
  | cons y m ih =>
    obtain ⟨b, w⟩ := y
    have h' := h
    simp only [Memory.wfFrom, Bool.and_eq_true, decide_eq_true_eq] at h
    by_cases hab : a < b
    · by_cases hv : v = Memory.unlisted
      · rw [Memory.write, if_pos hab, if_pos hv]; exact h'
      · rw [Memory.write, if_pos hab, if_neg hv]
        simp only [Memory.wfFrom, Bool.and_eq_true, decide_eq_true_eq]
        exact ⟨⟨le, hv⟩, ⟨hab, h.1.2⟩, h.2⟩
    · by_cases hb : a = b
      · subst hb
        by_cases hv : v = Memory.unlisted
        · rw [Memory.write, if_neg hab, if_pos rfl, if_pos hv]
          exact Memory.wfFrom_mono h.2 (by omega)
        · rw [Memory.write, if_neg hab, if_pos rfl, if_neg hv]
          simp only [Memory.wfFrom, Bool.and_eq_true, decide_eq_true_eq]
          exact ⟨⟨le, hv⟩, h.2⟩
      · rw [Memory.write, if_neg hab, if_neg hb]
        simp only [Memory.wfFrom, Bool.and_eq_true, decide_eq_true_eq]
        exact ⟨⟨h.1.1, h.1.2⟩, ih h.2 (by omega)⟩

/-- A write keeps the canonical form. -/
theorem Memory.write_wf {m : Memory} (h : Memory.wf m = true) (a : Nat) (v : Byte) :
    Memory.wf (Memory.write m a v) = true :=
  Memory.write_wfFrom h a v (Nat.zero_le a)

/-- Every entry after a write is the written one or was there before. -/
theorem Memory.mem_write {m : Memory} {a : Nat} {v : Byte} {x : Host.Cell} (h : x ∈ Memory.write m a v) :
    x.1 = a ∨ x ∈ m := by
  induction m with
  | nil =>
    by_cases hv : v = Memory.unlisted
    · simp [Memory.write, hv] at h
    · simp [Memory.write, hv] at h
      exact .inl (by rw [h])
  | cons y m ih =>
    obtain ⟨b, w⟩ := y
    rw [Memory.write] at h
    split at h
    · split at h
      · exact .inr h
      · rcases List.mem_cons.1 h with e | h
        · exact .inl (by rw [e])
        · exact .inr h
    · split at h
      · split at h
        · exact .inr (List.mem_cons_of_mem _ h)
        · rcases List.mem_cons.1 h with e | h
          · exact .inl (by rw [e])
          · exact .inr (List.mem_cons_of_mem _ h)
      · rcases List.mem_cons.1 h with e | h
        · exact .inr (e ▸ List.mem_cons_self)
        · exact (ih h).imp_right (List.mem_cons_of_mem _)

/-- Storing a frame's data keeps the canonical form. -/
theorem storePage_wf (c : Config) (a j : Nat) (bs : List Byte) {m : Memory} (h : Memory.wf m = true) :
    Memory.wf (storePage c a j bs m) = true := by
  induction bs generalizing j m with
  | nil => exact h
  | cons b bs ih => exact ih (j + 1) (Memory.write_wf h _ b)

/-- A byte outside the addresses a frame's data go to is left alone. -/
theorem storePage_read_other (c : Config) (a j : Nat) (bs : List Byte) {m : Memory} (h : Memory.wf m = true) (x : Nat)
    (out : ∀ i, i < bs.length → x ≠ writeAddr c a (j + i)) :
    Memory.read (storePage c a j bs m) x = Memory.read m x := by
  induction bs generalizing j m with
  | nil => rfl
  | cons b bs ih =>
    rw [storePage, ih (j + 1) (Memory.write_wf h _ b), Memory.read_write h, if_neg (by simpa using out 0 (by simp))]
    intro i hi
    have := out (i + 1) (by simpa using hi)
    rwa [show j + (i + 1) = j + 1 + i by omega] at this

/-- Storing two runs of data one after the other is storing them together. -/
theorem storePage_append (c : Config) (a j : Nat) (bs cs : List Byte) (m : Memory) :
    storePage c a j (bs ++ cs) m = storePage c a (j + bs.length) cs (storePage c a j bs m) := by
  induction bs generalizing j m with
  | nil => rfl
  | cons b bs ih =>
    simp only [List.cons_append, storePage, ih, List.length_cons]
    rw [show j + 1 + bs.length = j + (bs.length + 1) by omega]

end Sys2Proof.Machine
end

