-- ==== Sys2Proof/Laws/Micro.lean ====
section
/-! SUPPORT. What any micro-step leaves alone, and how a property kept by micro-steps is kept by stretches and whole operations. -/

namespace Sys2Proof.Machine

/-- What no micro-step ever changes: the configuration, the outside world's inputs, the bench's view, the block-protect bits, the
command registers but `LEN` (spec/10_state.md R22, R27), the device's parameters. -/
def sameFixed (s t : State) : Prop :=
  t.cfg = s.cfg ∧ t.hostPort = s.hostPort ∧ t.bench = s.bench ∧ t.benchRx = s.benchRx ∧ t.dev.bp = s.dev.bp ∧
    t.op = s.op ∧ t.addr = s.addr ∧ t.wbuf = s.wbuf ∧ t.dev.model = s.dev.model

theorem sameFixed.refl (s : State) : sameFixed s s := ⟨rfl, rfl, rfl, rfl, rfl, rfl, rfl, rfl, rfl⟩

theorem sameFixed.trans {s t u : State} (h : sameFixed s t) (k : sameFixed t u) : sameFixed s u := by
  obtain ⟨a1, a2, a3, a4, a5, a6, a7, a8, a9⟩ := h
  obtain ⟨b1, b2, b3, b4, b5, b6, b7, b8, b9⟩ := k
  exact ⟨b1.trans a1, b2.trans a2, b3.trans a3, b4.trans a4, b5.trans a5, b6.trans a6, b7.trans a7, b8.trans a8, b9.trans a9⟩

@[simp] theorem deviceTake_bp (tx : Byte) (d : Device) : (deviceTake tx d).bp = d.bp := by unfold deviceTake; split <;> rfl
@[simp] theorem deviceTake_mem (tx : Byte) (d : Device) : (deviceTake tx d).mem = d.mem := by unfold deviceTake; split <;> rfl
@[simp] theorem deviceTake_wip (tx : Byte) (d : Device) : (deviceTake tx d).wip = d.wip := by unfold deviceTake; split <;> rfl
@[simp] theorem deviceTake_wel (tx : Byte) (d : Device) : (deviceTake tx d).wel = d.wel := by unfold deviceTake; split <;> rfl
@[simp] theorem deviceTake_dsel (tx : Byte) (d : Device) : (deviceTake tx d).dsel = d.dsel := by unfold deviceTake; split <;> rfl
@[simp] theorem deviceTake_cycle (tx : Byte) (d : Device) : (deviceTake tx d).cycle = d.cycle := by unfold deviceTake; split <;> rfl
@[simp] theorem deviceTake_model (tx : Byte) (d : Device) : (deviceTake tx d).model = d.model := by unfold deviceTake; split <;> rfl

section
variable (tx : Byte) (d : Device)
@[simp] theorem deviceFail_bp : (deviceFail tx d).bp = d.bp := by obtain ⟨_, _, _, e, _⟩ := deviceFail_eq tx d; rw [e]
@[simp] theorem deviceFail_mem : (deviceFail tx d).mem = d.mem := by obtain ⟨_, _, _, e, _⟩ := deviceFail_eq tx d; rw [e]
@[simp] theorem deviceFail_wip : (deviceFail tx d).wip = d.wip := by obtain ⟨_, _, _, e, _⟩ := deviceFail_eq tx d; rw [e]
@[simp] theorem deviceFail_dsel : (deviceFail tx d).dsel = d.dsel := by obtain ⟨_, _, _, e, _⟩ := deviceFail_eq tx d; rw [e]
@[simp] theorem deviceFail_cycle : (deviceFail tx d).cycle = d.cycle := by obtain ⟨_, _, _, e, _⟩ := deviceFail_eq tx d; rw [e]
@[simp] theorem deviceFail_model : (deviceFail tx d).model = d.model := by obtain ⟨_, _, _, e, _⟩ := deviceFail_eq tx d; rw [e]
end

theorem sendByte_fixed (tx : Byte) (p : Phase) (s : State) : sameFixed s (sendByte tx p s) := by
  obtain h | ⟨r, d, _, h⟩ := sendByte_cases tx p s
  · rw [h]; exact ⟨rfl, rfl, rfl, rfl, deviceFail_bp _ _, rfl, rfl, rfl, deviceFail_model _ _⟩
  · rw [h]; exact ⟨rfl, rfl, rfl, rfl, deviceTake_bp _ _, rfl, rfl, rfl, deviceTake_model _ _⟩

theorem deviceDeselect_fixed {s t : State} (h : deviceDeselect s = .next t) : sameFixed s t := by
  obtain ⟨w, rfl⟩ | ⟨op, ah, al, c, cs, n, _, _, _, rfl⟩ | ⟨op, ah, al, b, bs, c, cs, n, _, _, _, _, _, rfl⟩ := deviceDeselect_cases h <;>
    exact ⟨rfl, rfl, rfl, rfl, rfl, rfl, rfl, rfl, rfl⟩

theorem doDeselect_fixed {p : Phase} {s t : State} (h : doDeselect p s = .next t) : sameFixed s t := by
  obtain ⟨u, hu, rfl⟩ := doDeselect_cases h
  obtain ⟨a1, a2, a3, a4, a5, a6, a7, a8, a9⟩ := deviceDeselect_fixed hu
  exact ⟨a1, a2, a3, a4, a5, a6, a7, a8, a9⟩

theorem setupWrite_fixed (s : State) : sameFixed s (setupWrite s) := by
  unfold setupWrite
  simp only
  repeat' split
  all_goals exact ⟨rfl, rfl, rfl, rfl, rfl, rfl, rfl, rfl, rfl⟩

theorem setupRead_fixed (s : State) : sameFixed s (setupRead s) := by
  unfold setupRead
  split <;> exact ⟨rfl, rfl, rfl, rfl, rfl, rfl, rfl, rfl, rfl⟩

theorem phaseStep_fixed {s t : State} (h : phaseStep s = .next t) : sameFixed s t := by
  unfold phaseStep at h
  split at h
  all_goals first
    | exact doDeselect_fixed h
    | skip
  all_goals try simp only [Host.Outcome.next.injEq] at h
  case h_1 => subst h; exact sameFixed.refl s
  case h_2 =>
    subst h
    unfold stepDecode
    split
    · exact ⟨rfl, rfl, rfl, rfl, rfl, rfl, rfl, rfl, rfl⟩
    · exact ⟨rfl, rfl, rfl, rfl, rfl, rfl, rfl, rfl, rfl⟩
    · exact setupRead_fixed { s with len := 1 }
    · exact setupRead_fixed s
    · exact setupWrite_fixed { s with len := 1 }
    · exact setupWrite_fixed s
    · exact ⟨rfl, rfl, rfl, rfl, rfl, rfl, rfl, rfl, rfl⟩
  case h_3 => subst h; exact ⟨rfl, rfl, rfl, rfl, rfl, rfl, rfl, rfl, rfl⟩
  case h_4 => subst h; exact ⟨rfl, rfl, rfl, rfl, rfl, rfl, rfl, rfl, rfl⟩
  case h_5 => subst h; exact sendByte_fixed _ _ _
  case h_6 =>
    subst h
    unfold stepPDummy
    obtain e | ⟨r, d, hr, e⟩ := exchange_cases s.cfg.dummy s
    · rw [e]; exact ⟨rfl, rfl, rfl, rfl, deviceFail_bp _ _, rfl, rfl, rfl, deviceFail_model _ _⟩
    · rw [e]
      cases r with
      | byte b => exact ⟨rfl, rfl, rfl, rfl, deviceTake_bp _ _, rfl, rfl, rfl, deviceTake_model _ _⟩
      | status st => exact ⟨rfl, rfl, rfl, rfl, deviceTake_bp _ _, rfl, rfl, rfl, deviceTake_model _ _⟩
      | err => exact absurd rfl hr
  case h_8 =>
    unfold stepPTest afterWait countBusy at h
    simp only at h
    repeat' split at h
    all_goals first
      | (simp only [Host.Outcome.next.injEq] at h; subst h; exact ⟨rfl, rfl, rfl, rfl, rfl, rfl, rfl, rfl, rfl⟩)
      | exact absurd h (by simp)
  case h_9 => subst h; exact ⟨rfl, rfl, rfl, rfl, rfl, rfl, rfl, rfl, rfl⟩
  case h_10 => subst h; exact sendByte_fixed _ _ _
  case h_12 => subst h; exact ⟨rfl, rfl, rfl, rfl, rfl, rfl, rfl, rfl, rfl⟩
  case h_13 => subst h; exact ⟨rfl, rfl, rfl, rfl, rfl, rfl, rfl, rfl, rfl⟩
  case h_14 => subst h; exact sendByte_fixed _ _ _
  case h_15 => subst h; exact sendByte_fixed _ _ _
  case h_16 => subst h; exact sendByte_fixed _ _ _
  case h_17 =>
    unfold stepWData at h
    split at h
    · exact absurd h (by simp)
    split at h
    · exact absurd h (by simp)
    next b _ =>
    obtain e | ⟨r, d, hr, e⟩ := exchange_cases b s
    · rw [e] at h; simp only [rxByte, Host.Outcome.next.injEq] at h; subst h
      exact ⟨rfl, rfl, rfl, rfl, deviceFail_bp _ _, rfl, rfl, rfl, deviceFail_model _ _⟩
    · rw [e] at h
      cases r with
      | err => exact absurd rfl hr
      | byte x =>
        simp only [rxByte, Host.Outcome.next.injEq] at h; subst h
        exact ⟨rfl, rfl, rfl, rfl, deviceTake_bp _ _, rfl, rfl, rfl, deviceTake_model _ _⟩
      | status x =>
        simp only [rxByte, Host.Outcome.next.injEq] at h; subst h
        exact ⟨rfl, rfl, rfl, rfl, deviceTake_bp _ _, rfl, rfl, rfl, deviceTake_model _ _⟩
  case h_19 =>
    subst h
    unfold stepWNext
    split <;> exact ⟨rfl, rfl, rfl, rfl, rfl, rfl, rfl, rfl, rfl⟩
  case h_20 => subst h; exact ⟨rfl, rfl, rfl, rfl, rfl, rfl, rfl, rfl, rfl⟩
  case h_21 => subst h; exact sendByte_fixed _ _ _
  case h_22 => subst h; exact sendByte_fixed _ _ _
  case h_23 => subst h; exact sendByte_fixed _ _ _
  case h_24 =>
    unfold stepRData at h
    split at h
    · exact absurd h (by simp)
    obtain e | ⟨r, d, hr, e⟩ := exchange_cases s.cfg.dummy s
    · rw [e] at h; simp only [rxByte, Host.Outcome.next.injEq] at h; subst h
      exact ⟨rfl, rfl, rfl, rfl, deviceFail_bp _ _, rfl, rfl, rfl, deviceFail_model _ _⟩
    · rw [e] at h
      cases r with
      | err => exact absurd rfl hr
      | byte x =>
        simp only [rxByte, Host.Outcome.next.injEq] at h; subst h
        exact ⟨rfl, rfl, rfl, rfl, deviceTake_bp _ _, rfl, rfl, rfl, deviceTake_model _ _⟩
      | status x =>
        simp only [rxByte, Host.Outcome.next.injEq] at h; subst h
        exact ⟨rfl, rfl, rfl, rfl, deviceTake_bp _ _, rfl, rfl, rfl, deviceTake_model _ _⟩
  case h_27 => subst h; exact ⟨rfl, rfl, rfl, rfl, rfl, rfl, rfl, rfl, rfl⟩

/-- What no micro-step changes. -/
theorem tick_fixed {s t : State} (h : tick s = .next t) : sameFixed s t := by
  obtain ⟨a1, a2, a3, a4, a5, a6, a7, a8, a9⟩ := phaseStep_fixed h
  exact ⟨a1, a2, a3, a4, a5, a6, a7, a8, a9⟩

/-- A property that micro-steps keep outside `IDLE` is kept by a stretch. -/
theorem runStretch_induct {P : State → Prop} (keep : ∀ s t, P s → s.phase ≠ .idle → tick s = .next t → P t) {n : Nat} :
    ∀ {s t : State}, P s → s.phase ≠ .idle → runStretch n s = .next t → P t := by
  induction n with
  | zero => intro s t h _ e; simp only [runStretch, Host.Outcome.next.injEq] at e; exact e ▸ h
  | succ n ih =>
    intro s t h hp e
    rw [runStretch] at e
    split at e
    · next u hu =>
      split at e
      · simp only [Host.Outcome.next.injEq] at e
        exact e ▸ keep s u h hp hu
      · next hq =>
        have : u.phase ≠ .idle := by
          intro hi
          simp [pausesAt, hi] at hq
        exact ih (keep s u h hp hu) this e
    · cases e
    · cases e

/-- ... by the rest of an operation ... -/
theorem goesOn_induct {P : State → Prop} (keep : ∀ s t, P s → s.phase ≠ .idle → tick s = .next t → P t) {n : Nat} :
    ∀ {s t : State}, P s → goesOn n s = .next t → P t := by
  induction n with
  | zero => intro s t h e; simp only [goesOn, Host.Outcome.next.injEq] at e; exact e ▸ h
  | succ n ih =>
    intro s t h e
    rw [goesOn] at e
    split at e
    · simp only [Host.Outcome.next.injEq] at e; exact e ▸ h
    · next hp =>
      unfold andThen at e
      split at e
      · next u hu => exact ih (runStretch_induct keep h hp hu) e
      · cases e
      · cases e

/-- ... and by a whole operation, if it holds once the command is accepted. -/
theorem operate_induct {P : State → Prop} (keep : ∀ s t, P s → s.phase ≠ .idle → tick s = .next t → P t)
    {op : Byte} {addr len : Half} {payload : List Byte} {s u t : State} {n : Nat} (hp : s.phase = .idle)
    (h : P (accept op addr len payload s)) (e : operate op addr len payload s = .next u) (g : goesOn n u = .next t) : P t := by
  rw [operate, if_pos hp] at e
  exact goesOn_induct keep (runStretch_induct keep h (by simp [accept, emit]) e) g

end Sys2Proof.Machine
end

