-- ==== Sys2Proof/Laws/Procedures.lean ====
section
/-! SUPPORT. What the three procedures of the framer and the status read do while the device is idle and answers: each as a run of
micro-steps inside one stretch (spec/40_status_poller.md R131, spec/41_command_framer.md R151, R154, R158). -/

namespace Sys2Proof.Machine

/-- `n` micro-steps from `s` to `t`, none of which ends the stretch. -/
def Runs : Nat → State → State → Prop
  | 0, s, t => s = t
  | n + 1, s, t => ∃ u, tick s = .next u ∧ pausesAt s.phase u.phase = false ∧ Runs n u t

theorem Runs.cons {n : Nat} {s u t : State} (a : tick s = .next u) (b : pausesAt s.phase u.phase = false) (c : Runs n u t) :
    Runs (n + 1) s t := ⟨u, a, b, c⟩

theorem Runs.append {m n : Nat} {s t u : State} (h : Runs m s t) (k : Runs n t u) : Runs (m + n) s u := by
  induction m generalizing s with
  | zero => rw [Nat.zero_add]; subst h; exact k
  | succ m ih => obtain ⟨v, a, b, c⟩ := h; rw [Nat.succ_add]; exact ⟨v, a, b, ih c⟩

/-- A stretch with enough fuel goes through such a run. -/
theorem Runs.stretch {m n : Nat} {s t : State} (h : Runs m s t) (le : m ≤ n) : runStretch n s = runStretch (n - m) t := by
  induction m generalizing s n with
  | zero => subst h; rfl
  | succ m ih =>
    obtain ⟨v, a, b, c⟩ := h
    obtain ⟨k, rfl⟩ : ∃ k, n = k + 1 := ⟨n - 1, by omega⟩
    rw [runStretch, a]
    simp only [b, Bool.false_eq_true, if_false]
    rw [ih c (by omega)]
    congr 1
    omega

@[simp] theorem hostOpOf_opcode (o : HostOp) : hostOpOf (hostOpcode o) = some o := by cases o <;> rfl

@[simp] theorem wireOpOf_opcode (o : WireOp) : wireOpOf (wireOpcode o) = some o := by cases o <;> rfl

/-- The two bytes of an address put together again (30_encoding.md R91, 20_memory.md R58). -/
@[simp] theorem joinBytes_hi_lo (a : Half) : joinBytes (hiByte a) (loByte a) = a := by
  apply BitVec.eq_of_getLsbD_eq
  intro i hi
  simp only [joinBytes, hiByte, loByte, BitVec.getLsbD_append, BitVec.getLsbD_extractLsb']
  by_cases h : i < 8
  · simp [h]
  · simp [h, show i - 8 < 8 by omega, show 8 + (i - 8) = i by omega]

/-- A stretch that reaches `RESP` responds (10_state.md R39). -/
theorem Runs.respond {m n : Nat} {s t : State} (h : Runs m s t) (p : t.phase = .resp) (lt : m < n) :
    runStretch n s = .next (Machine.respond (cycleTick t)) := by
  rw [h.stretch (Nat.le_of_lt lt)]
  obtain ⟨k, hk⟩ := Nat.exists_eq_add_of_lt lt
  rw [show n - m = k + 1 by omega, runStretch]
  have e : tick t = .next (Machine.respond (cycleTick t)) := by
    have : (cycleTick t).phase = .resp := p
    rw [tick, phaseStep, this]
  rw [e]
  rfl

theorem tick_idleDev {s : State} (h : s.dev.wip = false) : tick s = phaseStep s := by rw [tick, cycleTick_idle h]

theorem exchange_quiet {s : State} (h : quiet s) (tx : Byte) :
    exchange tx s = ((deviceAnswer s.cfg s.dev s.draws).1,
      { s with
        dev := deviceTake tx s.dev, script := s.script.tail, draws := (deviceAnswer s.cfg s.dev s.draws).2,
        trace := s.trace ++ [.xfer tx (deviceAnswer s.cfg s.dev s.draws).1] }) := by
  unfold exchange; rw [transfer_quiet h]; rfl

theorem sendByte_quiet {s : State} (h : quiet s) (tx : Byte) (p : Phase) :
    sendByte tx p s =
      { s with
        dev := deviceTake tx s.dev, script := s.script.tail, draws := (deviceAnswer s.cfg s.dev s.draws).2,
        trace := s.trace ++ [.xfer tx (deviceAnswer s.cfg s.dev s.draws).1], phase := p } := by
  unfold sendByte; rw [exchange_quiet h]
  have := deviceAnswer_ne_err s.cfg s.dev s.draws
  simp only
  split
  · next e => exact absurd e this
  · rfl
  · rfl

/-- A delay phase. -/
theorem run_delay {s t : State} {n k : Nat} {p : Phase} (hw : s.dev.wip = false) (e : phaseStep s = .next (doDelay n p s))
    (hb : pausesAt s.phase p = false) (c : Runs k { s with trace := s.trace ++ [.delay n], phase := p } t) :
    Runs (k + 1) s t :=
  Runs.cons (by rw [tick_idleDev hw, e]; rfl) hb c

/-- A select phase. -/
theorem run_select {s t : State} {k : Nat} {p : Phase} (hw : s.dev.wip = false) (e : phaseStep s = .next (doSelect p s))
    (hb : pausesAt s.phase p = false)
    (c : Runs k { s with
      trace := s.trace ++ [.sel s.cfg.csId], phase := p, sel := true,
      dev := { s.dev with dsel := true, fr := [], ign := false } } t) :
    Runs (k + 1) s t :=
  Runs.cons (by rw [tick_idleDev hw, e]; rfl) hb c

/-- A phase that sends a byte and discards the answer. -/
theorem run_send {s t : State} {k : Nat} {tx : Byte} {p : Phase} (hw : s.dev.wip = false) (hq : quiet s)
    (e : phaseStep s = .next (sendByte tx p s)) (hb : pausesAt s.phase p = false)
    (c : Runs k { s with
      dev := deviceTake tx s.dev, script := s.script.tail, draws := (deviceAnswer s.cfg s.dev s.draws).2,
      trace := s.trace ++ [.xfer tx (deviceAnswer s.cfg s.dev s.draws).1], phase := p } t) :
    Runs (k + 1) s t :=
  Runs.cons (by rw [tick_idleDev hw, e, sendByte_quiet hq]) hb c

/-- A deselect phase. -/
theorem run_desel {s u t : State} {k : Nat} {p : Phase} (hw : s.dev.wip = false) (e : phaseStep s = doDeselect p s)
    (d : deviceDeselect s = .next u) (hb : pausesAt s.phase p = false)
    (c : Runs k { u with trace := u.trace ++ [.desel u.cfg.csId], phase := p, sel := false } t) :
    Runs (k + 1) s t :=
  Runs.cons (by rw [tick_idleDev hw, e, doDeselect, d]; rfl) hb c

/-- A status read that finds the device ready (40_status_poller.md R131). -/
theorem run_status {s : State} (hp : s.phase = .pDelay) (hw : s.dev.wip = false) (hq : quiet s) :
    Runs 5 s { s with
      phase := .pTest
      sel := false
      sr := ⟨Config.draw4 (s.draws + 1), s.dev.bp, s.dev.wel, false⟩
      dev := { s.dev with dsel := false, fr := [wireOpcode .rdsr, s.cfg.dummy], ign := false }
      trace := s.trace ++ [.delay s.cfg.tPollUs] ++ [.sel s.cfg.csId] ++ [.xfer (wireOpcode .rdsr) (.byte (Config.draw8 s.draws))]
        ++ [.xfer s.cfg.dummy (.status ⟨Config.draw4 (s.draws + 1), s.dev.bp, s.dev.wel, false⟩)] ++ [.desel s.cfg.csId]
      script := s.script.tail.tail
      draws := s.draws + 2 } := by
  obtain ⟨cfg, phase, sel, op, addr, len, wbuf, cur, run, rem, idx, pcnt, sr, rbuf, err, ⟨mem, wip, wel, bp, dsel, fr, ign, cycle, model⟩,
    trace, hostPort, bench, benchRx, script, cycles, cycleCount, draws⟩ := s
  simp only at hp hw
  subst hp hw
  refine run_delay rfl rfl rfl (run_select rfl rfl rfl (run_send rfl hq rfl rfl ?_))
  refine Runs.cons (u := ?_)
    (by rw [tick_idleDev rfl]; simp only [phaseStep, stepPDummy]; rw [exchange_quiet (quiet_tail hq rfl)]) rfl ?_
  exact run_desel rfl rfl rfl rfl rfl

/-- The phase an operation goes on to when its wait has found the device ready (40_status_poller.md R132). -/
def readyPhase : HostOp → Phase
  | .wait => .resp
  | .wren | .wrbyte | .write => .eSel
  | .rdbyte | .read => .rSel

/-- The state after a wait that found the device ready at its first status read. -/
def readyState (o : HostOp) (s : State) : State :=
  { s with
    phase := readyPhase o
    sel := false
    sr := ⟨Config.draw4 (s.draws + 1), s.dev.bp, s.dev.wel, false⟩
    dev := { s.dev with dsel := false, fr := [wireOpcode .rdsr, s.cfg.dummy], ign := false }
    trace := s.trace ++ [.delay s.cfg.tPollUs] ++ [.sel s.cfg.csId] ++ [.xfer (wireOpcode .rdsr) (.byte (Config.draw8 s.draws))]
      ++ [.xfer s.cfg.dummy (.status ⟨Config.draw4 (s.draws + 1), s.dev.bp, s.dev.wel, false⟩)] ++ [.desel s.cfg.csId]
    script := s.script.tail.tail
    draws := s.draws + 2 }

/-- A whole wait that finds the device ready at its first status read (40_status_poller.md R131, R132). -/
theorem run_ready {s : State} {o : HostOp} (hp : s.phase = .pDelay) (ho : hostOpOf s.op = some o) (hw : s.dev.wip = false)
    (hq : quiet s) : Runs 6 s (readyState o s) := by
  refine Runs.append (n := 1) (run_status hp hw hq) (Runs.cons (u := _) ?_ ?_ rfl)
  · refine (tick_idleDev (by exact hw)).trans ?_
    simp only [phaseStep, stepPTest, afterWait, ho]
    cases o <;> rfl
  · cases o <;> rfl

theorem readyState_quiet {o : HostOp} {s : State} (hq : quiet s) : quiet (readyState o s) :=
  quiet_tail (quiet_tail hq (t := { s with script := s.script.tail }) rfl) rfl

/-- `DECODE` takes no event and starts the wait, or raises (42_addressing_engine.md R186). -/
theorem run_decode {s t u : State} {k : Nat} (hp : s.phase = .decode) (hw : s.dev.wip = false) (e : stepDecode s = u)
    (hb : u.phase ≠ .idle) (c : Runs k u t) : Runs (k + 1) s t := by
  refine Runs.cons (u := u) ?_ (by rw [hp]; simp [pausesAt, hb]) c
  rw [tick_idleDev hw]
  simp [phaseStep, hp, e]

/-- The write-enable procedure sets the latch (41_command_framer.md R151). -/
theorem run_enable {s : State} (hp : s.phase = .eSel) (hw : s.dev.wip = false) (hq : quiet s) :
    Runs 4 s { s with
      phase := if hostOpOf s.op = some .wren then .resp else .wSel
      sel := false
      dev := { s.dev with dsel := false, fr := [wireOpcode .wren], ign := false, wel := true }
      trace := s.trace ++ [.sel s.cfg.csId] ++ [.xfer (wireOpcode .wren) (.byte (Config.draw8 s.draws))] ++ [.desel s.cfg.csId]
        ++ [.delay s.cfg.tWrenUs]
      script := s.script.tail
      draws := s.draws + 1 } := by
  obtain ⟨cfg, phase, sel, op, addr, len, wbuf, cur, run, rem, idx, pcnt, sr, rbuf, err, ⟨mem, wip, wel, bp, dsel, fr, ign, cycle, model⟩,
    trace, hostPort, bench, benchRx, script, cycles, cycleCount, draws⟩ := s
  simp only at hp hw
  subst hp hw
  refine run_select rfl rfl rfl (run_send rfl hq rfl rfl (run_desel rfl rfl rfl rfl (run_delay rfl rfl ?_ rfl)))
  show pausesAt .eDelay (if hostOpOf op = some .wren then .resp else .wSel) = false
  split <;> rfl

/-- The opcode and address bytes of a WRITE frame (R154). -/
theorem run_writeHead {s : State} (hp : s.phase = .wSel) (hw : s.dev.wip = false) (hq : quiet s) :
    ∃ trace draws script, (∀ a ∈ script, a = Answer.device) ∧
      sent trace = sent s.trace ++ [.sel s.cfg.csId, .tx 0x02, .tx (hiByte s.cur), .tx (loByte s.cur)] ∧
      Runs 4 s { s with
        phase := if s.run = 0 then .wDesel else .wData
        sel := true
        dev := { s.dev with dsel := true, fr := [wireOpcode .write, hiByte s.cur, loByte s.cur], ign := false }
        trace := trace, script := script, draws := draws } := by
  obtain ⟨cfg, phase, sel, op, addr, len, wbuf, cur, run, rem, idx, pcnt, sr, rbuf, err, ⟨mem, wip, wel, bp, dsel, fr, ign, cycle, model⟩,
    trace, hostPort, bench, benchRx, script, cycles, cycleCount, draws⟩ := s
  simp only at hp hw
  subst hp hw
  have q1 := quiet_tail hq (t := { (State.reset) with script := script.tail }) rfl
  have q2 := quiet_tail q1 (t := { (State.reset) with script := script.tail.tail }) rfl
  have q3 := quiet_tail q2 (t := { (State.reset) with script := script.tail.tail.tail }) rfl
  refine ⟨_, _, script.tail.tail.tail, q3, ?_, run_select rfl rfl rfl (run_send rfl hq rfl rfl (run_send rfl q1 rfl rfl
    (run_send rfl q2 rfl ?_ rfl)))⟩
  · simp [sent, sentOf, wireOpcode]
  · show pausesAt .wAl (if run = 0 then .wDesel else .wData) = false
    split <;> rfl

/-- The data bytes of a WRITE frame (R154): one payload byte each, `IDX` up and `RUN` down. -/
theorem run_writeData (data : List Byte) : ∀ {s : State}, s.phase = .wData → s.dev.wip = false → quiet s → data ≠ [] →
    s.run.toNat = data.length → data <+: s.wbuf.drop s.idx.toNat → s.idx.toNat + data.length < 2 ^ 16 →
    s.dev.dsel = true → s.dev.fr ≠ [] →
    ∃ trace draws script, (∀ a ∈ script, a = Answer.device) ∧ sent trace = sent s.trace ++ data.map .tx ∧
      Runs data.length s { s with
        phase := .wDesel, run := 0, idx := s.idx + BitVec.ofNat 16 data.length,
        dev := { s.dev with fr := s.dev.fr ++ data }, trace := trace, script := script, draws := draws } := by
  induction data with
  | nil => intro s _ _ _ h; exact absurd rfl h
  | cons b data ih =>
    intro s hp hw hq _ hr hd hi hs hf
    obtain ⟨rest, hrest⟩ := hd
    have hb : s.wbuf[s.idx.toNat]? = some b := by
      have := congrArg (fun l => l[0]?) hrest
      simpa using this.symm
    have hr0 : s.run ≠ 0 := by
      intro h; rw [h] at hr; simp at hr
    have hr1 : (s.run - 1).toNat = data.length := by
      have : s.run.toNat = data.length + 1 := by simpa using hr
      have := s.run.isLt
      bv_omega
    have hidx : (s.idx + 1).toNat = s.idx.toNat + 1 := by
      simp only [List.length_cons] at hi
      bv_omega
    have take : deviceTake b s.dev = { s.dev with fr := s.dev.fr ++ [b] } := by simp [deviceTake, hs, hf]
    have one : tick s = .next { s with
        phase := if s.run - 1 = 0 then .wDesel else .wData, run := s.run - 1, idx := s.idx + 1,
        dev := { s.dev with fr := s.dev.fr ++ [b] }, script := s.script.tail,
        draws := (deviceAnswer s.cfg s.dev s.draws).2,
        trace := s.trace ++ [.xfer b (deviceAnswer s.cfg s.dev s.draws).1] } := by
      rw [tick_idleDev hw]
      simp only [phaseStep, hp, stepWData, hr0, if_false, hb, exchange_quiet hq, take]
      have := deviceAnswer_ne_err s.cfg s.dev s.draws
      generalize deviceAnswer s.cfg s.dev s.draws = r at *
      obtain ⟨r, n⟩ := r
      cases r with
      | err => exact absurd rfl this
      | byte x => simp [rxByte, goto]
      | status x => simp [rxByte, goto]
    by_cases hn : data = []
    · subst hn
      have z : s.run - 1 = 0 := by
        apply BitVec.eq_of_toNat_eq; rw [hr1]; rfl
      rw [z] at one
      refine ⟨_, _, s.script.tail, quiet_tail hq (t := { s with script := s.script.tail }) rfl, ?_, Runs.cons one ?_ rfl⟩
      · simp [sent, sentOf]
      · rw [hp]; rfl
    · have z : s.run - 1 ≠ 0 := by
        intro h; rw [h] at hr1
        exact hn (List.length_eq_zero_iff.1 hr1.symm)
      rw [if_neg z] at one
      have q' := quiet_tail hq (t := { s with script := s.script.tail }) rfl
      obtain ⟨tr, d, sc, q, e, r⟩ := ih (s := { s with
        phase := .wData, run := s.run - 1, idx := s.idx + 1,
        dev := { s.dev with fr := s.dev.fr ++ [b] }, script := s.script.tail,
        draws := (deviceAnswer s.cfg s.dev s.draws).2,
        trace := s.trace ++ [.xfer b (deviceAnswer s.cfg s.dev s.draws).1] }) rfl hw q' hn hr1
        ⟨rest, by
          simp only [hidx]
          rw [← List.drop_drop, ← hrest]
          simp⟩
        (by simp only [hidx]; simp only [List.length_cons] at hi; omega) hs (by simp)
      refine ⟨tr, d, sc, q, ?_, Runs.cons one (by rw [hp]; rfl) ?_⟩
      · rw [e]; simp [sent, sentOf]
      · have e1 : s.idx + 1 + BitVec.ofNat 16 data.length = s.idx + BitVec.ofNat 16 (data.length + 1) := by
          rw [BitVec.add_assoc]; congr 1
          apply BitVec.eq_of_toNat_eq
          simp [BitVec.toNat_add, Nat.add_comm]
        simp only [e1] at r
        simpa [List.append_assoc] using r

/-- The opcode and address bytes of a READ frame (R158). -/
theorem run_readHead {s : State} (hp : s.phase = .rSel) (hw : s.dev.wip = false) (hq : quiet s) :
    ∃ trace draws script, (∀ a ∈ script, a = Answer.device) ∧
      sent trace = sent s.trace ++ [.sel s.cfg.csId, .tx 0x03, .tx (hiByte s.addr), .tx (loByte s.addr)] ∧
      Runs 4 s { s with
        phase := if s.rem = 0 then .rDesel else .rData
        sel := true
        dev := { s.dev with dsel := true, fr := [wireOpcode .read, hiByte s.addr, loByte s.addr], ign := false }
        trace := trace, script := script, draws := draws } := by
  obtain ⟨cfg, phase, sel, op, addr, len, wbuf, cur, run, rem, idx, pcnt, sr, rbuf, err, ⟨mem, wip, wel, bp, dsel, fr, ign, cycle, model⟩,
    trace, hostPort, bench, benchRx, script, cycles, cycleCount, draws⟩ := s
  simp only at hp hw
  subst hp hw
  have q1 := quiet_tail hq (t := { (State.reset) with script := script.tail }) rfl
  have q2 := quiet_tail q1 (t := { (State.reset) with script := script.tail.tail }) rfl
  have q3 := quiet_tail q2 (t := { (State.reset) with script := script.tail.tail.tail }) rfl
  refine ⟨_, _, script.tail.tail.tail, q3, ?_, run_select rfl rfl rfl (run_send rfl hq rfl rfl (run_send rfl q1 rfl rfl
    (run_send rfl q2 rfl ?_ rfl)))⟩
  · simp [sent, sentOf, wireOpcode]
  · show pausesAt .rAl (if rem = 0 then .rDesel else .rData) = false
    split <;> rfl

/-- The data bytes of a READ frame (R158, 20_memory.md R69): each is the array's byte at the next address. -/
theorem run_readData (ah al : Byte) (n : Nat) : ∀ {s : State} {ds : List Byte}, s.phase = .rData → s.dev.wip = false → quiet s →
    s.rem.toNat = n + 1 → s.dev.dsel = true → s.dev.ign = false → s.dev.fr = wireOpcode .read :: ah :: al :: ds →
    ∃ trace script, (∀ a ∈ script, a = Answer.device) ∧
      sent trace = sent s.trace ++ List.replicate (n + 1) (.tx s.cfg.dummy) ∧
      Runs (n + 1) s { s with
        phase := .rDesel, rem := 0,
        rbuf := s.rbuf ++ (List.range (n + 1)).map fun j =>
          Memory.read s.dev.mem (readAddr s.cfg (joinBytes ah al) (ds.length + j)),
        dev := { s.dev with fr := s.dev.fr ++ List.replicate (n + 1) s.cfg.dummy }, trace := trace, script := script } := by
  induction n with
  | zero =>
    intro s ds hp hw hq hr hs hg hf
    have z : s.rem - 1 = 0 := by
      apply BitVec.eq_of_toNat_eq; simp; bv_omega
    have r0 : s.rem ≠ 0 := by intro h; rw [h] at hr; simp at hr
    have ans : deviceAnswer s.cfg s.dev s.draws =
        (.byte (Memory.read s.dev.mem (readAddr s.cfg (joinBytes ah al) ds.length)), s.draws) := by
      simp [deviceAnswer, hs, hf, hg, wireOpOf, wireOpcode]
    have take : deviceTake s.cfg.dummy s.dev = { s.dev with fr := s.dev.fr ++ [s.cfg.dummy] } := by
      simp [deviceTake, hs, hf]
    refine ⟨s.trace ++ [.xfer s.cfg.dummy (.byte (Memory.read s.dev.mem (readAddr s.cfg (joinBytes ah al) ds.length)))],
      s.script.tail, quiet_tail hq (t := { s with script := s.script.tail }) rfl, by simp [sent, sentOf], ?_⟩
    refine Runs.cons (u := _) (by
      rw [tick_idleDev hw]
      simp only [phaseStep, hp, stepRData, r0, if_false, exchange_quiet hq, ans, take, rxByte, z, if_true]
      rfl) ?_ ?_
    · rw [hp]; rfl
    · simp [Runs, goto]
  | succ n ih =>
    intro s ds hp hw hq hr hs hg hf
    have z : s.rem - 1 ≠ 0 := by
      intro h
      have := congrArg BitVec.toNat h
      simp at this
      bv_omega
    have r0 : s.rem ≠ 0 := by intro h; rw [h] at hr; simp at hr
    have r1 : (s.rem - 1).toNat = n + 1 := by bv_omega
    have ans : deviceAnswer s.cfg s.dev s.draws =
        (.byte (Memory.read s.dev.mem (readAddr s.cfg (joinBytes ah al) ds.length)), s.draws) := by
      simp [deviceAnswer, hs, hf, hg, wireOpOf, wireOpcode]
    have take : deviceTake s.cfg.dummy s.dev = { s.dev with fr := s.dev.fr ++ [s.cfg.dummy] } := by
      simp [deviceTake, hs, hf]
    have one : tick s = .next { s with
        phase := .rData, rem := s.rem - 1,
        rbuf := s.rbuf ++ [Memory.read s.dev.mem (readAddr s.cfg (joinBytes ah al) ds.length)],
        dev := { s.dev with fr := s.dev.fr ++ [s.cfg.dummy] }, script := s.script.tail,
        trace := s.trace ++ [.xfer s.cfg.dummy (.byte (Memory.read s.dev.mem (readAddr s.cfg (joinBytes ah al) ds.length)))] } := by
      rw [tick_idleDev hw]
      simp only [phaseStep, hp, stepRData, r0, if_false, exchange_quiet hq, ans, take, rxByte, z]
      rfl
    obtain ⟨tr, sc, q, e, r⟩ := ih (ds := ds ++ [s.cfg.dummy]) (s := { s with
        phase := .rData, rem := s.rem - 1,
        rbuf := s.rbuf ++ [Memory.read s.dev.mem (readAddr s.cfg (joinBytes ah al) ds.length)],
        dev := { s.dev with fr := s.dev.fr ++ [s.cfg.dummy] }, script := s.script.tail,
        trace := s.trace ++ [.xfer s.cfg.dummy (.byte (Memory.read s.dev.mem (readAddr s.cfg (joinBytes ah al) ds.length)))] })
      rfl hw (quiet_tail hq (t := { s with script := s.script.tail }) rfl) r1 hs hg (by simp [hf])
    refine ⟨tr, sc, q, ?_, Runs.cons one (by rw [hp]; rfl) ?_⟩
    · rw [e]; simp [sent, sentOf, List.replicate_succ]
    · have e2 : ∀ j, ds.length + 1 + j = ds.length + (j + 1) := by intro j; omega
      rw [List.range_succ_eq_map (n := n + 1)]
      simpa [List.replicate_succ, List.append_assoc, Function.comp_def, e2] using r

/-- A whole READ frame (R158): what is sent, and what is received (20_memory.md R69). -/
theorem run_read {s : State} (hp : s.phase = .rSel) (hw : s.dev.wip = false) (hq : quiet s) :
  ∃ trace draws script fr, (∀ a ∈ script, a = Answer.device) ∧ sent trace = sent s.trace ++ readSent s.cfg s.addr s.rem.toNat ∧
  Runs (s.rem.toNat + 5) s { s with
    phase := .resp, sel := false, rem := 0, rbuf := s.rbuf ++ readBack s.cfg s.dev.mem s.addr s.rem.toNat,
    dev := { s.dev with dsel := false, fr := fr, ign := false }, trace := trace, script := script, draws := draws } := by
  obtain ⟨tr, d, sc, q, e, r⟩ := run_readHead hp hw hq
  by_cases h0 : s.rem = 0
  · rw [if_pos h0] at r
    refine ⟨tr ++ [.desel s.cfg.csId], d, sc, [wireOpcode .read, hiByte s.addr, loByte s.addr], q, ?_, ?_⟩
    rotate_left 1
    · have r2 := Runs.append r (run_desel (t := _) (k := 0) (p := .resp) (s := _) hw rfl rfl rfl rfl)
      simpa [h0, readBack] using r2
    · simp only [sent, List.map_append] at e ⊢
      rw [e]; simp [readSent, frameSent, h0, sentOf]
  · obtain ⟨n, hn⟩ : ∃ n, s.rem.toNat = n + 1 := ⟨s.rem.toNat - 1, by have : s.rem.toNat ≠ 0 := fun h => h0 (BitVec.eq_of_toNat_eq h); omega⟩
    rw [if_neg h0] at r
    obtain ⟨tr2, sc2, q2, e2, r2⟩ := run_readData (hiByte s.addr) (loByte s.addr) n (s := { s with
        phase := .rData
        sel := true
        dev := { s.dev with dsel := true, fr := [wireOpcode .read, hiByte s.addr, loByte s.addr], ign := false }
        trace := tr, script := sc, draws := d }) (ds := []) rfl hw q hn rfl rfl rfl
    refine ⟨tr2 ++ [.desel s.cfg.csId], d, sc2, [wireOpcode .read, hiByte s.addr, loByte s.addr] ++ List.replicate (n+1) s.cfg.dummy, q2, ?_, ?_⟩
    rotate_left 1
    · have r3 := Runs.append r (Runs.append r2 (run_desel (t := _) (k := 0) (p := .resp) (s := _) hw rfl rfl rfl rfl))
      rw [show s.rem.toNat + 5 = 4 + (n + 1 + (0+1)) by omega]
      simpa [hn, readBack] using r3
    · simp only [sent, List.map_append] at e e2 ⊢
      rw [e2, e]; simp [readSent, frameSent, hn, sentOf]


/-- The device at the deselect of a WRITE frame with data that it commits (20_memory.md R70 (b)). -/
theorem deselect_write {s : State} {ah al b : Byte} {bs : List Byte} (hf : s.dev.fr = wireOpcode .write :: ah :: al :: b :: bs)
    (hg : s.dev.ign = false) (hl : s.dev.wel = true) (hb : s.dev.bp = 0) :
    deviceDeselect s = .next (startCycle { s with
      dev := { s.dev with
        dsel := false, mem := storePage s.cfg (deviceAddr s.cfg (joinBytes ah al)) 0 (b :: bs) s.dev.mem } }) := by
  simp [deviceDeselect, hg, hf, commitWrite, hl, hb]

/-- A whole WRITE frame of a chunk with data (R154), committed at its deselect (20_memory.md R70 (b)). -/
theorem run_write {s : State} {data : List Byte} (hp : s.phase = .wSel) (hw : s.dev.wip = false) (hq : quiet s) (hd : data ≠ [])
    (hr : s.run.toNat = data.length) (pre : data <+: s.wbuf.drop s.idx.toNat) (hi : s.idx.toNat + data.length < 2 ^ 16)
    (hl : s.dev.wel = true) (hb : s.dev.bp = 0) :
    ∃ trace draws script c cs k, (∀ a ∈ script, a = Answer.device) ∧
      sent trace = sent s.trace ++ writeSent s.cfg s.cur data ∧
      Runs (data.length + 5) s { s with
        phase := .wNext, sel := false, run := 0, idx := s.idx + BitVec.ofNat 16 data.length,
        dev := { s.dev with
          dsel := false, fr := [wireOpcode .write, hiByte s.cur, loByte s.cur] ++ data, ign := false, wip := true, cycle := c,
          mem := storePage s.cfg (deviceAddr s.cfg s.cur) 0 data s.dev.mem },
        trace := trace, script := script, draws := draws, cycles := cs, cycleCount := k } := by
  obtain ⟨tr, d, sc, q, e, r⟩ := run_writeHead hp hw hq
  have hr0 : s.run ≠ 0 := by
    intro h; rw [h] at hr
    exact hd (List.length_eq_zero_iff.1 hr.symm)
  rw [if_neg hr0] at r
  obtain ⟨tr2, d2, sc2, q2, e2, r2⟩ := run_writeData data (s := { s with
    phase := .wData
    sel := true
    dev := { s.dev with dsel := true, fr := [wireOpcode .write, hiByte s.cur, loByte s.cur], ign := false }
    trace := tr, script := sc, draws := d }) rfl hw q hd hr pre hi rfl (by simp)
  obtain ⟨b, bs, rfl⟩ := List.exists_cons_of_ne_nil hd
  obtain ⟨c, cs, k, hc⟩ := startCycle_eq { s with
    phase := .wDesel, sel := true, run := 0, idx := s.idx + BitVec.ofNat 16 (b :: bs).length,
    dev := { s.dev with
      dsel := false, fr := [wireOpcode .write, hiByte s.cur, loByte s.cur] ++ b :: bs, ign := false,
      mem := storePage s.cfg (deviceAddr s.cfg s.cur) 0 (b :: bs) s.dev.mem },
    trace := tr2, script := sc2, draws := d2 }
  refine ⟨tr2 ++ [.desel s.cfg.csId], d2, sc2, c, cs, k, q2, ?_, ?_⟩
  · simp only [sent, List.map_append] at e e2 ⊢
    rw [e2, e]; simp [writeSent, frameSent, sentOf]
  · rw [show (b :: bs).length + 5 = 4 + ((b :: bs).length + (0 + 1)) by omega]
    refine Runs.append r (Runs.append r2 (run_desel (p := .wNext) (by exact hw) rfl
      (deselect_write (ah := hiByte s.cur) (al := loByte s.cur) (b := b) (bs := bs) rfl rfl hl hb) rfl ?_))
    simp only [joinBytes_hi_lo]
    exact (congrArg (fun x : State => { x with trace := x.trace ++ [Event.desel x.cfg.csId], phase := .wNext, sel := false }) hc)

/-- What the end of a WRITE frame without data does, for each device (93_implementation_defined.md U7): `wip` and `wel` after it, and the
model's schedule (log 6). -/
theorem commitEmpty_eq (s : State) : ∃ w l c cs n,
    commitEmpty s = { s with dev := { s.dev with wip := w, wel := l, cycle := c }, cycles := cs, cycleCount := n } ∧
      (s.dev.model.emptyWrite = .unchanged → w = s.dev.wip ∧ l = s.dev.wel) ∧
      (s.dev.model.emptyWrite = .disarming → w = s.dev.wip ∧ l = false) ∧
      (s.dev.model.emptyWrite = .cycling → w = true ∧ l = s.dev.wel) := by
  unfold commitEmpty
  split
  · next m => exact ⟨s.dev.wip, s.dev.wel, s.dev.cycle, s.cycles, s.cycleCount, rfl, by simp, by simp [m], by simp [m]⟩
  · next m => exact ⟨s.dev.wip, false, s.dev.cycle, s.cycles, s.cycleCount, rfl, by simp [m], by simp, by simp [m]⟩
  · next m =>
    obtain ⟨c, cs, n, e⟩ := startCycle_eq s
    exact ⟨true, s.dev.wel, c, cs, n, by rw [e], by simp [m], by simp [m], by simp⟩

/-- The device at the deselect of a WRITE frame without data, its latch set. -/
theorem deselect_writeEmpty {s : State} {ah al : Byte} (hf : s.dev.fr = [wireOpcode .write, ah, al]) (hg : s.dev.ign = false)
    (hl : s.dev.wel = true) :
    deviceDeselect s = .next (commitEmpty { s with dev := { s.dev with dsel := false } }) := by
  simp [deviceDeselect, hg, hf, commitWrite, hl]

/-- A WRITE frame without data (R154, 42_addressing_engine.md R191), after which the device is as its parameter says (20_memory.md R75,
93_implementation_defined.md U7). -/
theorem run_writeEmpty {s : State} (hp : s.phase = .wSel) (hw : s.dev.wip = false) (hq : quiet s) (hr : s.run = 0)
    (hl : s.dev.wel = true) :
    ∃ trace draws script w l c cs n, (∀ a ∈ script, a = Answer.device) ∧ sent trace = sent s.trace ++ writeSent s.cfg s.cur [] ∧
      (s.dev.model.emptyWrite = .unchanged → w = false ∧ l = true) ∧
      (s.dev.model.emptyWrite = .disarming → w = false ∧ l = false) ∧
      (s.dev.model.emptyWrite = .cycling → w = true ∧ l = true) ∧
      Runs 5 s { s with
        phase := .wNext, sel := false,
        dev := { s.dev with
          dsel := false, fr := [wireOpcode .write, hiByte s.cur, loByte s.cur], ign := false, wip := w, wel := l, cycle := c },
        trace := trace, script := script, draws := draws, cycles := cs, cycleCount := n } := by
  obtain ⟨tr, d, sc, q, e, r⟩ := run_writeHead hp hw hq
  rw [if_pos hr] at r
  obtain ⟨w, l, c, cs, n, hc, h1, h2, h3⟩ := commitEmpty_eq { s with
    phase := .wDesel, sel := true,
    dev := { s.dev with dsel := false, fr := [wireOpcode .write, hiByte s.cur, loByte s.cur], ign := false },
    trace := tr, script := sc, draws := d }
  refine ⟨tr ++ [.desel s.cfg.csId], d, sc, w, l, c, cs, n, q, ?_, fun x => ⟨(h1 x).1.trans hw, (h1 x).2.trans hl⟩,
    fun x => ⟨(h2 x).1.trans hw, (h2 x).2⟩, fun x => ⟨(h3 x).1, (h3 x).2.trans hl⟩, ?_⟩
  · simp only [sent, List.map_append] at e ⊢
    rw [e]; simp [writeSent, frameSent, sentOf]
  · refine Runs.append (m := 4) (n := 0 + 1) r
      (run_desel (p := .wNext) (by exact hw) rfl (deselect_writeEmpty rfl rfl hl) rfl ?_)
    exact (congrArg (fun x : State => { x with trace := x.trace ++ [Event.desel x.cfg.csId], phase := .wNext, sel := false }) hc)

end Sys2Proof.Machine
end

