-- ==== Sys2Proof/Laws/Operation.lean ====
section
/-! SUPPORT. The invariant of an operation in progress, whatever the transport answers: the frame the device holds, the chunk of a
write, and what a deselect can do to the array. -/

namespace Sys2Proof.Machine

/-- The payload bytes from number `k` to number `n`. -/
def payloadPart (k n : Nat) (s : State) : List Byte := (s.wbuf.take n).drop k

/-- The payload bytes of the chunk that have been sent. -/
def sentChunk (k : Nat) (s : State) : List Byte := payloadPart k s.idx.toNat s

/-- The byte a phase exchanges. -/
def byteSent (s : State) : Option Byte :=
  match s.phase with
  | .pOp => some (wireOpcode .rdsr)
  | .eOp => some (wireOpcode .wren)
  | .wOp => some (wireOpcode .write)
  | .rOp => some (wireOpcode .read)
  | .pDummy | .rData => some s.cfg.dummy
  | .wAh => some (hiByte s.cur)
  | .wAl => some (loByte s.cur)
  | .wData => s.wbuf[s.idx.toNat]?
  | .rAh => some (hiByte s.addr)
  | .rAl => some (loByte s.addr)
  | _ => none

/-- The frame the device holds is the sequencer's own, as far as it has been sent. -/
def heldFrame (k : Nat) (s : State) : Prop :=
  match s.phase with
  | .pOp | .eOp | .wOp | .rOp => s.dev.fr = []
  | .pDummy => s.dev.fr = [0x05]
  | .pDesel => s.dev.fr = [0x05, s.cfg.dummy]
  | .eDesel => s.dev.fr = [0x06]
  | .wAh => s.dev.fr = [0x02]
  | .wAl => s.dev.fr = [0x02, hiByte s.cur]
  | .wData | .wDesel => s.dev.fr = 0x02 :: hiByte s.cur :: loByte s.cur :: sentChunk k s
  | .rAh => s.dev.fr = [0x03]
  | .rAl => s.dev.fr = [0x03, hiByte s.addr]
  | .rData | .rDesel => ∃ d, s.dev.fr = 0x03 :: hiByte s.addr :: loByte s.addr :: d
  | .xDesel => s.dev.fr = [] ∨ (∃ r, s.dev.fr = 0x05 :: r) ∨ (∃ r, s.dev.fr = 0x06 :: r) ∨ (∃ r, s.dev.fr = 0x03 :: r) ∨
      s.dev.fr = [0x02] ∨ s.dev.fr = [0x02, hiByte s.cur] ∨
      ((hostOpOf s.op = some .wrbyte ∨ hostOpOf s.op = some .write) ∧
        ∃ n, s.dev.fr = 0x02 :: hiByte s.cur :: loByte s.cur :: payloadPart k n s)
  | _ => True

/-- The chunk in progress: `CUR` is the page counter's place of payload byte `k`, and the chunk ends at the page's end at the latest
(spec/42_addressing_engine.md R181, R187). -/
structure Chunk (k : Nat) (s : State) : Prop where
  le : k ≤ s.idx.toNat
  total : s.idx.toNat + s.run.toNat + s.rem.toNat = s.wbuf.length
  small : s.wbuf.length < 2 ^ 16
  inside : s.addr.toNat ≤ lastAddr s.cfg
  page : pageBase s.cfg s.cur.toNat = pageBase s.cfg s.addr.toNat
  off : s.cur.toNat % s.cfg.pageSize.toNat = (s.addr.toNat % s.cfg.pageSize.toNat + k) % s.cfg.pageSize.toNat
  fits : s.cur.toNat % s.cfg.pageSize.toNat + (s.idx.toNat - k) + s.run.toNat ≤ s.cfg.pageSize.toNat
  full : s.rem ≠ 0 → s.cur.toNat % s.cfg.pageSize.toNat + (s.idx.toNat - k) + s.run.toNat = s.cfg.pageSize.toNat

/-- The phases of a chunk before its first data byte. -/
def beforeData : Phase → Bool
  | .pDelay | .pSel | .pOp | .pDummy | .pDesel | .pTest | .eSel | .eOp | .eDesel | .eDelay | .wSel | .wOp | .wAh | .wAl => true
  | _ => false

/-- The two operations that write. -/
def isWrite (o : HostOp) : Bool := o == .wrbyte || o == .write

/-- What holds while operation `o` runs, whatever the transport answers; the chunk in progress starts at payload byte `k`. -/
structure Running (o : HostOp) (k : Nat) (s : State) : Prop where
  legal : isWrite o = true → configLegal s.cfg = true
  op : hostOpOf s.op = some o
  belongs : opInv s.phase (some o) = true
  sel : s.sel = selectedPhase s.phase
  dsel : s.sel = true → s.dev.dsel = true
  fr : heldFrame k s
  count : countInv s.phase s.run s.rem = true
  payload : s.phase = .decode → payloadInv s
  ch : isWrite o = true → s.phase ≠ .decode → s.phase ≠ .idle → s.phase ≠ .resp → Chunk k s
  start : isWrite o = true → beforeData s.phase = true → s.idx.toNat = k

/-- The device's own turn keeps the invariant. -/
theorem Running.turn {o k s} (h : Running o k s) : Running o k (cycleTick s) := by
  obtain ⟨a, b, c, d, e, f, g, p, i, j⟩ := h
  exact ⟨a, b, c, d, e, f, g, p, fun x y z w => ⟨(i x y z w).le, (i x y z w).total, (i x y z w).small, (i x y z w).inside,
      (i x y z w).page, (i x y z w).off, (i x y z w).fits, (i x y z w).full⟩, j⟩

/-- A change of phase that leaves the registers of the write path as they are. -/
theorem Running.move {o k} {s t : State} (h : Running o k s) (hc : t.cfg = s.cfg) (ho : t.op = s.op) (hb : opInv t.phase
    (some o) = true)
   (hs : t.sel = selectedPhase t.phase) (hd : t.sel = true → t.dev.dsel = true) (hh : heldFrame k t) (hcount :
       countInv t.phase t.run t.rem = true)
   (ha : t.addr = s.addr) (hw : t.wbuf = s.wbuf) (hcur : t.cur = s.cur) (hrun : t.run = s.run) (hrem : isWrite o = true →
       t.rem = s.rem) (hidx : t.idx = s.idx)
   (hp : s.phase ≠ .decode) (hi : s.phase ≠ .idle) (hr : s.phase ≠ .resp) (hp' : t.phase ≠ .decode) (hst :
       beforeData t.phase = true → beforeData s.phase = true) : Running o k t := by
  refine ⟨hc ▸ h.legal, ho ▸ h.op, hb, hs, hd, hh, hcount, fun e => absurd e hp', ?_, ?_⟩
  · intro x _ _ _
    have c := h.ch x hp hi hr
    have hrem := hrem x
    exact ⟨by rw [hidx]; exact c.le, by rw [hidx, hrun, hrem, hw]; exact c.total, by rw [hw]; exact c.small, by rw [ha, hc]; exact c.inside,
      by rw [hc, hcur, ha]; exact c.page, by rw [hc, hcur, ha]; exact c.off, by rw [hc, hcur, hidx, hrun]; exact c.fits,
      by rw [hc, hcur, hidx, hrun, hrem]; exact c.full⟩
  · intro x y
    rw [hidx]; exact h.start x (hst y)

/-- Sending the next payload byte. -/
theorem payloadPart_succ {k n : Nat} {s : State} {x : Byte} (hk : k ≤ n) (hx : s.wbuf[n]? = some x) :
    payloadPart k (n + 1) s = payloadPart k n s ++ [x] := by
  have lt : n < s.wbuf.length := (List.getElem?_eq_some_iff.1 hx).1
  unfold payloadPart
  rw [List.take_add_one, hx, List.drop_append_of_le_length]
  · rfl
  · rw [List.length_take]; omega

/-- Where a frame is broken off, the device holds the part of it that was sent, with the byte of the failed exchange or without. -/
theorem held_at_error {o k s} {tx : Byte} (h : Running o k s) (hb : byteSent s = some tx) {t : State} (hp : t.phase = .xDesel)
    (h1 : t.dev.fr = s.dev.fr ∨ t.dev.fr = s.dev.fr ++ [tx]) (h2 : t.cur = s.cur) (h3 : t.wbuf = s.wbuf) (h5 : t.op = s.op) :
    heldFrame k t := by
  have f := h.fr
  have b := h.belongs
  have hop := h.op
  have le : s.phase = .wAl ∨ s.phase = .wData → k ≤ s.idx.toNat := by
    intro x
    have ow : isWrite o = true := by rcases x with x | x <;> rw [x] at b <;> simpa [opInv, isWrite] using b
    exact (h.ch ow (by rcases x with x | x <;> rw [x] <;> simp) (by rcases x with x | x <;> rw [x] <;> simp)
      (by rcases x with x | x <;> rw [x] <;> simp)).le
  have st : s.phase = .wAl → k = s.idx.toNat := by
    intro x
    have ow : isWrite o = true := by rw [x] at b; simpa [opInv, isWrite] using b
    exact (h.start ow (by rw [x]; rfl)).symm
  unfold heldFrame at f ⊢
  rw [hp]
  simp only [h2, h5, show ∀ n, payloadPart k n t = payloadPart k n s from fun n => by unfold payloadPart; rw [h3]]
  have data : ∀ n, (s.phase = .wAl ∨ s.phase = .wData) → t.dev.fr = 0x02 :: hiByte s.cur :: loByte s.cur :: payloadPart k n s →
      (hostOpOf s.op = some .wrbyte ∨ hostOpOf s.op = some .write) ∧
        ∃ n, t.dev.fr = 0x02 :: hiByte s.cur :: loByte s.cur :: payloadPart k n s := by
    intro n x y
    refine ⟨?_, n, y⟩
    rw [hop]
    rcases x with x | x <;> rw [x] at b <;> simpa [opInv] using b
  unfold byteSent at hb
  cases e : s.phase <;> rw [e] at f hb b <;> simp only [Option.some.injEq, reduceCtorEq] at hb <;> simp only at f
  case pOp => rcases h1 with x | x <;> rw [x, f]; exact .inl rfl; exact .inr (.inl ⟨[], by rw [← hb]; rfl⟩)
  case pDummy => rcases h1 with x | x <;> rw [x, f] <;> exact .inr (.inl ⟨_, rfl⟩)
  case eOp => rcases h1 with x | x <;> rw [x, f]; exact .inl rfl; exact .inr (.inr (.inl ⟨[], by rw [← hb]; rfl⟩))
  case wOp =>
    rcases h1 with x | x <;> rw [x, f]
    · exact .inl rfl
    · exact .inr (.inr (.inr (.inr (.inl (by rw [← hb]; rfl)))))
  case rOp => rcases h1 with x | x <;> rw [x, f]; exact .inl rfl; exact .inr (.inr (.inr (.inl ⟨[], by rw [← hb]; rfl⟩)))
  case wAh =>
    rcases h1 with x | x <;> rw [x, f]
    · exact .inr (.inr (.inr (.inr (.inl rfl))))
    · exact .inr (.inr (.inr (.inr (.inr (.inl (by rw [← hb]; rfl))))))
  case wAl =>
    rcases h1 with x | x
    · rw [x, f]; exact .inr (.inr (.inr (.inr (.inr (.inl rfl)))))
    · refine .inr (.inr (.inr (.inr (.inr (.inr (data s.idx.toNat (.inl e) ?_))))))
      have : payloadPart k s.idx.toNat s = [] := by
        rw [← st e]; unfold payloadPart; simp
      rw [this, x, f, ← hb]; rfl
  case wData =>
    rcases h1 with x | x
    · exact .inr (.inr (.inr (.inr (.inr (.inr (data s.idx.toNat (.inr e) (x.trans f)))))))
    · refine .inr (.inr (.inr (.inr (.inr (.inr (data (s.idx.toNat + 1) (.inr e) ?_))))))
      rw [payloadPart_succ (le (.inr e)) hb, x, f]; rfl
  case rAh => rcases h1 with x | x <;> rw [x, f] <;> exact .inr (.inr (.inr (.inl ⟨_, rfl⟩)))
  case rAl => rcases h1 with x | x <;> rw [x, f] <;> exact .inr (.inr (.inr (.inl ⟨_, rfl⟩)))
  case rData =>
    obtain ⟨d, f⟩ := f
    rcases h1 with x | x <;> rw [x, f] <;> exact .inr (.inr (.inr (.inl ⟨_, rfl⟩)))

/-- A phase that exchanges a byte is inside a frame. -/
theorem byteSent_selected {s : State} {tx : Byte} (h : byteSent s = some tx) : selectedPhase s.phase = true := by
  unfold byteSent at h
  cases e : s.phase <;> rw [e] at h <;> first | rfl | cases h

/-- An exchange answered `ERR` keeps it, whatever the device's parameters (spec/60_exceptions.md R214). -/
theorem Running.raised {o k s} {tx : Byte} (h : Running o k s) (hb : byteSent s = some tx) {t : State} {c}
    (h0 : t = { s with dev := deviceFail tx s.dev, script := t.script, trace := t.trace }) : Running o k (raise c t) := by
  have hs := byteSent_selected hb
  have sel : s.sel = true := h.sel.trans hs
  have np : s.phase ≠ .decode ∧ s.phase ≠ .idle ∧ s.phase ≠ .resp := by
    refine ⟨?_, ?_, ?_⟩ <;> intro e <;> rw [e] at hs <;> cases hs
  have ph : (raise c t).phase = .xDesel := by rw [h0]; simp [raise, sel]
  have fr : (raise c t).dev.fr = s.dev.fr ∨ (raise c t).dev.fr = s.dev.fr ++ [tx] := by
    obtain ⟨fr, ign, wel, e, x⟩ := deviceFail_eq tx s.dev
    rw [h0]; simp only [raise]; rw [e]; exact x
  refine h.move ?_ ?_ ?_ ?_ ?_ (held_at_error h hb ph fr ?_ ?_ ?_) ?_ ?_ ?_ ?_ ?_ ?_ ?_ np.1 np.2.1 np.2.2
      (by rw [ph]; simp) (by rw [ph]; simp [beforeData])
  all_goals first
    | (rw [h0]; rfl)
    | skip
  · rw [ph]; rfl
  · rw [ph, h0]; exact sel
  · intro _; rw [h0]; exact (deviceFail_dsel tx s.dev).trans (h.dsel sel)
  · rw [ph]; rfl
  · rw [h0]; intro _; rfl

/-- A selected device takes every byte into its frame. -/
theorem deviceTake_fr {tx} {d : Device} (h : d.dsel = true) : (deviceTake tx d).fr = d.fr ++ [tx] :=
    by unfold deviceTake; rw [if_pos h]

/-- A phase that sends one byte of a frame keeps it, and the array. -/
theorem Running.send {o k s} {tx : Byte} {p : Phase} (h : Running o k s) (hx : byteSent s = some tx) (hp :
    selectedPhase p = true)
  (hb : opInv p (some o) = true) (hc : countInv p s.run s.rem = true) (hst : beforeData p = true → beforeData s.phase = true)
      (hpd : p ≠ .decode)
  (hh : ∀ t : State, t.phase = p → t.dev.fr = s.dev.fr ++ [tx] → t.cfg = s.cfg → t.cur = s.cur → t.wbuf = s.wbuf →
      t.idx = s.idx → t.addr = s.addr → t.op = s.op → heldFrame k t) :
  Running o k (sendByte tx p s) ∧ (sendByte tx p s).dev.mem = s.dev.mem := by
  have hs := byteSent_selected hx
  have sel : s.sel = true := h.sel.trans hs
  have np : s.phase ≠ .decode ∧ s.phase ≠ .idle ∧ s.phase ≠ .resp := by
    refine ⟨?_, ?_, ?_⟩ <;> intro e <;> rw [e] at hs <;> cases hs
  obtain e | ⟨r, d, hr, e⟩ := sendByte_cases tx p s
  · rw [e]; exact ⟨h.raised hx rfl, deviceFail_mem _ _⟩
  · rw [e]
    refine ⟨h.move rfl rfl hb (sel.trans hp.symm) (fun _ => ?_) (hh _ rfl (deviceTake_fr
        (h.dsel sel)) rfl rfl rfl rfl rfl rfl) hc rfl rfl rfl rfl (fun _ => rfl) rfl np.1 np.2.1 np.2.2 hpd hst,
        deviceTake_mem _ _⟩
    rw [deviceTake_dsel]; exact h.dsel sel

/-- A phase that selects the device keeps it. -/
theorem Running.select {o k s} {p : Phase} (h : Running o k s) (hs : beforeData s.phase = true ∨ isWrite o = false ∧
    s.phase ≠ .decode ∧ s.phase ≠ .idle ∧ s.phase ≠ .resp)
  (hp : p = .pOp ∨ p = .eOp ∨ p = .wOp ∨ p = .rOp) (hb : opInv p (some o) = true) (hst : beforeData p = true →
      beforeData s.phase = true) :
  Running o k (doSelect p s) := by
  have np : s.phase ≠ .decode ∧ s.phase ≠ .idle ∧ s.phase ≠ .resp := by
    rcases hs with hs | hs
    · refine ⟨?_, ?_, ?_⟩ <;> intro e <;> rw [e] at hs <;> cases hs
    · exact hs.2
  refine h.move rfl rfl hb ?_ (fun _ => rfl) ?_ ?_ rfl rfl rfl rfl (fun _ => rfl) rfl np.1 np.2.1 np.2.2 ?_ hst
  all_goals rcases hp with rfl | rfl | rfl | rfl <;> first | rfl | simp [doSelect, goto]

/-- A phase outside a frame that only moves on keeps it. -/
theorem Running.goto {o k s} {p : Phase} {t : State} (h : Running o k s) (hs : beforeData s.phase = true ∨ s.phase = .wNext ∨
    s.phase = .rDesel)  (hsel : selectedPhase s.phase = false)
  (hp : selectedPhase p = false) (hpd : p ≠ .decode) (hb : opInv p (some o) = true) (hc : countInv p s.run s.rem = true) (hst :
      beforeData p = true → beforeData s.phase = true)
  (e : t = { s with phase := p, trace := t.trace, err := t.err, rbuf := t.rbuf, pcnt := t.pcnt }) : Running o k t := by
  have np : s.phase ≠ .decode ∧ s.phase ≠ .idle ∧ s.phase ≠ .resp := by
    rcases hs with hs | hs | hs
    · refine ⟨?_, ?_, ?_⟩ <;> intro e <;> rw [e] at hs <;> cases hs
    · rw [hs]; simp
    · rw [hs]; simp
  have sel : s.sel = false := h.sel.trans hsel
  rw [e]
  refine h.move rfl rfl hb (sel.trans hp.symm) (fun x => absurd x (by simp [sel])) ?_ hc rfl rfl rfl rfl
      (fun _ => rfl) rfl np.1 np.2.1 np.2.2 hpd hst
  cases p <;> first | trivial | cases hp

/-- A deselect keeps it; the array changes only where the frame of a chunk is committed, and then by bytes of that chunk: those sent,
and after an error the byte of the failed exchange besides if the device has received it. -/
theorem Running.desel {o k s t} {p : Phase} (h : Running o k s) (nw : s.phase ≠ .wData) (hs : selectedPhase s.phase = true)
    (hp : selectedPhase p = false) (hpd : p ≠ .decode) (hb : opInv p (some o) = true)
    (hc : countInv p s.run s.rem = true) (hst : beforeData p = true → beforeData s.phase = true) (e : doDeselect p s = .next t) :
    Running o k t ∧ t.phase = p ∧ (t.dev.mem = s.dev.mem ∨ (isWrite o = true ∧ (s.phase = .wDesel ∨ s.phase = .xDesel) ∧
      ∃ n, (s.phase = .wDesel → n = s.idx.toNat) ∧ payloadPart k n s ≠ [] ∧
        t.dev.mem = storePage s.cfg (deviceAddr s.cfg s.cur) 0 (payloadPart k n s) s.dev.mem)) := by
  have np : s.phase ≠ .decode ∧ s.phase ≠ .idle ∧ s.phase ≠ .resp := by
    refine ⟨?_, ?_, ?_⟩ <;> intro e <;> rw [e] at hs <;> cases hs
  obtain ⟨u, hu, rfl⟩ := doDeselect_cases e
  have hh : ∀ t : State, t.phase = p → heldFrame k t := by
    intro t ht
    unfold heldFrame
    rw [ht]
    cases p <;> first | trivial | cases hp
  obtain ⟨w, rfl⟩ | ⟨op, ah, al, c, cs, n, _, _, _, rfl⟩ | ⟨op, ah, al, b, bs, c, cs, n, hf, hop, _, _, _, rfl⟩ :=
    deviceDeselect_cases hu
  · refine ⟨h.move rfl rfl hb hp.symm (fun x => by cases x) (hh _ rfl) hc rfl rfl rfl rfl
      (fun _ => rfl) rfl np.1 np.2.1 np.2.2 hpd hst, rfl, .inl rfl⟩
  · refine ⟨h.move rfl rfl hb hp.symm (fun x => by cases x) (hh _ rfl) hc rfl rfl rfl rfl
      (fun _ => rfl) rfl np.1 np.2.1 np.2.2 hpd hst, rfl, .inl rfl⟩
  · refine ⟨h.move rfl rfl hb hp.symm (fun x => by cases x) (hh _ rfl) hc rfl rfl rfl rfl
      (fun _ => rfl) rfl np.1 np.2.1 np.2.2 hpd hst, rfl, .inr ?_⟩
    have f := h.fr
    have bl := h.belongs
    unfold heldFrame at f
    have five : wireOpOf 0x05 = some .rdsr := by decide
    have six : wireOpOf 0x06 = some .wren := by decide
    have three : wireOpOf 0x03 = some .read := by decide
    cases e :
        s.phase <;> rw [e] at f hs bl <;> simp only [selectedPhase, Bool.false_eq_true] at hs <;> simp only [hf, List.cons.injEq, reduceCtorEq, and_false, false_and] at f
    case wDesel =>
      obtain ⟨rfl, rfl, rfl, f⟩ := f
      refine ⟨by simpa [opInv, isWrite] using bl, .inl rfl, s.idx.toNat, fun _ => rfl, ?_, ?_⟩
      · rw [show payloadPart k s.idx.toNat s = b :: bs from f.symm]; simp
      · rw [show payloadPart k s.idx.toNat s = b :: bs from f.symm]; simp
    case wData => exact absurd e nw
    case rData => obtain ⟨_, rfl, _⟩ := f; rw [three] at hop; cases hop
    case rDesel => obtain ⟨_, rfl, _⟩ := f; rw [three] at hop; cases hop
    case xDesel =>
      simp only [exists_and_left, false_or] at f
      obtain ⟨rfl, _⟩ | ⟨rfl, _⟩ | ⟨rfl, _⟩ | ⟨ho, rfl, rfl, rfl, n, f⟩ := f
      · rw [five] at hop; cases hop
      · rw [six] at hop; cases hop
      · rw [three] at hop; cases hop
      · refine ⟨?_, .inr rfl, n, (fun x => by cases x), ?_, ?_⟩
        · rw [h.op] at ho; simpa [isWrite] using ho
        · rw [← f]; simp
        · rw [← f]; simp

/-- What a legal configuration says of the two sizes (spec/70_reset_and_hazards.md R246). -/
theorem configLegal_sizes {c : Config} (h : configLegal c = true) : 0 < c.pageSize.toNat ∧ 0 < c.addrSpaceSize.toNat ∧
    c.pageSize.toNat ∣ c.addrSpaceSize.toNat ∧ c.pageSize.toNat ≤ 2^16 := by
  simp only [configLegal, Bool.and_eq_true, isPowerOfTwo, List.any_eq_true, beq_iff_eq, decide_eq_true_eq, List.mem_range] at h
  obtain ⟨⟨⟨⟨⟨⟨a, la, ha⟩, ⟨b, _, hb⟩⟩, le⟩, _⟩, _⟩, _⟩ := h
  rw [ha, hb] at le
  rw [ha, hb]
  exact ⟨by positivity, by positivity, Nat.pow_dvd_pow 2 ((Nat.pow_le_pow_iff_right (a := 2) (by omega)).1 le), Nat.pow_le_pow_right (by omega) (by omega)⟩

/-- `DECODE` sets up the first chunk, or raises (spec/42_addressing_engine.md R186). -/
theorem Running.decode {o k s} (h : Running o k s) (hp : s.phase = .decode) :
   ∃ k', Running o k' (stepDecode s) ∧ (stepDecode s).dev = s.dev ∧ (stepDecode s).script = s.script ∧
    (((stepDecode s).phase = .resp ∧ (stepDecode s).err ≠ .ok ∧ (stepDecode s).rbuf = []) ∨ ((stepDecode s).phase = .pDelay ∧
        (stepDecode s).err = s.err ∧ (stepDecode s).rbuf = s.rbuf ∧
      (isWrite o = true → k' = 0) ∧ (o = .read → (stepDecode s).rem = s.len) ∧ (o = .rdbyte → (stepDecode s).rem = 1))) := by
  have sel : s.sel = false := by rw [h.sel, hp]; rfl
  have pay := h.payload hp
  unfold payloadInv at pay
  rw [h.op] at pay
  have raised : ∀ c (t : State), c ≠ .ok → t = { s with len := t.len } → Running o 0 (raise c t) ∧ (raise c t).dev = s.dev ∧
      (raise c t).script = s.script ∧ (raise c t).phase = .resp ∧ (raise c t).err ≠ .ok ∧ (raise c t).rbuf = [] := by
    intro c t hc ht
    have ph : (raise c t).phase = .resp := by rw [ht]; simp [raise, sel]
    refine ⟨⟨?_, ?_, ?_, ?_, ?_, ?_, ?_, ?_, ?_, ?_⟩, ?_, ?_, ph, hc, rfl⟩
    · rw [ht]; exact h.legal
    · rw [ht]; exact h.op
    · rw [ph]; rfl
    · rw [ph]; rw [ht]; exact sel
    · rw [ht]; intro x; simp [raise, sel] at x
    · unfold heldFrame; rw [ph]; trivial
    · rw [ph]; rfl
    · intro x; rw [ph] at x; cases x
    · intro _ _ _ x; exact absurd ph x
    · intro _ x; rw [ph] at x; cases x
    · rw [ht]; rfl
    · rw [ht]; rfl
  have waits : ∀ (t : State), isWrite o = false → t = { s with len := t.len, rem := t.rem } → Running o 0 (startWait t) := by
    intro t ho ht
    rw [ht]
    refine ⟨h.legal, h.op, ?_, sel, ?_, trivial, rfl, ?_, ?_, ?_⟩
    · rfl
    · intro x; simp [startWait, sel] at x
    · intro x; cases x
    · intro x; rw [ho] at x; cases x
    · intro x; rw [ho] at x; cases x
  have rd : ∀ t : State, t = { s with len := t.len } → isWrite o = false → ∃ k', Running o k' (setupRead t) ∧
      (setupRead t).dev = s.dev ∧ (setupRead t).script = s.script ∧
      (((setupRead t).phase = .resp ∧ (setupRead t).err ≠ .ok ∧ (setupRead t).rbuf = []) ∨ ((setupRead t).phase = .pDelay ∧
          (setupRead t).err = s.err ∧ (setupRead t).rbuf = s.rbuf ∧
      (isWrite o = true → k' = 0) ∧ (setupRead t).rem = t.len)) := by
    intro t ht ho
    unfold setupRead
    split
    · obtain ⟨a, b, c, d, e, f⟩ := raised .invalidAddress t (by simp) ht
      exact ⟨0, a, b, c, .inl ⟨d, e, f⟩⟩
    · refine ⟨0, waits _ ho (by conv_lhs => rw [ht]), by rw [ht]; rfl, by rw [ht]; rfl, .inr ⟨rfl, by rw [ht]; rfl,
        by rw [ht]; rfl, fun _ => rfl, rfl⟩⟩
  have wr : ∀ t : State, t = { s with len := t.len } → (o = .wrbyte ∨ o = .write) → s.wbuf.length = t.len.toNat → ∃ k',
      Running o k' (setupWrite t) ∧ (setupWrite t).dev = s.dev ∧ (setupWrite t).script = s.script ∧
      (((setupWrite t).phase = .resp ∧ (setupWrite t).err ≠ .ok ∧ (setupWrite t).rbuf = []) ∨ ((setupWrite t).phase = .pDelay ∧
          (setupWrite t).err = s.err ∧ (setupWrite t).rbuf = s.rbuf ∧
      (isWrite o = true → k' = 0) )) := by
    intro t ht ho hlen
    obtain ⟨hP, hS, hd, hP16⟩ := configLegal_sizes (h.legal (by rcases ho with rfl | rfl <;> rfl))
    have e1 : t.cfg = s.cfg := by rw [ht]
    have e2 : t.addr = s.addr := by rw [ht]
    have ll := t.len.isLt
    have mr : maxRun s.cfg s.addr + s.addr.toNat % s.cfg.pageSize.toNat = s.cfg.pageSize.toNat := by
      unfold maxRun; have := Nat.mod_lt s.addr.toNat hP; omega
    have chunked : ∀ (run : BitVec 17) (rem : Half), s.addr.toNat ≤ lastAddr s.cfg → run.toNat + rem.toNat = t.len.toNat →
        run.toNat ≤ maxRun s.cfg s.addr → (rem ≠ 0 → run.toNat = maxRun s.cfg s.addr) →
        Running o 0 (startWait { t with cur := t.addr, run := run, rem := rem, idx := 0 }) := by
      intro run rem ha hs hr hf
      rw [ht]
      refine ⟨h.legal, h.op, rfl, sel, ?_, trivial, rfl, ?_, ?_, ?_⟩
      · intro x; simp [startWait, sel] at x
      · intro x; cases x
      · intro _ _ _ _
        refine ⟨Nat.zero_le _, ?_, ?_, ha, rfl, ?_, ?_, ?_⟩
        · simp [startWait]; omega
        · simp [startWait]; omega
        · simp [startWait]
        · simp [startWait]; omega
        · intro x; have := hf x; simp [startWait]; omega
      · intro _ _; rfl
    unfold setupWrite
    simp only [e1, e2]
    split
    · obtain ⟨a, b, c, d, e, f⟩ := raised .invalidAddress t (by simp) ht
      exact ⟨0, a, b, c, .inl ⟨d, e, f⟩⟩
    next hx =>
    split
    · next hm =>
      refine ⟨0, ?_, by rw [ht]; rfl, by rw [ht]; rfl, .inr ⟨rfl, by rw [ht]; rfl, by rw [ht]; rfl, fun _ => rfl⟩⟩
      have := chunked (BitVec.ofNat 17 t.len.toNat) 0 (by omega) (by simp; omega) (by simp; omega) (by simp)
      rw [e2, e1] at this; exact this
    · next hm =>
      split
      · obtain ⟨a, b, c, d, e, f⟩ := raised .invalidWriteSpan t (by simp) ht
        exact ⟨0, a, b, c, .inl ⟨d, e, f⟩⟩
      · refine ⟨0, ?_, by rw [ht]; rfl, by rw [ht]; rfl, .inr ⟨rfl, by rw [ht]; rfl, by rw [ht]; rfl, fun _ => rfl⟩⟩
        have m16 : maxRun s.cfg s.addr < 2^17 := by omega
        have em : (BitVec.ofNat 17 (maxRun s.cfg s.addr)).toNat = maxRun s.cfg s.addr := by simp; omega
        have en : (BitVec.ofNat 16 (t.len.toNat - maxRun s.cfg s.addr)).toNat = t.len.toNat - maxRun s.cfg s.addr :=
            by simp; omega
        have := chunked (BitVec.ofNat 17 (maxRun s.cfg s.addr)) (BitVec.ofNat 16 (t.len.toNat - maxRun s.cfg s.addr))
            (by omega) (by omega) (by omega) (fun _ => em)
        rw [e2, e1] at this; exact this
  unfold stepDecode
  rw [h.op]
  cases o with
  | wait => exact ⟨0, waits _ rfl rfl, rfl, rfl, .inr ⟨rfl, rfl, rfl, by simp [isWrite], by simp, by simp⟩⟩
  | wren => exact ⟨0, waits _ rfl rfl, rfl, rfl, .inr ⟨rfl, rfl, rfl, by simp [isWrite], by simp, by simp⟩⟩
  | rdbyte =>
    obtain ⟨k', a, b, c, d⟩ := rd { s with len := 1 } rfl rfl
    exact ⟨k', a, b, c, d.imp_right fun ⟨x1, x2, x3, x4, x5⟩ => ⟨x1, x2, x3, x4, by simp, fun _ => x5⟩⟩
  | read =>
    obtain ⟨k', a, b, c, d⟩ := rd s rfl rfl
    exact ⟨k', a, b, c, d.imp_right fun ⟨x1, x2, x3, x4, x5⟩ => ⟨x1, x2, x3, x4, fun _ => x5, by simp⟩⟩
  | wrbyte =>
    obtain ⟨k', a, b, c, d⟩ := wr { s with len := 1 } rfl (.inl rfl) (by simpa using pay)
    exact ⟨k', a, b, c, d.imp_right fun ⟨x1, x2, x3, x4⟩ => ⟨x1, x2, x3, x4, by simp, by simp⟩⟩
  | write =>
    obtain ⟨k', a, b, c, d⟩ := wr s rfl (.inr rfl) (by simpa using pay)
    exact ⟨k', a, b, c, d.imp_right fun ⟨x1, x2, x3, x4⟩ => ⟨x1, x2, x3, x4, by simp, by simp⟩⟩

/-- `W_NEXT` ends the write, or sets up the next chunk at the base of the same page (spec/42_addressing_engine.md R187). -/
theorem Running.next {o k s} (h : Running o k s) (hp : s.phase = .wNext) :
   ∃ k', Running o k' (stepWNext s) ∧ (stepWNext s).dev = s.dev ∧ (stepWNext s).script = s.script ∧ (stepWNext s).err = s.err ∧
       (stepWNext s).rbuf = s.rbuf ∧
    (((stepWNext s).phase = .resp ∧ s.rem = 0 ∧ s.idx.toNat = s.wbuf.length) ∨ ((stepWNext s).phase = .pDelay ∧
        k' = s.idx.toNat)) := by
  have sel : s.sel = false := by rw [h.sel, hp]; rfl
  have b := h.belongs
  rw [hp] at b
  have ow : isWrite o = true := by simpa [opInv, isWrite] using b
  obtain ⟨hP, hS, hd, hP16⟩ := configLegal_sizes (h.legal ow)
  have c := h.ch ow (by rw [hp]; simp) (by rw [hp]; simp) (by rw [hp]; simp)
  have r0 : s.run = 0 := by have := h.count; rw [hp] at this; simpa [countInv] using this
  have rn : s.run.toNat = 0 := by rw [r0]; rfl
  unfold stepWNext
  split
  · next hr =>
    refine ⟨k, h.goto (.inr (.inl hp)) (by rw [hp]; rfl) rfl (by simp) rfl rfl (by simp [beforeData]) rfl, rfl, rfl, rfl, rfl,
        .inl ⟨rfl, hr, ?_⟩⟩
    have := c.total
    have : s.rem.toNat = 0 := by rw [hr]; rfl
    omega
  · next hr =>
    have hf := c.full hr
    have base : pageBase s.cfg s.cur.toNat < 2^16 := by unfold pageBase; have := s.cur.isLt; omega
    have baseN : (BitVec.ofNat 16 (pageBase s.cfg s.cur.toNat)).toNat = pageBase s.cfg s.cur.toNat := by simp; omega
    have bm : pageBase s.cfg s.cur.toNat % s.cfg.pageSize.toNat = 0 := by
      unfold pageBase
      rw [← Nat.div_add_mod s.cur.toNat s.cfg.pageSize.toNat]; simp
    have rl := s.rem.isLt
    have runN : (BitVec.ofNat 17 (min s.rem.toNat s.cfg.pageSize.toNat)).toNat = min s.rem.toNat s.cfg.pageSize.toNat :=
        by simp; omega
    have remN : (BitVec.ofNat 16
        (s.rem.toNat - min s.rem.toNat s.cfg.pageSize.toNat)).toNat = s.rem.toNat - min s.rem.toNat s.cfg.pageSize.toNat :=
        by simp; omega
    refine ⟨s.idx.toNat, ⟨h.legal, h.op, rfl, sel, ?_, trivial, rfl, ?_, ?_, fun _ _ => rfl⟩, rfl, rfl, rfl, rfl, .inr ⟨rfl,
        rfl⟩⟩
    · intro x; simp [startWait, sel] at x
    · intro x; cases x
    · intro _ _ _ _
      have tot := c.total
      have sm := c.small
      refine ⟨Nat.le_refl _, ?_, c.small, c.inside, ?_, ?_, ?_, ?_⟩
      · simp only [startWait, runN, remN]; omega
      · simp only [startWait, baseN]
        rw [← c.page]; unfold pageBase at bm ⊢; omega
      · simp only [startWait, baseN, bm]
        have off := c.off
        have le := c.le
        -- (A + idx) % P = 0
        have : (s.addr.toNat % s.cfg.pageSize.toNat + s.idx.toNat) % s.cfg.pageSize.toNat = 0 := by
          have e1 : s.addr.toNat % s.cfg.pageSize.toNat + s.idx.toNat = (s.addr.toNat % s.cfg.pageSize.toNat + k) +
              (s.idx.toNat - k) := by omega
          rw [e1, ← Nat.mod_add_mod, ← off, show s.cur.toNat % s.cfg.pageSize.toNat +
              (s.idx.toNat - k) = s.cfg.pageSize.toNat by omega, Nat.mod_self]
        omega
      · simp only [startWait, baseN, bm, runN]; omega
      · intro x
        simp only [startWait, baseN, bm, runN]
        have : (BitVec.ofNat 16 (s.rem.toNat - min s.rem.toNat s.cfg.pageSize.toNat)).toNat ≠ 0 := fun e => x
            (BitVec.eq_of_toNat_eq e)
        rw [remN] at this
        omega

/-- `W_DATA` adds one payload byte to the frame (spec/41_command_framer.md R154). -/
theorem Running.wdata {o k s t} (h : Running o k s) (hp : s.phase = .wData) (e : stepWData s = .next t) : Running o k t ∧
    t.dev.mem = s.dev.mem := by
  have sel : s.sel = true := by rw [h.sel, hp]; rfl
  have b := h.belongs
  rw [hp] at b
  have ow : isWrite o = true := by simpa [opInv, isWrite] using b
  have c := h.ch ow (by rw [hp]; simp) (by rw [hp]; simp) (by rw [hp]; simp)
  have f := h.fr
  unfold heldFrame at f
  rw [hp] at f
  simp only at f
  unfold stepWData at e
  split at e
  · cases e
  next r0 =>
  split at e
  · cases e
  next x hx =>
  obtain ex | ⟨r, d, hr, ex⟩ := exchange_cases x s
  · rw [ex] at e; simp only [rxByte, Host.Outcome.next.injEq] at e; subst e
    exact ⟨h.raised (tx := x) (by simp [byteSent, hp, hx]) rfl, deviceFail_mem _ _⟩
  · rw [ex] at e
    have et : t = Machine.goto (if s.run - 1 = 0 then .wDesel else .wData) { s with
        dev := deviceTake x s.dev, script := s.script.tail, draws := d, trace := s.trace ++ [.xfer x r], idx := s.idx + 1,
            run := s.run - 1 } := by
      cases r with
      | err => exact absurd rfl hr
      | byte y => simp only [rxByte, Host.Outcome.next.injEq] at e; exact e.symm
      | status y => simp only [rxByte, Host.Outcome.next.injEq] at e; exact e.symm
    clear e
    have tot := c.total
    have sm := c.small
    have le := c.le
    have fits := c.fits
    have full := c.full
    have rl := s.run.isLt
    have rn : (s.run - 1).toNat + 1 = s.run.toNat := by
      have : s.run.toNat ≠ 0 := fun e => r0 (BitVec.eq_of_toNat_eq e)
      bv_omega
    have ix : (s.idx + 1).toNat = s.idx.toNat + 1 := by
      have : s.idx.toNat < s.wbuf.length := by
        by_contra hc
        rw [List.getElem?_eq_none (by omega)] at hx; cases hx
      bv_omega
    have tk : (s.wbuf.take (s.idx.toNat + 1)).drop k = (s.wbuf.take s.idx.toNat).drop k ++ [x] := by
      rw [List.take_add_one, hx]
      rw [List.drop_append_of_le_length]
      · rfl
      · rw [List.length_take]; omega
    have key : ∀ q, (q = .wDesel ∧ s.run - 1 = 0 ∨ q = .wData ∧ s.run - 1 ≠ 0) → Running o k (Machine.goto q { s with
        dev := deviceTake x s.dev, script := s.script.tail, draws := d, trace := s.trace ++ [.xfer x r], idx := s.idx + 1,
            run := s.run - 1 }) := by
      intro q hq
      refine ⟨h.legal, h.op, ?_, ?_, ?_, ?_, ?_, ?_, ?_, ?_⟩
      · rcases hq with ⟨rfl, _⟩ | ⟨rfl, _⟩ <;> exact b
      · rcases hq with ⟨rfl, _⟩ | ⟨rfl, _⟩ <;> exact sel
      · intro _; simp [Machine.goto]; exact h.dsel sel
      · have : (deviceTake x s.dev).fr = 0x02 :: hiByte s.cur :: loByte s.cur :: (s.wbuf.take (s.idx + 1).toNat).drop k := by
          rw [deviceTake_fr (h.dsel sel), f, ix, tk]; rfl
        rcases hq with ⟨rfl, _⟩ | ⟨rfl, _⟩ <;> exact this
      · rcases hq with ⟨rfl, hq⟩ | ⟨rfl, hq⟩
        · simp [countInv, Machine.goto]; simpa using hq
        · simp [countInv, Machine.goto]; simpa using hq
      · rcases hq with ⟨rfl, _⟩ | ⟨rfl, _⟩ <;> intro x <;> cases x
      · intro _ _ _ _
        refine ⟨?_, ?_, sm, c.inside, c.page, c.off, ?_, ?_⟩
        · simp only [Machine.goto, ix]; omega
        · simp only [Machine.goto, ix]; omega
        · simp only [Machine.goto, ix]; omega
        · intro hz; have := full hz; simp only [Machine.goto, ix]; omega
      · rcases hq with ⟨rfl, _⟩ | ⟨rfl, _⟩ <;> intro _ x <;> cases x
    rw [et]
    refine ⟨?_, ?_⟩
    · split
      · next z => exact key _ (.inl ⟨rfl, z⟩)
      · next z => exact key _ (.inr ⟨rfl, z⟩)
    · simp [Machine.goto]

/-- `R_DATA` takes one byte (spec/41_command_framer.md R158). -/
theorem Running.rdata {o k s t} (h : Running o k s) (hp : s.phase = .rData) (e : stepRData s = .next t) : Running o k t ∧
    t.dev.mem = s.dev.mem := by
  have sel : s.sel = true := by rw [h.sel, hp]; rfl
  have b := h.belongs
  rw [hp] at b
  have ow : isWrite o = false := by cases o <;> simp [opInv, isWrite] at b ⊢
  have f := h.fr
  unfold heldFrame at f
  rw [hp] at f
  simp only at f
  unfold stepRData at e
  split at e
  · cases e
  next r0 =>
  obtain ex | ⟨r, d, hr, ex⟩ := exchange_cases s.cfg.dummy s
  · rw [ex] at e; simp only [rxByte, Host.Outcome.next.injEq] at e; subst e
    exact ⟨h.raised (tx := s.cfg.dummy) (by simp [byteSent, hp]) rfl, deviceFail_mem _ _⟩
  · rw [ex] at e
    obtain ⟨y, et⟩ : ∃ y, t = Machine.goto (if s.rem - 1 = 0 then .rDesel else .rData) { s with
        dev := deviceTake s.cfg.dummy s.dev, script := s.script.tail, draws := d, trace := s.trace ++ [.xfer s.cfg.dummy r],
            rbuf := s.rbuf ++ [y], rem := s.rem - 1 } := by
      cases r with
      | err => exact absurd rfl hr
      | byte y => simp only [rxByte, Host.Outcome.next.injEq] at e; exact ⟨_, e.symm⟩
      | status y => simp only [rxByte, Host.Outcome.next.injEq] at e; exact ⟨_, e.symm⟩
    have key : ∀ q, (q = .rDesel ∧ s.rem - 1 = 0 ∨ q = .rData ∧ s.rem - 1 ≠ 0) → Running o k (Machine.goto q { s with
        dev := deviceTake s.cfg.dummy s.dev, script := s.script.tail, draws := d, trace := s.trace ++ [.xfer s.cfg.dummy r],
            rbuf := s.rbuf ++ [y], rem := s.rem - 1 }) := by
      intro q hq
      refine h.move rfl rfl ?_ ?_ ?_ ?_ ?_ rfl rfl rfl rfl (fun x => by rw [ow] at x; cases x) rfl (by rw [hp]; simp)
          (by rw [hp]; simp) (by rw [hp]; simp) ?_ ?_
      · rcases hq with ⟨rfl, _⟩ | ⟨rfl, _⟩ <;> exact b
      · rcases hq with ⟨rfl, _⟩ | ⟨rfl, _⟩ <;> exact sel
      · intro _; simp [Machine.goto]; exact h.dsel sel
      · obtain ⟨dd, f⟩ := f
        have : ∃ d, (deviceTake s.cfg.dummy s.dev).fr = 0x03 :: hiByte s.addr :: loByte s.addr :: d := ⟨dd ++ [s.cfg.dummy],
            by rw [deviceTake_fr (h.dsel sel), f]; rfl⟩
        rcases hq with ⟨rfl, _⟩ | ⟨rfl, _⟩ <;> exact this
      · rcases hq with ⟨rfl, hq⟩ | ⟨rfl, hq⟩
        · rfl
        · simp [countInv, Machine.goto]; simpa using hq
      · rcases hq with ⟨rfl, _⟩ | ⟨rfl, _⟩ <;> simp [Machine.goto]
      · rcases hq with ⟨rfl, _⟩ | ⟨rfl, _⟩ <;> intro x <;> cases x
    rw [et]
    refine ⟨?_, ?_⟩
    · split
      · next z => exact key _ (.inl ⟨rfl, z⟩)
      · next z => exact key _ (.inr ⟨rfl, z⟩)
    · simp [Machine.goto]

/-- The operations that go on from the write-enable procedure to a write frame. -/
theorem write_phases {o} (h : (decide (some o = some HostOp.wren) || decide (some o = some .wrbyte) || decide
    (some o = some .write)) = true) (hn : o ≠ .wren) :
  (decide (some o = some HostOp.wrbyte) || decide (some o = some .write)) = true := by
  cases o <;> simp at h hn ⊢

/-- A micro-step of an operation keeps the invariant; the array changes only at a deselect, by bytes of the chunk (`Running.desel`). -/
theorem Running.tick {o k s t} (h : Running o k s) (hi : s.phase ≠ .idle) (hd : s.phase ≠ .decode) (hn : s.phase ≠ .wNext) (e :
    tick s = .next t) :
    Running o k t ∧ (t.dev.mem = s.dev.mem ∨ (isWrite o = true ∧ (s.phase = .wDesel ∨ s.phase = .xDesel) ∧
      ∃ n, (s.phase = .wDesel → n = s.idx.toNat) ∧ payloadPart k n s ≠ [] ∧
        t.dev.mem = storePage s.cfg (deviceAddr s.cfg s.cur) 0 (payloadPart k n s) s.dev.mem)) := by
  have h := h.turn
  have hm : (cycleTick s).dev.mem = s.dev.mem := rfl
  have hix : (cycleTick s).idx = s.idx := rfl
  have hph : (cycleTick s).phase = s.phase := rfl
  have hcfg : (cycleTick s).cfg = s.cfg := rfl
  have hcur : (cycleTick s).cur = s.cur := rfl
  have hc1 : ∀ n, payloadPart k n s = payloadPart k n (cycleTick s) := fun _ => rfl
  simp only [hc1]
  rw [← hm, ← hix, ← hcfg, ← hcur, ← hph]
  rw [← hph] at hi hd hn
  unfold Machine.tick at e
  generalize cycleTick s = s at *
  clear hm hc1 hph hcfg hcur hix
  unfold phaseStep at e
  have b := h.belongs
  cases hp : s.phase <;> rw [hp] at e b hi <;> simp only [Host.Outcome.next.injEq] at e
  case idle => exact absurd rfl hi
  case decode => exact absurd hp hd
  case pDelay => exact ⟨h.goto (p := .pSel) (.inl (by rw [hp]; rfl)) (by rw [hp]; rfl) rfl (by simp) rfl rfl
                   (fun _ => by rw [hp]; rfl) (by rw [← e]; rfl), .inl (by rw [← e]; rfl)⟩
  case pSel => exact ⟨e ▸ h.select (.inl (by rw [hp]; rfl)) (.inl rfl) rfl (fun _ => by rw [hp]; rfl), .inl (by rw [← e]; rfl)⟩
  case pOp =>
    obtain ⟨a, d⟩ := h.send (tx := wireOpcode .rdsr) (p := .pDummy) (by simp [byteSent, hp]) rfl rfl rfl (fun _ => by rw [hp]; rfl)
        (by simp) (by
      intro t tp tf _ _ _ _ _ _
      have f := h.fr
      unfold heldFrame at f ⊢
      rw [hp] at f; rw [tp]; simp only at f ⊢
      rw [tf, f]; rfl)
    exact ⟨e ▸ a, .inl (by rw [← e]; exact d)⟩
  case pDummy =>
    have sel : s.sel = true := by rw [h.sel, hp]; rfl
    unfold stepPDummy at e
    obtain ex | ⟨r, d, hr, ex⟩ := exchange_cases s.cfg.dummy s
    · rw [ex] at e; simp only [rxStatus] at e; subst e
      exact ⟨h.raised (tx := s.cfg.dummy) (by simp [byteSent, hp]) rfl, .inl (deviceFail_mem _ _)⟩
    · rw [ex] at e
      obtain ⟨y, et⟩ : ∃ y, t = Machine.goto .pDesel { s with
          dev := deviceTake s.cfg.dummy s.dev, script := s.script.tail, draws := d, trace := s.trace ++ [.xfer s.cfg.dummy r],
              sr := y } := by
        cases r with
        | err => exact absurd rfl hr
        | byte y => exact ⟨_, e.symm⟩
        | status y => exact ⟨_, e.symm⟩
      rw [et]
      refine ⟨h.move rfl rfl b (sel.trans rfl) ?_ ?_ rfl rfl rfl rfl rfl (fun _ => rfl) rfl (by rw [hp]; simp)
          (by rw [hp]; simp) (by rw [hp]; simp) (by simp [Machine.goto]) (fun _ => by rw [hp]; rfl), .inl
          (by simp [Machine.goto])⟩
      · intro _; simp [Machine.goto]; exact h.dsel sel
      · have f := h.fr
        unfold heldFrame at f ⊢
        rw [hp] at f; simp only [Machine.goto] at f ⊢
        rw [deviceTake_fr (h.dsel sel), f]; rfl
  case pDesel =>
    obtain ⟨a, _, d⟩ := h.desel (p := .pTest) (by rw [hp]; simp) (by rw [hp]; rfl) rfl (by simp) b rfl
        (fun _ => by rw [hp]; rfl) e
    refine ⟨a, d.imp_right ?_⟩
    rintro ⟨_, x | x, _⟩ <;> rw [hp] at x <;> cases x
  case pTest =>
    unfold stepPTest at e
    split at e
    · simp only [Host.Outcome.next.injEq] at e
      have sel : s.sel = false := by rw [h.sel, hp]; rfl
      have gg : ∀ p, (p = .pDelay ∨ p = .resp) → t = { s with phase := p, err := t.err, rbuf := t.rbuf, pcnt := t.pcnt } →
          Running o k t ∧ (t.dev.mem = s.dev.mem) := by
        intro p hpp ht
        refine ⟨h.goto (p := p) (.inl (by rw [hp]; rfl)) (by rw [hp]; rfl) ?_ ?_ ?_ ?_ ?_ (ht.trans (by rw [ht])), by rw [ht]⟩
        · rcases hpp with rfl | rfl <;> rfl
        · rcases hpp with rfl | rfl <;> simp
        · rcases hpp with rfl | rfl
          · exact b
          · rfl
        · rcases hpp with rfl | rfl <;> rfl
        · intro _; rw [hp]; rfl
      unfold countBusy at e
      simp only at e
      repeat' split at e
      all_goals subst e
      · have := gg .pDelay (.inl rfl) rfl; exact ⟨this.1, .inl this.2⟩
      · have := gg .resp (.inr rfl) (by simp [raise, sel]); exact ⟨this.1, .inl this.2⟩
      · have := gg .pDelay (.inl rfl) rfl; exact ⟨this.1, .inl this.2⟩
    · unfold afterWait at e
      rw [h.op] at e
      have gg : ∀ p, (p = .resp ∨ p = .eSel ∧ (opInv .eSel (some o) = true) ∨ p = .rSel ∧ (opInv .rSel (some o) = true)) →
          t = Machine.goto p s → Running o k t ∧ (t.dev.mem = s.dev.mem) := by
        intro p hpp ht
        rw [ht]
        refine ⟨h.goto (p := p) (.inl (by rw [hp]; rfl)) (by rw [hp]; rfl) ?_ ?_ ?_ ?_ ?_ rfl, rfl⟩
        · rcases hpp with rfl | ⟨rfl, _⟩ | ⟨rfl, _⟩ <;> rfl
        · rcases hpp with rfl | ⟨rfl, _⟩ | ⟨rfl, _⟩ <;> simp
        · rcases hpp with rfl | ⟨rfl, x⟩ | ⟨rfl, x⟩
          · rfl
          · exact x
          · exact x
        · rcases hpp with rfl | ⟨rfl, _⟩ | ⟨rfl, _⟩ <;> rfl
        · intro _; rw [hp]; rfl
      cases o <;> simp only [Host.Outcome.next.injEq] at e
      · have := gg _ (.inl rfl) e.symm; exact ⟨this.1, .inl this.2⟩
      · have := gg _ (.inr (.inl ⟨rfl, rfl⟩)) e.symm; exact ⟨this.1, .inl this.2⟩
      · have := gg _ (.inr (.inl ⟨rfl, rfl⟩)) e.symm; exact ⟨this.1, .inl this.2⟩
      · have := gg _ (.inr (.inl ⟨rfl, rfl⟩)) e.symm; exact ⟨this.1, .inl this.2⟩
      · have := gg _ (.inr (.inr ⟨rfl, rfl⟩)) e.symm; exact ⟨this.1, .inl this.2⟩
      · have := gg _ (.inr (.inr ⟨rfl, rfl⟩)) e.symm; exact ⟨this.1, .inl this.2⟩
  case eSel => exact ⟨e ▸ h.select (.inl (by rw [hp]; rfl)) (.inr (.inl rfl)) b (fun _ => by rw [hp]; rfl), .inl
                 (by rw [← e]; rfl)⟩
  case eOp =>
    obtain ⟨a, d⟩ := h.send (tx := wireOpcode .wren) (p := .eDesel) (by simp [byteSent, hp]) rfl b rfl (fun _ => by rw [hp]; rfl)
        (by simp) (by
      intro t tp tf _ _ _ _ _ _
      have f := h.fr
      unfold heldFrame at f ⊢
      rw [hp] at f; rw [tp]; simp only at f ⊢
      rw [tf, f]; rfl)
    exact ⟨e ▸ a, .inl (by rw [← e]; exact d)⟩
  case eDesel =>
    obtain ⟨a, _, d⟩ := h.desel (p := .eDelay) (by rw [hp]; simp) (by rw [hp]; rfl) rfl (by simp) b rfl
        (fun _ => by rw [hp]; rfl) e
    refine ⟨a, d.imp_right ?_⟩
    rintro ⟨_, x | x, _⟩ <;> rw [hp] at x <;> cases x
  case eDelay =>
    refine ⟨?_, .inl (by rw [← e]; rfl)⟩
    rw [← e]
    unfold stepEDelay
    split
    · exact h.goto (p := .resp) (.inl (by rw [hp]; rfl)) (by rw [hp]; rfl) rfl (by simp) rfl rfl (fun _ => by rw [hp]; rfl) rfl
    · next hne =>
      rw [h.op] at hne
      exact h.goto (p := .wSel) (.inl (by rw [hp]; rfl)) (by rw [hp]; rfl) rfl (by simp) (write_phases b (fun x => hne
          (by rw [x]))) rfl (fun _ => by rw [hp]; rfl) rfl
  case wSel => exact ⟨e ▸ h.select (.inl (by rw [hp]; rfl)) (.inr (.inr (.inl rfl))) b (fun _ => by rw [hp]; rfl), .inl
                 (by rw [← e]; rfl)⟩
  case wOp =>
    obtain ⟨a, d⟩ := h.send (tx := wireOpcode .write) (p := .wAh) (by simp [byteSent, hp]) rfl b rfl (fun _ => by rw [hp]; rfl)
        (by simp) (by
      intro t tp tf _ _ _ _ _ _
      have f := h.fr
      unfold heldFrame at f ⊢
      rw [hp] at f; rw [tp]; simp only at f ⊢
      rw [tf, f]; rfl)
    exact ⟨e ▸ a, .inl (by rw [← e]; exact d)⟩
  case wAh =>
    obtain ⟨a, d⟩ := h.send (tx := hiByte s.cur) (p := .wAl) (by simp [byteSent, hp]) rfl b rfl (fun _ => by rw [hp]; rfl) (by simp)
        (by
      intro t tp tf _ tc _ _ _ _
      have f := h.fr
      unfold heldFrame at f ⊢
      rw [hp] at f; rw [tp]; simp only at f ⊢
      rw [tf, f, tc]; rfl)
    exact ⟨e ▸ a, .inl (by rw [← e]; exact d)⟩
  case wAl =>
    have ow : isWrite o = true := by simpa [opInv, isWrite] using b
    have st := h.start ow (by rw [hp]; rfl)
    unfold stepWAl at e
    have key : ∀ q, (q = .wDesel ∧ s.run = 0 ∨ q = .wData ∧ s.run ≠ 0) → Running o k (sendByte (loByte s.cur) q s) ∧ (sendByte
        (loByte s.cur) q s).dev.mem = s.dev.mem := by
      intro q hq
      refine h.send (by simp [byteSent, hp]) ?_ ?_ ?_ ?_ ?_ ?_
      · rcases hq with ⟨rfl, _⟩ | ⟨rfl, _⟩ <;> rfl
      · rcases hq with ⟨rfl, _⟩ | ⟨rfl, _⟩ <;> exact b
      · rcases hq with ⟨rfl, x⟩ | ⟨rfl, x⟩
        · simpa [countInv] using x
        · simpa [countInv] using x
      · rcases hq with ⟨rfl, _⟩ | ⟨rfl, _⟩ <;> intro x <;> cases x
      · rcases hq with ⟨rfl, _⟩ | ⟨rfl, _⟩ <;> simp
      · intro t tp tf _ tc tw ti _ _
        have f := h.fr
        unfold heldFrame at f ⊢
        rw [hp] at f; rw [tp]; simp only at f ⊢
        have : t.dev.fr = 0x02 :: hiByte t.cur :: loByte t.cur :: (t.wbuf.take t.idx.toNat).drop k := by
          rw [tf, f, tc, ti, st]
          simp
        rcases hq with ⟨rfl, _⟩ | ⟨rfl, _⟩ <;> exact this
    split at e
    · next z =>
      obtain ⟨a, d⟩ := key _ (.inl ⟨rfl, z⟩)
      exact ⟨e ▸ a, .inl (by rw [← e]; exact d)⟩
    · next z =>
      obtain ⟨a, d⟩ := key _ (.inr ⟨rfl, z⟩)
      exact ⟨e ▸ a, .inl (by rw [← e]; exact d)⟩
  case wData =>
    obtain ⟨a, d⟩ := h.wdata hp e
    exact ⟨a, .inl d⟩
  case wDesel =>
    obtain ⟨a, _, d⟩ := h.desel (p := .wNext) (by rw [hp]; simp) (by rw [hp]; rfl) rfl (by simp) b
        (by have := h.count; rw [hp] at this; exact this) (by simp [beforeData]) e
    refine ⟨a, d.imp_right ?_⟩
    rintro ⟨x, _, n, y, z⟩
    exact ⟨x, .inl rfl, n, fun _ => y hp, z⟩
  case wNext => exact absurd hp hn
  case rSel =>
    have ow : isWrite o = false := by cases o <;> simp [opInv, isWrite] at b ⊢
    exact ⟨e ▸ h.select (.inr ⟨ow, by rw [hp]; simp⟩) (.inr (.inr (.inr rfl))) b (by simp [beforeData]), .inl
        (by rw [← e]; rfl)⟩
  case rOp =>
    obtain ⟨a, d⟩ := h.send (tx := wireOpcode .read) (p := .rAh) (by simp [byteSent, hp]) rfl b rfl (by simp [beforeData]) (by simp)
        (by
      intro t tp tf _ _ _ _ _ _
      have f := h.fr
      unfold heldFrame at f ⊢
      rw [hp] at f; rw [tp]; simp only at f ⊢
      rw [tf, f]; rfl)
    exact ⟨e ▸ a, .inl (by rw [← e]; exact d)⟩
  case rAh =>
    obtain ⟨a, d⟩ := h.send (tx := hiByte s.addr) (p := .rAl) (by simp [byteSent, hp]) rfl b rfl (by simp [beforeData]) (by simp) (by
      intro t tp tf _ _ _ _ ta _
      have f := h.fr
      unfold heldFrame at f ⊢
      rw [hp] at f; rw [tp]; simp only at f ⊢
      rw [tf, f, ta]; rfl)
    exact ⟨e ▸ a, .inl (by rw [← e]; exact d)⟩
  case rAl =>
    unfold stepRAl at e
    have key : ∀ q, (q = .rDesel ∧ s.rem = 0 ∨ q = .rData ∧ s.rem ≠ 0) → Running o k (sendByte (loByte s.addr) q s) ∧ (sendByte
        (loByte s.addr) q s).dev.mem = s.dev.mem := by
      intro q hq
      refine h.send (by simp [byteSent, hp]) ?_ ?_ ?_ ?_ ?_ ?_
      · rcases hq with ⟨rfl, _⟩ | ⟨rfl, _⟩ <;> rfl
      · rcases hq with ⟨rfl, _⟩ | ⟨rfl, _⟩ <;> exact b
      · rcases hq with ⟨rfl, x⟩ | ⟨rfl, x⟩
        · rfl
        · simpa [countInv] using x
      · rcases hq with ⟨rfl, _⟩ | ⟨rfl, _⟩ <;> intro x <;> cases x
      · rcases hq with ⟨rfl, _⟩ | ⟨rfl, _⟩ <;> simp
      · intro t tp tf _ _ _ _ ta _
        have f := h.fr
        unfold heldFrame at f ⊢
        rw [hp] at f; rw [tp]; simp only at f ⊢
        have : ∃ d, t.dev.fr = 0x03 :: hiByte t.addr :: loByte t.addr :: d := ⟨[], by rw [tf, f, ta]; rfl⟩
        rcases hq with ⟨rfl, _⟩ | ⟨rfl, _⟩ <;> exact this
    split at e
    · next z =>
      obtain ⟨a, d⟩ := key _ (.inl ⟨rfl, z⟩)
      exact ⟨e ▸ a, .inl (by rw [← e]; exact d)⟩
    · next z =>
      obtain ⟨a, d⟩ := key _ (.inr ⟨rfl, z⟩)
      exact ⟨e ▸ a, .inl (by rw [← e]; exact d)⟩
  case rData =>
    obtain ⟨a, d⟩ := h.rdata hp e
    exact ⟨a, .inl d⟩
  case rDesel =>
    obtain ⟨a, _, d⟩ := h.desel (p := .resp) (by rw [hp]; simp) (by rw [hp]; rfl) rfl (by simp) rfl rfl (by simp [beforeData]) e
    refine ⟨a, d.imp_right ?_⟩
    rintro ⟨_, x | x, _⟩ <;> rw [hp] at x <;> cases x
  case xDesel =>
    obtain ⟨a, _, d⟩ := h.desel (p := .resp) (by rw [hp]; simp) (by rw [hp]; rfl) rfl (by simp) rfl rfl (by simp [beforeData]) e
    refine ⟨a, d.imp_right ?_⟩
    rintro ⟨x, _, n, _, z⟩
    exact ⟨x, .inr rfl, n, (fun x => by cases x), z⟩
  case resp =>
    refine ⟨?_, .inl (by rw [← e]; rfl)⟩
    have sel : s.sel = false := by rw [h.sel, hp]; rfl
    rw [← e]
    exact ⟨h.legal, h.op, rfl, sel, fun x =>
        (by rw [show (respond s).sel = s.sel from rfl, sel] at x; exact absurd x (by simp)), trivial, rfl, fun x =>
        (by cases x), fun _ _ x => absurd rfl x, fun _ x => (by cases x)⟩

/-- The same in every phase: an operation that does not write leaves the array alone. -/
theorem Running.all {o k s t} (g : Running o k s) (hi : s.phase ≠ .idle) (e : Machine.tick s = .next t) : ∃ k',
    Running o k' t ∧ (isWrite o = false → t.dev.mem = s.dev.mem) := by
  by_cases hd : s.phase = .decode
  · obtain ⟨k', a, d, _⟩ := g.turn.decode hd
    have et : stepDecode (cycleTick s) = t := by
      have e' := e
      simp only [Machine.tick, phaseStep, show (cycleTick s).phase = .decode from hd, Host.Outcome.next.injEq] at e'
      exact e'
    rw [et] at a d
    exact ⟨k', a, fun _ => by rw [d]; rfl⟩
  by_cases hw : s.phase = .wNext
  · obtain ⟨k', a, d, _⟩ := g.turn.next hw
    have et : stepWNext (cycleTick s) = t := by
      have e' := e
      simp only [Machine.tick, phaseStep, show (cycleTick s).phase = .wNext from hw, Host.Outcome.next.injEq] at e'
      exact e'
    rw [et] at a d
    exact ⟨k', a, fun _ => by rw [d]; rfl⟩
  obtain ⟨a, b⟩ := g.tick hi hd hw e
  refine ⟨k, a, fun ow => ?_⟩
  rcases b with b | ⟨x, _⟩
  · exact b
  · rw [ow] at x; cases x

/-- Acceptance starts it (spec/10_state.md R38). -/
theorem Running.accepted {s : State} {o addr len pl} (hc : isWrite o = true → configLegal s.cfg = true) (hs : s.sel = false)
    (hw : o = .wrbyte → pl.length = 1) (hw2 : o = .write → pl.length = len.toNat) :
   Running o 0 (accept (hostOpcode o) addr len pl s) := by
  refine ⟨hc, hostOpOf_opcode o, rfl, hs, fun x => ?_, trivial, rfl, fun _ => ?_, fun _ x => absurd rfl x, fun _ x =>
      (by cases x)⟩
  · rw [show (accept (hostOpcode o) addr len pl s).sel = s.sel from rfl, hs] at x; cases x
  · unfold payloadInv
    rw [show (accept (hostOpcode o) addr len pl s).op = hostOpcode o from rfl, hostOpOf_opcode]
    cases o <;> first | trivial | exact hw rfl | exact hw2 rfl

/-- A chunk starts inside the array, at the place the page counter gives its first byte. -/
theorem Chunk.addr {k s} (h : Chunk k s) (legal : configLegal s.cfg = true) : s.cur.toNat ≤ lastAddr s.cfg ∧ ∀ j,
    writeAddr s.cfg s.cur.toNat j = writeAddr s.cfg s.addr.toNat (k + j) := by
  obtain ⟨hP, hS, ⟨q, hq⟩, _⟩ := configLegal_sizes legal
  constructor
  · have a := h.inside
    have pg := h.page
    unfold lastAddr at a ⊢
    unfold pageBase at pg
    have e1 := Nat.div_add_mod s.addr.toNat s.cfg.pageSize.toNat
    have e2 := Nat.div_add_mod s.cur.toNat s.cfg.pageSize.toNat
    have m1 := Nat.mod_lt s.addr.toNat hP
    have m2 := Nat.mod_lt s.cur.toNat hP
    have lt : s.addr.toNat / s.cfg.pageSize.toNat < q := by
      rw [Nat.div_lt_iff_lt_mul hP, Nat.mul_comm, ← hq]; omega
    have : s.cfg.pageSize.toNat * (s.addr.toNat / s.cfg.pageSize.toNat) + s.cfg.pageSize.toNat ≤ s.cfg.pageSize.toNat * q := by
      rw [← Nat.mul_succ]; exact Nat.mul_le_mul_left _ lt
    omega
  · intro j
    unfold writeAddr
    rw [h.page, h.off, Nat.mod_add_mod, Nat.add_assoc]

/-- Storing from another starting point of the same page counter. -/
theorem storePage_shift {c : Config} {a b k : Nat} (h : ∀ j, writeAddr c a j = writeAddr c b (k + j)) (bs : List Byte) : ∀ (j :
    Nat) (m : Memory),
   storePage c a j bs m = storePage c b (k + j) bs m := by
  induction bs with
  | nil => intro j m; rfl
  | cons x bs ih => intro j m; rw [storePage, storePage, h, ih, Nat.add_assoc]

/-- A valid address is the device's own (spec/20_memory.md R64). -/
theorem deviceAddr_le {c : Config} (hc : configLegal c = true) {a : Half} (ha : a.toNat ≤ lastAddr c) :
    deviceAddr c a = a.toNat := by
  obtain ⟨_, hS, _⟩ := configLegal_sizes hc
  unfold lastAddr at ha
  exact Nat.mod_eq_of_lt (by omega)

/-- Committing bytes of a chunk stores them where one frame with the whole payload would (spec/42_addressing_engine.md R192). -/
theorem Chunk.commit {k s} (h : Chunk k s) (legal : configLegal s.cfg = true) (bs : List Byte) (m : Memory) :
    storePage s.cfg (deviceAddr s.cfg s.cur) 0 bs m = storePage s.cfg s.addr.toNat k bs m := by
  obtain ⟨a, b⟩ := Chunk.addr h legal
  rw [deviceAddr_le legal a, storePage_shift b]; rfl

end Sys2Proof.Machine
end

