-- ==== Sys2Proof/Laws/Frames.lean ====
section
/-! SUPPORT. What a whole wire frame from the bench does at the device, idle or busy (spec/20_memory.md section 5). -/

namespace Sys2Proof.Machine

/-- The byte of a wire opcode is that opcode's. -/
theorem wireOpcode_of {b : Byte} {o} (h : wireOpOf b = some o) : b = wireOpcode o := by
  unfold wireOpOf at h
  apply BitVec.eq_of_toNat_eq
  split at h <;> simp only [Option.some.injEq, reduceCtorEq] at h <;> subst h <;> simp_all [wireOpcode]

/-- The bytes of a frame change nothing but the device, what the bench has received, and the two inputs. -/
theorem driveBytes_cases (bs : List Byte) : ∀ s : State, ∃ d rx sc dr,
    driveBytes bs s = { s with dev := d, benchRx := rx, script := sc, draws := dr } ∧
    d.mem = s.dev.mem ∧ d.bp = s.dev.bp ∧ d.model = s.dev.model ∧ d.dsel = s.dev.dsel ∧ (s.dev.dsel = true → ∃ x, x <+: bs ∧ d.fr = s.dev.fr ++ x) := by
  induction bs with
  | nil => intro s; exact ⟨s.dev, s.benchRx, s.script, s.draws, rfl, rfl, rfl, rfl, rfl, fun _ => ⟨[], List.prefix_refl _, by simp⟩⟩
  | cons b bs ih =>
    intro s
    unfold driveBytes
    obtain h | ⟨r, d, hr, h⟩ := transfer_cases b (cycleTick s)
    · rw [h]
      refine ⟨deviceFail b (cycleTick s).dev, _, _, _, rfl, deviceFail_mem _ _, deviceFail_bp _ _, deviceFail_model _ _,
        deviceFail_dsel _ _, fun _ => ?_⟩
      obtain ⟨fr, ign, wel, e, x⟩ := deviceFail_eq b (cycleTick s).dev
      rw [e]
      rcases x with rfl | rfl
      · exact ⟨[], List.nil_prefix, by simp [cycleTick, deviceTurn]⟩
      · exact ⟨[b], List.cons_prefix_cons.2 ⟨rfl, List.nil_prefix⟩, by simp [cycleTick, deviceTurn]⟩
    · rw [h]
      obtain ⟨d', rx, sc, dr, e, m1, m2, m5, m3, m4⟩ := ih
          ({ cycleTick s with dev := deviceTake b (cycleTick s).dev, script := (cycleTick s).script.tail, draws := d, benchRx := (cycleTick s).benchRx ++ [r] })
      have hfr : s.dev.dsel = true → ∃ x, x <+: b :: bs ∧ d'.fr = s.dev.fr ++ x := by
        intro hd
        obtain ⟨x, hx, e⟩ := m4 (by simp; exact hd)
        refine ⟨b :: x, List.cons_prefix_cons.2 ⟨rfl, hx⟩, ?_⟩
        rw [e]; simp only
        rw [deviceTake_fr (by exact hd)]
        simp [cycleTick, deviceTurn]
      cases r with
      | err => exact absurd rfl hr
      | byte x => exact ⟨d', rx, sc, dr, e, by rw [m1]; simp [cycleTick, deviceTurn], by rw [m2]; simp [cycleTick, deviceTurn],
          by rw [m5]; simp [cycleTick, deviceTurn], by rw [m3]; simp [cycleTick, deviceTurn], hfr⟩
      | status x => exact ⟨d', rx, sc, dr, e, by rw [m1]; simp [cycleTick, deviceTurn],
          by rw [m2]; simp [cycleTick, deviceTurn], by rw [m5]; simp [cycleTick, deviceTurn], by rw [m3]; simp [cycleTick, deviceTurn], hfr⟩

/-- A whole frame that answers: no register of the sequencer, and the array only as the commit of a WRITE frame changes it. -/
theorem driveFrame_cases {bs : List Byte} {s t : State} (h : driveFrame bs s = .next t) :
    ∃ d rx sc dr cs k, t = { s with dev := d, benchRx := rx, script := sc, draws := dr, cycles := cs, cycleCount := k } ∧
        d.dsel = false ∧ d.bp = s.dev.bp ∧ d.model = s.dev.model ∧
     (d.mem = s.dev.mem ∨ ∃ ah al x xs, wireOpcode .write :: ah :: al :: x :: xs <+: bs ∧ d.mem = storePage s.cfg
         (deviceAddr s.cfg (joinBytes ah al)) 0 (x :: xs) s.dev.mem) := by
  unfold driveFrame at h
  obtain ⟨d, rx, sc, dr, e, m1, m2, m5, m3, m4⟩ := driveBytes_cases bs (deviceSelect (cycleTick { s with benchRx := [] }))
  have e' : cycleTick (driveBytes bs (deviceSelect (cycleTick { s with benchRx := [] }))) =
      { s with dev := deviceTurn d, benchRx := rx, script := sc, draws := dr } := by rw [e]; rfl
  rw [e'] at h
  obtain ⟨x, hx, m4⟩ := m4 rfl
  have m1 : (deviceTurn d).mem = s.dev.mem := m1
  have m2 : (deviceTurn d).bp = s.dev.bp := m2
  have m5 : (deviceTurn d).model = s.dev.model := m5
  have m4 : (deviceTurn d).fr = x := m4
  generalize deviceTurn d = d at *
  obtain ⟨w, rfl⟩ | ⟨op, ah, al, c, cs, n, _, _, _, rfl⟩ | ⟨op, ah, al, b, bs, c, cs, n, hf, hop, _, _, _, rfl⟩ :=
    deviceDeselect_cases h
  · exact ⟨{ d with dsel := false, wel := w }, rx, sc, dr, s.cycles, s.cycleCount, rfl, rfl, m2, m5, .inl m1⟩
  · exact ⟨_, rx, sc, dr, cs, n, rfl, rfl, m2, m5, .inl m1⟩
  · refine ⟨_, rx, sc, dr, cs, n, rfl, rfl, m2, m5, .inr ⟨ah, al, b, bs, ?_, ?_⟩⟩
    · rw [← wireOpcode_of hop, show op :: ah :: al :: b :: bs = x from hf.symm.trans m4]
      exact hx
    · show storePage s.cfg (deviceAddr s.cfg (joinBytes ah al)) 0 (b :: bs) d.mem = _
      rw [m1]

/-- A bench frame that answers is driven. -/
theorem benchFrame_next {bs : List Byte} {s t : State} (h : benchFrame bs s = .next t) : driveFrame bs s = .next t := by
  unfold benchFrame at h
  split at h
  · exact h
  · cases h

/-- Every wire frame is its own encoding, driven. -/
theorem exec_wireFrame {i} (hi : i.isHost = false) (s) : exec i s = benchFrame (encode i) s := by
  cases i <;> first | rfl | cases hi

/-- Outside RDSR the device answers bytes. -/
theorem deviceAnswer_byte {c : Config} {d : Device} {n : Nat} (h : ∀ op rest, d.fr = op :: rest → wireOpOf op = some .rdsr →
    False) : ∃ b, (deviceAnswer c d n).1 = .byte b := by
  unfold deviceAnswer drawByte drawStatus
  repeat' split
  all_goals first
    | exact ⟨_, rfl⟩
    | (exfalso; exact h _ _ ‹_› ‹_›)

/-- One byte of a frame, the device answering. -/
theorem drive_step {b : Byte} {bs : List Byte} {s : State} (hq : quiet s) : driveBytes (b :: bs) s =
   driveBytes bs { cycleTick s with dev := deviceTake b (deviceTurn s.dev), script := s.script.tail, draws := (deviceAnswer s.cfg (deviceTurn s.dev) s.draws).2, benchRx := s.benchRx ++ [(deviceAnswer s.cfg (deviceTurn s.dev) s.draws).1] } := by
  rw [driveBytes, transfer_quiet (s := cycleTick s) hq]
  have := deviceAnswer_ne_err s.cfg (deviceTurn s.dev) s.draws
  generalize hh : deviceAnswer s.cfg (deviceTurn s.dev) s.draws = r at *
  have e : deviceAnswer (cycleTick s).cfg (cycleTick s).dev (cycleTick s).draws = r := hh
  rw [e]
  obtain ⟨r, n⟩ := r
  cases r with
  | err => exact absurd rfl this
  | byte x => rfl
  | status x => rfl

/-- The bytes of a frame at an idle device. -/
theorem drive_idle (bs : List Byte) : ∀ s : State, quiet s → s.dev.wip = false → s.dev.dsel = true → s.dev.ign = false →
   ∃ rx sc dr,
       driveBytes bs s = { s with dev := { s.dev with fr := s.dev.fr ++ bs }, benchRx := s.benchRx ++ rx, script := sc, draws := dr } ∧ rx.length = bs.length := by
  induction bs with
  | nil => intro s _ _ _ _; exact ⟨[], s.script, s.draws, by simp [driveBytes], rfl⟩
  | cons b bs ih =>
    intro s hq hw hs hg
    rw [drive_step hq, deviceTurn_idle hw, cycleTick_idle hw]
    have tk : deviceTake b s.dev = { s.dev with fr := s.dev.fr ++ [b] } := by simp [deviceTake, hs, hw, hg]
    rw [tk]
    obtain ⟨rx, sc, dr, e, l⟩ :=
        ih { s with dev := { s.dev with fr := s.dev.fr ++ [b] }, script := s.script.tail, draws := _, benchRx := _ }
        (quiet_tail hq rfl) hw hs hg
    rw [e]
    exact ⟨(deviceAnswer s.cfg s.dev s.draws).1 :: rx, sc, dr, by simp, by simp [l]⟩

/-- The data bytes of a READ frame at an idle device (spec/20_memory.md R69). -/
theorem drive_read (ah al : Byte) (ds : List Byte) : ∀ (s : State) (xs : List Byte), quiet s → s.dev.wip = false →
    s.dev.dsel = true → s.dev.ign = false → s.dev.fr = wireOpcode .read :: ah :: al :: xs →
   ∃ sc, driveBytes ds s = { s with dev := { s.dev with fr := s.dev.fr ++ ds }, benchRx := s.benchRx ++ (List.range ds.length).map (fun j => Rx.byte (Memory.read s.dev.mem (readAddr s.cfg (joinBytes ah al) (xs.length + j)))), script := sc } := by
  induction ds with
  | nil => intro s xs _ _ _ _ _; exact ⟨s.script, by simp [driveBytes]⟩
  | cons b bs ih =>
    intro s xs hq hw hs hg hf
    rw [drive_step hq, deviceTurn_idle hw, cycleTick_idle hw]
    have tk : deviceTake b s.dev = { s.dev with fr := s.dev.fr ++ [b] } := by simp [deviceTake, hs, hw, hg]
    have ans : deviceAnswer s.cfg s.dev s.draws =
        (.byte (Memory.read s.dev.mem (readAddr s.cfg (joinBytes ah al) xs.length)), s.draws) := by
      simp [deviceAnswer, hs, hf, hg, wireOpOf, wireOpcode]
    rw [tk, ans]
    obtain ⟨sc, e⟩ :=
        ih { s with dev := { s.dev with fr := s.dev.fr ++ [b] }, script := s.script.tail, draws := s.draws, benchRx := _ }
        (xs ++ [b]) (quiet_tail hq rfl) hw hs hg (by simp [hf])
    rw [e]
    have e2 : ∀ j, xs.length + 1 + j = xs.length + (j + 1) := by intro j; omega
    refine ⟨sc, ?_⟩
    simp only [List.append_assoc, List.length_cons, List.length_append, List.length_nil, List.range_succ_eq_map, List.map_cons, List.map_map]
    simp [Function.comp_def, e2]

/-- A whole frame at an idle device: its deselect, with all its bytes heldFrame. -/
theorem driveFrame_idle {bs : List Byte} {s : State} (hp : s.phase = .idle) (hq : quiet s) (hw : s.dev.wip = false) :
   ∃ rx sc dr,
       benchFrame bs s = deviceDeselect { s with dev := { s.dev with dsel := true, fr := bs, ign := false }, benchRx := rx, script := sc, draws := dr } ∧ rx.length = bs.length := by
  rw [benchFrame, if_pos hp, driveFrame, cycleTick_idle (s := { s with benchRx := [] }) hw]
  obtain ⟨rx, sc, dr, e, l⟩ := drive_idle bs (deviceSelect { s with benchRx := [] }) hq hw rfl rfl
  rw [e, cycleTick_idle (by exact hw)]
  exact ⟨rx, sc, dr, rfl, l⟩

/-- The turn of a device whose write cycle outlasts it changes only how long is left. -/
theorem deviceTurn_busy {n : Nat} {d : Device} (h : busyFor (n+1) d) : ∃ c, deviceTurn d = { d with cycle := c } ∧
    busyFor n { d with cycle := c } ∧ (stuck d → c = none) := by
  obtain ⟨hw, hc⟩ := h
  cases e : d.cycle with
  | none => exact ⟨none, by simp [deviceTurn, cycleEnds, e, hw, cycleLeft], ⟨hw, trivial⟩, fun _ => rfl⟩
  | some k =>
    rw [e] at hc
    cases k with
    | zero => simp at hc
    | succ k =>
      refine ⟨some k, by simp [deviceTurn, cycleEnds, e, hw, cycleLeft], ⟨hw, ?_⟩, fun x => ?_⟩
      · simp at hc ⊢; exact hc
      · rw [x.2] at e; cases e

/-- The deselect of a status read (spec/20_memory.md R68). -/
theorem deviceDeselect_status {s : State} {x} (h : s.dev.fr = [0x05, x]) :
    deviceDeselect s = .next { s with dev := { s.dev with dsel := false } } := by
  have : wireOpOf 0x05 = some .rdsr := by decide
  unfold deviceDeselect
  rw [h]
  simp only [this]
  split <;> simp

/-- A byte of a frame that a busy device ignores. -/
theorem deviceTake_ignored {d : Device} {b : Byte} (h : d.dsel = true) (hf : d.fr = [] ∧ d.wip = true ∧
    wireOpOf b ≠ some .rdsr ∨ d.fr ≠ [] ∧ d.ign = true) : deviceTake b d = { d with fr := d.fr ++ [b], ign := true } := by
  rcases hf with ⟨a, b, c⟩ | ⟨a, b⟩
  · simp [deviceTake, h, a, b, c]
  · simp [deviceTake, h, a, b]

/-- The bytes of a frame that a busy device ignores (spec/20_memory.md R73). -/
theorem drive_ignored (bs : List Byte) : ∀ (s : State) (n : Nat), quiet s → s.dev.dsel = true → s.dev.fr ≠ [] → (∀ b x,
    s.dev.fr = b :: x → wireOpOf b ≠ some .rdsr) → s.dev.ign = true → busyFor (bs.length + n) s.dev →
   ∃ rx sc dr c,
       driveBytes bs s = { s with dev := { s.dev with fr := s.dev.fr ++ bs, cycle := c }, benchRx := s.benchRx ++ rx, script := sc, draws := dr } ∧ rx.length = bs.length ∧ (∀ x ∈ rx, ∃ b, x = .byte b) ∧ busyFor n { s.dev with cycle := c } := by
  induction bs with
  | nil => intro s n _ _ _ _ _ h; exact ⟨[], s.script, s.draws, s.dev.cycle, by simp [driveBytes], rfl, by simp,
      by simpa using h⟩
  | cons b bs ih =>
    intro s n hq hs hf hr hg hb
    obtain ⟨c1, t1, b1, _⟩ := deviceTurn_busy (n := bs.length + n) (d := s.dev)
        (by rw [show bs.length + n + 1 = (b :: bs).length + n by simp; omega]; exact hb)
    rw [drive_step hq]
    have e1 : (cycleTick s) = { s with dev := { s.dev with cycle := c1 } } := by rw [cycleTick, t1]
    obtain ⟨a, ha⟩ : ∃ b, (deviceAnswer s.cfg (deviceTurn s.dev) s.draws).1 = .byte b := deviceAnswer_byte
        (by rw [t1]; intro op rest h; exact hr op rest h)
    rw [e1]
    generalize deviceAnswer s.cfg (deviceTurn s.dev) s.draws = x1 at *
    have e2 : deviceTake b (deviceTurn s.dev) = { s.dev with cycle := c1, fr := s.dev.fr ++ [b], ign := true } := by
      rw [t1, deviceTake_ignored (d := { s.dev with cycle := c1 }) hs (.inr ⟨hf, hg⟩)]
    rw [e2, ha]
    obtain ⟨rx, sc, dr, c, e, l, al, bb⟩ :=
        ih { s with dev := { s.dev with cycle := c1, fr := s.dev.fr ++ [b], ign := true }, benchRx := s.benchRx ++ [Rx.byte a], script := s.script.tail, draws := x1.2 } n (quiet_tail hq rfl) hs (by simp) (by
      intro b' x' hx'
      obtain ⟨y, ys, hy⟩ := List.exists_cons_of_ne_nil hf
      simp only [hy, List.cons_append, List.cons.injEq] at hx'
      exact hx'.1 ▸ hr y ys hy) rfl b1
    refine ⟨.byte a :: rx, sc, dr, c, ?_, by simp [l], ?_, bb⟩
    · rw [e]; simp [hg]
    · intro x hx
      rcases List.mem_cons.1 hx with rfl | hx
      · exact ⟨a, rfl⟩
      · exact al x hx

end Sys2Proof.Machine
end

