-- ==== Sys2Proof/Laws/PerInstr.lean ====
section
/-! SUPPORT. Statements made for every constructor of `Instr` as syntax, one lemma each. -/

namespace Sys2Proof.Laws.OpcodeSpace

/-- The first byte of an instruction tells the two encodings apart: a descriptor has at least the 5 bytes of its header, the first
one of 0x10 to 0x15 (spec/30_encoding.md R91, R92); a frame has at least its opcode, one of 0x01 to 0x06 (R100, R101). -/
def Statement (i : Instr) : Prop :=
  match encode i with
  | [] => False
  | op :: rest =>
    if i.isHost then 4 ≤ rest.length ∧ 0x10 ≤ op.toNat ∧ op.toNat ≤ 0x15 else 0x01 ≤ op.toNat ∧ op.toNat ≤ 0x06

theorem wait (addr len : Half) : Statement (.wait addr len) := by
  simp [Statement, encode, header, Instr.isHost, hostOpcode]

theorem wren (addr len : Half) : Statement (.wren addr len) := by
  simp [Statement, encode, header, Instr.isHost, hostOpcode]

theorem wrbyte (addr len : Half) (v : Byte) : Statement (.wrbyte addr len v) := by
  simp [Statement, encode, header, Instr.isHost, hostOpcode]

theorem write (addr len : Half) (data : List Byte) : Statement (.write addr len data) := by
  simp [Statement, encode, header, Instr.isHost, hostOpcode]

theorem rdbyte (addr len : Half) : Statement (.rdbyte addr len) := by
  simp [Statement, encode, header, Instr.isHost, hostOpcode]

theorem read (addr len : Half) : Statement (.read addr len) := by
  simp [Statement, encode, header, Instr.isHost, hostOpcode]

theorem rdsrFrame (dummy : Byte) : Statement (.rdsrFrame dummy) := by
  simp [Statement, encode, Instr.isHost, wireOpcode]

theorem wrenFrame : Statement .wrenFrame := by
  simp [Statement, encode, Instr.isHost, wireOpcode]

theorem writeFrame (addr : Half) (data : List Byte) : Statement (.writeFrame addr data) := by
  simp [Statement, encode, Instr.isHost, wireOpcode]

theorem readFrame (addr : Half) (dummies : List Byte) : Statement (.readFrame addr dummies) := by
  simp [Statement, encode, Instr.isHost, wireOpcode]

theorem wrdiFrame (rest : List Byte) : Statement (.wrdiFrame rest) := by
  simp [Statement, encode, Instr.isHost, wireOpcode]

theorem wrsrFrame (rest : List Byte) : Statement (.wrsrFrame rest) := by
  simp [Statement, encode, Instr.isHost, wireOpcode]

end Sys2Proof.Laws.OpcodeSpace
end

