-- ==== Sys2Proof/Laws/Undisturbed.lean ====
section
/-! SUPPORT. The invariant of an operation in progress while the device answers every exchange (`quiet`): no frame is sent
to a busy device, and a write frame is committed. -/

namespace Sys2Proof.Machine

/-- Phases after a wait has found the device ready, up to the end of the frame. -/
def readyAt : Phase → Bool
  | .eSel | .eOp | .eDesel | .eDelay | .wSel | .wOp | .wAh | .wAl | .wData | .wDesel
  | .rSel | .rOp | .rAh | .rAl | .rData | .rDesel => true
  | _ => false

/-- Phases after the write-enable frame, up to the end of the write frame. -/
def latchedAt : Phase → Bool
  | .eDelay | .wSel | .wOp | .wAh | .wAl | .wData | .wDesel => true
  | _ => false

/-- Phases inside a frame the device is listening to. -/
def heardAt : Phase → Bool
  | .eDesel | .wAh | .wAl | .wData | .wDesel | .rAh | .rAl | .rData | .rDesel => true
  | _ => false

/-- What holds besides while the device answers every exchange: no error, and the device as the last status read says. -/
structure Undisturbed (s : State) : Prop where
  quiet : quiet s
  noError : s.phase ≠ .xDesel
  ok : s.phase ≠ .resp → s.phase ≠ .idle → s.err = .ok
  seen : s.phase = .pDesel ∨ s.phase = .pTest → s.sr.wip = false → s.dev.wip = false
  ready : readyAt s.phase = true → s.dev.wip = false
  latched : latchedAt s.phase = true → s.dev.wel = true
  heard : heardAt s.phase = true → s.dev.ign = false
  fence : s.phase = .resp ∨ s.phase = .idle → s.err = .ok → (hostOpOf s.op = some .wait → s.dev.wip = false) ∧
      (hostOpOf s.op = some .wren → s.dev.wip = false ∧ s.dev.wel = true)

/-- What a starting write cycle leaves alone. -/
theorem startCycle_script (s : State) : (startCycle s).script = s.script := by unfold startCycle; split <;> rfl
theorem startCycle_err (s : State) : (startCycle s).err = s.err := by unfold startCycle; split <;> rfl
theorem startCycle_mem (s : State) : (startCycle s).dev.mem = s.dev.mem := by unfold startCycle; split <;> rfl

/-- The device's own turn keeps it. -/
theorem Undisturbed.turn {s} (h : Undisturbed s) : Undisturbed (cycleTick s) := by
  have w : s.dev.wip = false → (cycleTick s).dev = s.dev := fun e => deviceTurn_idle e
  have w' : ∀ {p : Prop}, (p → s.dev.wip = false) → p → (cycleTick s).dev = s.dev := fun f x => w (f x)
  refine ⟨h.quiet, h.noError, h.ok, ?_, ?_, ?_, ?_, ?_⟩
  · intro a b; rw [w (h.seen a b)]; exact h.seen a b
  · intro a; rw [w (h.ready a)]; exact h.ready a
  · intro a
    have a' : latchedAt s.phase = true := a
    have r : readyAt s.phase = true := by cases e : s.phase <;> rw [e] at a' <;> first | rfl | cases a'
    rw [w (h.ready r)]; exact h.latched a
  · intro a; exact h.heard a
  · intro a b
    obtain ⟨f1, f2⟩ := h.fence a b
    exact ⟨fun x => by rw [w (f1 x)]; exact f1 x, fun x => by rw [w (f2 x).1]; exact f2 x⟩

/-- An idle device listens to a frame ... -/
theorem deviceTake_ign_first {tx} {d : Device} (hd : d.dsel = true) (hf : d.fr = []) (hw : d.wip = false) :
    (deviceTake tx d).ign = false := by
  simp [deviceTake, hd, hf, hw]

/-- ... and goes on as it began (spec/20_memory.md R67). -/
theorem deviceTake_ign_later {tx} {d : Device} (hd : d.dsel = true) (hf : d.fr ≠ []) : (deviceTake tx d).ign = d.ign := by
  simp [deviceTake, hd, hf]

/-- A phase that sends one byte keeps it. -/
theorem Undisturbed.send {s : State} {tx p} (h : Undisturbed s) (hn : s.phase ≠ .resp ∧ s.phase ≠ .idle) (hp : p = .pDummy ∨
    readyAt p = true ∧ readyAt s.phase = true) (hl : latchedAt p = true → latchedAt s.phase = true) (hd : s.dev.dsel = true)
   (hh : heardAt p = true → (s.dev.fr = [] ∨ s.dev.fr ≠ [] ∧ heardAt s.phase = true)) : Undisturbed (sendByte tx p s) := by
  rw [sendByte_quiet h.quiet]
  have np : p ≠ .xDesel ∧ p ≠ .pDesel ∧ p ≠ .pTest ∧ p ≠ .resp ∧ p ≠ .idle := by
    rcases hp with rfl | ⟨hp, _⟩
    · simp
    · refine ⟨?_, ?_, ?_, ?_, ?_⟩ <;> rintro rfl <;> cases hp
  refine ⟨quiet_tail h.quiet rfl, np.1, fun _ _ => h.ok hn.1 hn.2, ?_, ?_, ?_, ?_, ?_⟩
  · rintro (x | x)
    · exact absurd x np.2.1
    · exact absurd x np.2.2.1
  · intro x
    rw [deviceTake_wip]
    rcases hp with rfl | ⟨_, hp⟩
    · cases x
    · exact h.ready hp
  · intro x; rw [deviceTake_wel]; exact h.latched (hl x)
  · intro x
    rcases hp with rfl | ⟨_, hp⟩
    · cases x
    rcases hh x with y | ⟨y, z⟩
    · exact deviceTake_ign_first hd y (h.ready hp)
    · rw [deviceTake_ign_later hd y]; exact h.heard z
  · rintro (x | x)
    · exact absurd x np.2.2.2.1
    · exact absurd x np.2.2.2.2

/-- A phase that moves on outside a frame keeps it. -/
theorem Undisturbed.move {s t : State} (h : Undisturbed s) (h1 : t.script = s.script) (h2 : t.phase ≠ .xDesel) (h3 :
    t.phase ≠ .resp → t.phase ≠ .idle → t.err = .ok)
   (h4 : t.phase ≠ .pDesel ∧ t.phase ≠ .pTest) (h5 : readyAt t.phase = true → t.dev.wip = false) (h6 :
       latchedAt t.phase = true → t.dev.wel = true)
   (h7 : heardAt t.phase = false) (h8 : t.phase = .resp ∨ t.phase = .idle → t.err = .ok → (hostOpOf t.op = some .wait →
       t.dev.wip = false) ∧ (hostOpOf t.op = some .wren → t.dev.wip = false ∧ t.dev.wel = true)) : Undisturbed t :=
  ⟨fun a ha => h.quiet a (h1 ▸ ha), h2, h3, fun x => (by rcases x with x | x; exact absurd x h4.1; exact absurd x h4.2), h5,
      h6, fun x => (by rw [h7] at x; cases x), h8⟩

/-- A micro-step keeps it, and the deselect of a write frame commits the bytes sent (spec/20_memory.md R70 (b)). -/
theorem Undisturbed.tick {o k s t} (g : Running o k s) (h : Undisturbed s) (hbp : isWrite o = true → s.dev.bp = 0) (hi :
    s.phase ≠ .idle) (e : tick s = .next t) :
   Undisturbed t ∧ (s.phase = .wDesel → t.dev.mem = storePage s.cfg (deviceAddr s.cfg s.cur) 0 (sentChunk k s) s.dev.mem) := by
  have g := g.turn
  have h := h.turn
  have hm : (cycleTick s).dev.mem = s.dev.mem := rfl
  have hc1 : sentChunk k (cycleTick s) = sentChunk k s := rfl
  have hph : (cycleTick s).phase = s.phase := rfl
  have hcfg : (cycleTick s).cfg = s.cfg := rfl
  have hcur : (cycleTick s).cur = s.cur := rfl
  have hb' : isWrite o = true → (cycleTick s).dev.bp = 0 := hbp
  rw [← hm, ← hc1, ← hcfg, ← hcur, ← hph]
  rw [← hph] at hi
  unfold Machine.tick at e
  generalize cycleTick s = s at *
  clear hm hc1 hph hcfg hcur hbp
  unfold phaseStep at e
  have b := g.belongs
  have f := g.fr
  unfold heldFrame at f
  have hok := h.ok
  have hready := h.ready
  have hlat := h.latched
  have hheard := h.heard
  cases hp : s.phase <;> rw [hp] at e b hi f hok hready hlat hheard <;> simp only [Host.Outcome.next.injEq] at e
  case idle => exact absurd rfl hi
  case xDesel => exact absurd hp h.noError
  case decode =>
    refine ⟨?_, by simp⟩
    obtain ⟨k', a, d, sc, r⟩ := g.decode hp
    rw [e] at a d sc r
    rcases r with ⟨r1, r2, _⟩ | ⟨r1, r2, _⟩
    · refine h.move sc (by rw [r1]; simp) (fun x => absurd r1 x) (by rw [r1]; simp) (by rw [r1]; intro x; cases x)
        (by rw [r1]; intro x; cases x) (by rw [r1]; rfl) (fun _ x => absurd x r2)
    · refine h.move sc (by rw [r1]; simp) (fun _ _ => r2.trans (hok (by simp) (by simp))) (by rw [r1]; simp)
        (by rw [r1]; intro x; cases x) (by rw [r1]; intro x; cases x) (by rw [r1]; rfl) (by rw [r1]; simp)
  case pDelay =>
    refine ⟨?_, by simp⟩
    rw [← e]
    refine h.move rfl ?_ (fun _ _ => hok (by simp) (by simp)) ?_ (fun x => by cases x)
        (fun x => by cases x) rfl ?_ <;> simp [stepPDelay, doDelay, Machine.goto]
  case pSel =>
    refine ⟨?_, by simp⟩
    rw [← e]
    refine h.move rfl ?_ (fun _ _ => hok (by simp) (by simp)) ?_ (fun x => by cases x)
        (fun x => by cases x) rfl ?_ <;> simp [stepPSel, doSelect, Machine.goto]
  case pOp =>
    refine ⟨?_, by simp⟩
    rw [← e]
    exact h.send (by rw [hp]; simp) (.inl rfl) (fun x => by cases x) (g.dsel (by rw [g.sel, hp]; rfl)) (fun x => by cases x)
  case pDummy =>
    refine ⟨?_, by simp⟩
    have ds : s.dev.dsel = true := g.dsel (by rw [g.sel, hp]; rfl)
    have ans : deviceAnswer s.cfg s.dev s.draws = drawStatus s.dev s.draws := by
      simp only [deviceAnswer, ds, if_true]
      rw [f]
      rfl
    unfold stepPDummy at e
    rw [exchange_quiet h.quiet, ans] at e
    simp only [drawStatus, rxStatus] at e
    rw [← e]
    refine ⟨quiet_tail h.quiet rfl, by simp [Machine.goto], fun _ _ => hok (by simp) (by simp), ?_, fun x => (by cases x),
        fun x => (by cases x), fun x => (by cases x), by simp [Machine.goto]⟩
    intro _ x
    simp only [Machine.goto] at x ⊢
    rw [deviceTake_wip]; exact x
  case pDesel =>
    refine ⟨?_, by simp⟩
    obtain ⟨u, hu, rfl⟩ := doDeselect_cases (p := .pTest) e
    have : u = { s with dev := { s.dev with dsel := false } } := by
      unfold deviceDeselect at hu
      rw [f] at hu
      simp only at hu
      split at hu
      · simpa using hu.symm
      · have : wireOpOf 0x05 = some .rdsr := by decide
        rw [this] at hu
        simpa using hu.symm
    subst this
    refine ⟨h.quiet, by simp, fun _ _ => hok (by simp) (by simp), ?_, fun x => (by cases x), fun x => (by cases x), fun x =>
        (by cases x), by simp⟩
    intro _ x
    exact h.seen (.inl hp) x
  case pTest =>
    refine ⟨?_, by simp⟩
    have seen := h.seen (.inr hp)
    have sel : s.sel = false := by rw [g.sel, hp]; rfl
    unfold stepPTest at e
    split at e
    · simp only [Host.Outcome.next.injEq] at e
      unfold countBusy at e
      simp only at e
      repeat' split at e
      all_goals subst e
      · exact h.move rfl (by simp [Machine.goto]) (fun _ _ => hok (by simp) (by simp)) (by simp [Machine.goto])
          (fun x => by cases x) (fun x => by cases x) rfl (by simp [Machine.goto])
      · have ph : (raise .deviceUnresponsive { s with pcnt := s.pcnt + 1 }).phase = .resp := by simp [raise, sel]
        exact h.move rfl (by rw [ph]; simp) (fun x => absurd ph x) (by rw [ph]; simp) (by rw [ph]; intro x; cases x)
            (by rw [ph]; intro x; cases x) (by rw [ph]; rfl) (by simp [raise])
      · exact h.move rfl (by simp [Machine.goto]) (fun _ _ => hok (by simp) (by simp)) (by simp [Machine.goto])
          (fun x => by cases x) (fun x => by cases x) rfl (by simp [Machine.goto])
    · next hw =>
      have wf := seen (by simpa using hw)
      unfold afterWait at e
      rw [g.op] at e
      have hop := g.op
      cases o <;> simp only [Host.Outcome.next.injEq] at e <;> rw [← e]
      · refine h.move rfl (by simp [Machine.goto]) (fun x => absurd rfl x) (by simp [Machine.goto]) (fun x => by cases x)
          (fun x => by cases x) rfl ?_
        intro _ _
        refine ⟨fun _ => wf, fun x => ?_⟩
        rw [show (Machine.goto .resp s).op = s.op from rfl, hop] at x; cases x
      all_goals exact h.move rfl (by simp [Machine.goto]) (fun _ _ => hok (by simp) (by simp)) (by simp [Machine.goto])
                  (fun _ => wf) (fun x => by cases x) rfl (by simp [Machine.goto])
  case eSel =>
    refine ⟨?_, by simp⟩
    rw [← e]
    exact h.move rfl (by simp [stepESel, doSelect, Machine.goto]) (fun _ _ => hok (by simp) (by simp))
        (by simp [stepESel, doSelect, Machine.goto]) (fun _ => hready rfl) (fun x => by cases x) rfl
        (by simp [stepESel, doSelect, Machine.goto])
  case eOp =>
    refine ⟨?_, by simp⟩
    rw [← e]
    exact h.send (by rw [hp]; simp) (.inr ⟨rfl, by rw [hp]; rfl⟩) (fun x => by cases x) (g.dsel (by rw [g.sel, hp]; rfl))
        (fun _ => .inl f)
  case eDesel =>
    refine ⟨?_, by simp⟩
    obtain ⟨u, hu, rfl⟩ := doDeselect_cases (p := .eDelay) e
    have ig := hheard rfl
    have : u = { s with dev := { s.dev with dsel := false, wel := true } } := by
      unfold deviceDeselect at hu
      rw [f, ig] at hu
      have : wireOpOf 0x06 = some .wren := by decide
      simp only [this] at hu
      simpa using hu.symm
    subst this
    exact h.move rfl (by simp) (fun _ _ => hok (by simp) (by simp)) (by simp) (fun _ => hready rfl) (fun _ => rfl) rfl (by simp)
  case eDelay =>
    refine ⟨?_, by simp⟩
    rw [← e]
    unfold stepEDelay
    split
    · next hw =>
      refine h.move rfl (by simp [doDelay, Machine.goto]) (fun x => absurd rfl x) (by simp [doDelay, Machine.goto])
          (fun x => by cases x) (fun x => by cases x) rfl ?_
      intro _ _
      refine ⟨fun _ => hready rfl, fun _ => ⟨hready rfl, hlat rfl⟩⟩
    · exact h.move rfl (by simp [doDelay, Machine.goto]) (fun _ _ => hok (by simp) (by simp)) (by simp [doDelay, Machine.goto])
        (fun _ => hready rfl) (fun _ => hlat rfl) rfl (by simp [doDelay, Machine.goto])
  case wSel =>
    refine ⟨?_, by simp⟩
    rw [← e]
    exact h.move rfl (by simp [stepWSel, doSelect, Machine.goto]) (fun _ _ => hok (by simp) (by simp))
        (by simp [stepWSel, doSelect, Machine.goto]) (fun _ => hready rfl) (fun _ => hlat rfl) rfl
        (by simp [stepWSel, doSelect, Machine.goto])
  case wOp =>
    refine ⟨?_, by simp⟩
    rw [← e]
    exact h.send (by rw [hp]; simp) (.inr ⟨rfl, by rw [hp]; rfl⟩) (fun _ => by rw [hp]; rfl) (g.dsel (by rw [g.sel, hp]; rfl))
        (fun _ => .inl f)
  case wAh =>
    refine ⟨?_, by simp⟩
    rw [← e]
    exact h.send (by rw [hp]; simp) (.inr ⟨rfl, by rw [hp]; rfl⟩) (fun _ => by rw [hp]; rfl) (g.dsel (by rw [g.sel, hp]; rfl))
        (fun _ => .inr ⟨by rw [f]; simp, by rw [hp]; rfl⟩)
  case wAl =>
    refine ⟨?_, by simp⟩
    rw [← e]
    unfold stepWAl
    split
    all_goals exact h.send (by rw [hp]; simp) (.inr ⟨rfl, by rw [hp]; rfl⟩) (fun _ => by rw [hp]; rfl) (g.dsel
                (by rw [g.sel, hp]; rfl)) (fun _ => .inr ⟨by rw [f]; simp, by rw [hp]; rfl⟩)
  case wData =>
    refine ⟨?_, by simp⟩
    have ds : s.dev.dsel = true := g.dsel (by rw [g.sel, hp]; rfl)
    unfold stepWData at e
    split at e
    · cases e
    split at e
    · cases e
    next x _ =>
    rw [exchange_quiet h.quiet] at e
    have ne := deviceAnswer_ne_err s.cfg s.dev s.draws
    generalize hr : deviceAnswer s.cfg s.dev s.draws = r at *
    obtain ⟨r, d⟩ := r
    have key : ∀ q, (q = .wDesel ∨ q = .wData) → Undisturbed (Machine.goto q { s with
        dev := deviceTake x s.dev, script := s.script.tail, draws := d, trace := s.trace ++ [.xfer x r], idx := s.idx + 1,
            run := s.run - 1 }) := by
      intro q hq
      refine ⟨quiet_tail h.quiet rfl, ?_, fun _ _ => hok (by simp) (by simp), ?_, fun _ => ?_, fun _ => ?_, fun _ => ?_, ?_⟩
      · rcases hq with rfl | rfl <;> simp [Machine.goto]
      · rcases hq with rfl | rfl <;> simp [Machine.goto]
      · simp only [Machine.goto, deviceTake_wip]; exact hready rfl
      · simp only [Machine.goto, deviceTake_wel]; exact hlat rfl
      · simp only [Machine.goto]; rw [deviceTake_ign_later ds (by rw [f]; simp)]; exact hheard rfl
      · rcases hq with rfl | rfl <;> simp [Machine.goto]
    cases r with
    | err => exact absurd rfl ne
    | byte y =>
      simp only [rxByte, Host.Outcome.next.injEq] at e; rw [← e]
      split
      · exact key _ (.inl rfl)
      · exact key _ (.inr rfl)
    | status y =>
      simp only [rxByte, Host.Outcome.next.injEq] at e; rw [← e]
      split
      · exact key _ (.inl rfl)
      · exact key _ (.inr rfl)
  case wDesel =>
    obtain ⟨u, hu, rfl⟩ := doDeselect_cases (p := .wNext) e
    have ig := hheard rfl
    have wl := hlat rfl
    have common : u.script = s.script ∧ u.err = s.err ∧ u.dev.mem = storePage s.cfg (deviceAddr s.cfg s.cur) 0
        (sentChunk k s) s.dev.mem := by
      cases hx : sentChunk k s with
      | nil =>
        rw [deselect_writeEmpty (f.trans (by rw [hx]; rfl)) ig wl, Host.Outcome.next.injEq] at hu
        obtain ⟨_, _, _, _, _, ec, _⟩ := commitEmpty_eq { s with dev := { s.dev with dsel := false } }
        rw [← hu, ec]
        exact ⟨rfl, rfl, rfl⟩
      | cons b bs =>
        have hb2 : s.dev.bp = 0 := hb' (by have bl := g.belongs; simp_all [opInv, isWrite])
        rw [deselect_write (f.trans (by rw [hx]; rfl)) ig wl hb2, Host.Outcome.next.injEq, joinBytes_hi_lo] at hu
        rw [← hu]
        exact ⟨startCycle_script _, startCycle_err _, startCycle_mem _⟩
    refine ⟨?_, fun _ => common.2.2⟩
    exact h.move common.1 (by simp) (fun _ _ => common.2.1.trans (hok (by simp) (by simp))) (by simp) (fun x => by cases x)
        (fun x => by cases x) rfl (by simp)
  case wNext =>
    refine ⟨?_, by simp⟩
    have ow : isWrite o = true := by simpa [opInv, isWrite] using b
    obtain ⟨k', a, d, sc, er, _, r⟩ := g.next hp
    rw [e] at a d sc er r
    have hop := a.op
    rcases r with ⟨r1, _⟩ | ⟨r1, _⟩
    · refine h.move sc (by rw [r1]; simp) (fun x => absurd r1 x) (by rw [r1]; simp) (by rw [r1]; intro x; cases x)
        (by rw [r1]; intro x; cases x) (by rw [r1]; rfl) ?_
      intro _ _
      rw [hop]
      cases o <;> simp [isWrite] at ow ⊢
    · exact h.move sc (by rw [r1]; simp) (fun _ _ => er.trans (hok (by simp) (by simp))) (by rw [r1]; simp)
        (by rw [r1]; intro x; cases x) (by rw [r1]; intro x; cases x) (by rw [r1]; rfl) (by rw [r1]; simp)
  case rSel =>
    refine ⟨?_, by simp⟩
    rw [← e]
    exact h.move rfl (by simp [stepRSel, doSelect, Machine.goto]) (fun _ _ => hok (by simp) (by simp))
        (by simp [stepRSel, doSelect, Machine.goto]) (fun _ => hready rfl) (fun x => by cases x) rfl
        (by simp [stepRSel, doSelect, Machine.goto])
  case rOp =>
    refine ⟨?_, by simp⟩
    rw [← e]
    exact h.send (by rw [hp]; simp) (.inr ⟨rfl, by rw [hp]; rfl⟩) (fun x => by cases x) (g.dsel (by rw [g.sel, hp]; rfl))
        (fun _ => .inl f)
  case rAh =>
    refine ⟨?_, by simp⟩
    rw [← e]
    exact h.send (by rw [hp]; simp) (.inr ⟨rfl, by rw [hp]; rfl⟩) (fun x => by cases x) (g.dsel (by rw [g.sel, hp]; rfl))
        (fun _ => .inr ⟨by rw [f]; simp, by rw [hp]; rfl⟩)
  case rAl =>
    refine ⟨?_, by simp⟩
    rw [← e]
    unfold stepRAl
    split
    all_goals exact h.send (by rw [hp]; simp) (.inr ⟨rfl, by rw [hp]; rfl⟩) (fun x => by cases x) (g.dsel
                (by rw [g.sel, hp]; rfl)) (fun _ => .inr ⟨by rw [f]; simp, by rw [hp]; rfl⟩)
  case rData =>
    refine ⟨?_, by simp⟩
    have ds : s.dev.dsel = true := g.dsel (by rw [g.sel, hp]; rfl)
    unfold stepRData at e
    split at e
    · cases e
    rw [exchange_quiet h.quiet] at e
    have ne := deviceAnswer_ne_err s.cfg s.dev s.draws
    generalize hr : deviceAnswer s.cfg s.dev s.draws = r at *
    obtain ⟨r, d⟩ := r
    have key : ∀ q y, (q = .rDesel ∨ q = .rData) → Undisturbed (Machine.goto q { s with
        dev := deviceTake s.cfg.dummy s.dev, script := s.script.tail, draws := d, trace := s.trace ++ [.xfer s.cfg.dummy r],
            rbuf := s.rbuf ++ [y], rem := s.rem - 1 }) := by
      intro q y hq
      refine ⟨quiet_tail h.quiet rfl, ?_, fun _ _ => hok (by simp) (by simp), ?_, fun _ => ?_, fun x => ?_, fun _ => ?_, ?_⟩
      · rcases hq with rfl | rfl <;> simp [Machine.goto]
      · rcases hq with rfl | rfl <;> simp [Machine.goto]
      · simp only [Machine.goto, deviceTake_wip]; exact hready rfl
      · rcases hq with rfl | rfl <;> cases x
      · simp only [Machine.goto]; obtain ⟨d, f⟩ := f; rw [deviceTake_ign_later ds (by rw [f]; simp)]; exact hheard rfl
      · rcases hq with rfl | rfl <;> simp [Machine.goto]
    cases r with
    | err => exact absurd rfl ne
    | byte y =>
      simp only [rxByte, Host.Outcome.next.injEq] at e; rw [← e]
      split
      · exact key _ _ (.inl rfl)
      · exact key _ _ (.inr rfl)
    | status y =>
      simp only [rxByte, Host.Outcome.next.injEq] at e; rw [← e]
      split
      · exact key _ _ (.inl rfl)
      · exact key _ _ (.inr rfl)
  case rDesel =>
    refine ⟨?_, by simp⟩
    obtain ⟨u, hu, rfl⟩ := doDeselect_cases (p := .resp) e
    have hop := g.op
    have common : u.script = s.script ∧ u.op = s.op := by
      obtain ⟨w, rfl⟩ | ⟨op, ah, al, c, cs, n, _, _, _, rfl⟩ | ⟨op, ah, al, b, bs, c, cs, n, _, _, _, _, _, rfl⟩ :=
        deviceDeselect_cases hu <;> exact ⟨rfl, rfl⟩
    refine h.move common.1 (by simp) (fun x => absurd rfl x) (by simp) (fun x => by cases x) (fun x => by cases x) rfl ?_
    intro _ _
    simp only [common.2, hop]
    cases o <;> simp [opInv] at b ⊢
  case resp =>
    refine ⟨?_, by simp⟩
    rw [← e]
    have fe := h.fence (.inl hp)
    exact h.move rfl (by simp [respond, Machine.goto]) (fun _ x => absurd rfl x) (by simp [respond, Machine.goto])
        (fun x => by cases x) (fun x => by cases x) rfl (fun _ x => fe x)

/-- Acceptance starts it. -/
theorem Undisturbed.accepted {s : State} {op addr len pl} (hq : Machine.quiet s) : Undisturbed (accept op addr len pl s) :=
  ⟨hq, by simp [accept, emit], fun _ _ => rfl, by simp [accept, emit], fun x => (by cases x), fun x => (by cases x), fun x =>
      (by cases x), by simp [accept, emit]⟩

end Sys2Proof.Machine
end

