-- ==== Sys2Proof/Tests/Slice0.lean ====
section
/-! SUPPORT. The model's own tests, their expected results from spec/95_test_vectors.md and the rules named, and for every obligation
with hypotheses a witness that meets them. -/

namespace Sys2Proof.Tests

open Sys2Proof.Machine

/-! ### Helpers -/

/-- A next state that passes `p`. -/
def after (r : Res) (p : State → Bool) : Bool :=
  match r with
  | .next s => p s
  | .fault _ => false
  | .refused _ => false

theorem next_of_after {r : Res} {p : State → Bool} (h : after r p = true) : ∃ t, r = .next t ∧ p t = true := by
  cases r with
  | next s => exact ⟨s, rfl, h⟩
  | fault e => simp [after] at h
  | refused e => simp [after] at h

/-- The default machine with the array's bytes `m`, the write cycles to come lasting `cycles` micro-steps. -/
def machine (m : Memory) (cycles : List (Option Nat)) : State :=
  { State.reset with dev := { Device.reset with mem := m }, cycles := cycles }

/-- A machine whose device is in a write cycle that ends after `cycle` micro-steps. -/
def busyMachine (cycle : Option Nat) : State :=
  { State.reset with dev := { Device.reset with wip := true, cycle := cycle } }

/-- The same with a limit on the status reads. -/
def limited (limit : Option Nat) (s : State) : State := { s with cfg := { s.cfg with pollLimit := limit } }

/-- The same under `SPLIT`. -/
def splitting (s : State) : State := { s with cfg := { s.cfg with spanPolicy := .split } }

/-- The same with another device (93_implementation_defined.md U7, U13, U17). -/
def withDevice (failed : FailedByte) (cut : CutFrame) (empty : EmptyWrite) (s : State) : State :=
  { s with dev := { s.dev with model := ⟨failed, cut, empty⟩ } }

/-- A machine in the middle of an operation. -/
def inPhase (p : Phase) (s : State) : State := { s with phase := p, sel := selectedPhase p, dev := { s.dev with dsel := selectedPhase p } }

/-! ### Well-formedness -/

/-- R93: a WRITE with `len` = 2 and one payload byte is no descriptor. -/
theorem test_wf_write_short : Instr.wf (.write 0x001E 2 [0x11]) = false := by decide

/-- R93: nor is one with a byte too many. -/
theorem test_wf_write_long : Instr.wf (.write 0x001E 2 [0x11, 0x22, 0x33]) = false := by decide

/-- R93: with exactly `len` bytes it is. -/
theorem test_wf_write : Instr.wf (.write 0x001E 2 [0x11, 0x22]) = true := by decide

/-! ### Decoding: a word of every constructor, written from spec/30_encoding.md R91 to R109 -/

/-- V-E2. -/
theorem test_decode_wait : decodeHost [0x10, 0xFF, 0xFF, 0xFF, 0xFF] = .instr (.wait 0xFFFF 0xFFFF) [] := by decide

/-- V-E1. -/
theorem test_decode_wren : decodeHost [0x11, 0x00, 0x00, 0x00, 0x00] = .instr (.wren 0x0000 0x0000) [] := by decide

/-- V-E2, with the next descriptor's first byte left over. -/
theorem test_decode_wrbyte :
    decodeHost [0x12, 0x01, 0x23, 0x00, 0x07, 0xAB, 0x14] = .instr (.wrbyte 0x0123 7 0xAB) [0x14] := by decide

/-- V-E1. -/
theorem test_decode_write :
    decodeHost [0x13, 0x00, 0x1E, 0x00, 0x02, 0x11, 0x22] = .instr (.write 0x001E 2 [0x11, 0x22]) [] := by decide

/-- V-E2. -/
theorem test_decode_rdbyte : decodeHost [0x14, 0x01, 0x23, 0xFF, 0xFF] = .instr (.rdbyte 0x0123 0xFFFF) [] := by decide

/-- V-E1. -/
theorem test_decode_read : decodeHost [0x15, 0x00, 0x00, 0x10, 0x00] = .instr (.read 0x0000 0x1000) [] := by decide

/-- V-E5, with `DUMMY` = 0xFF. -/
theorem test_decode_rdsr : decodeFrame [0x05, 0xFF] = .instr (.rdsrFrame 0xFF) [] := by decide

/-- V-E5. -/
theorem test_decode_wren_frame : decodeFrame [0x06] = .instr .wrenFrame [] := by decide

/-- V-E5. -/
theorem test_decode_write_frame :
    decodeFrame [0x02, 0x0F, 0xFF, 0xAB] = .instr (.writeFrame 0x0FFF [0xAB]) [] := by decide

/-- V-E5. -/
theorem test_decode_read_frame :
    decodeFrame [0x03, 0x00, 0x05, 0xFF, 0xFF] = .instr (.readFrame 0x0005 [0xFF, 0xFF]) [] := by decide

/-- R108. -/
theorem test_decode_wrdi_frame : decodeFrame [0x04] = .instr (.wrdiFrame []) [] := by decide

/-- R109. -/
theorem test_decode_wrsr_frame : decodeFrame [0x01, 0x0C] = .instr (.wrsrFrame [0x0C]) [] := by decide

/-- V-E3, R95: a wire opcode is no host opcode. -/
theorem test_decode_reserved : decodeHost [0x02, 0x00, 0x10, 0x00, 0x01] = .bad (.reserved 0x02 0x0010 1 []) := by decide

/-- R110: 0x07 is outside the six wire opcodes, and the RDSR frame has two bytes (R102). -/
theorem test_decode_bad_frames :
    decodeFrame [0x07] = .bad (.unlistedFrame 0x07) ∧ decodeFrame [0x05] = .bad (.malformedFrame .rdsr) := by decide

/-- R91: the word of `WRBYTE 0x0123` numbered as the table numbers it; its payload bits are zeros. -/
theorem test_table_word : decodeTableWord 40 0x1201230007 = some (.wrbyte 0x0123 7 0x00) ∧
    decodeTableWord 8 0x02 = some (.writeFrame 0x0000 []) := by decide

/-! ### One step of each instruction -/

/-- V-P1: the whole trace. -/
theorem test_wait : after (exec (.wait 0 0) (machine [] [])) (fun t =>
    decide (sent t.trace = [.cmd 0x10 0 0 [], .delay 1, .sel 0, .tx 0x05, .tx 0x00, .desel 0, .rsp .ok []])) = true := by decide

/-- V-P4: an answer of 0xFF in the status read is busy, the other bits do not count. -/
theorem test_wait_busy : after (exec (.wait 0 0) { machine [] [] with script := [.device, .byte 0xFF, .device, .byte 0xFE] })
    (fun t => decide (t.phase = .pDelay ∧ t.pcnt = 1) && after (step t) (fun u => decide (u.phase = .idle ∧ u.err = .ok))) = true := by
  decide

/-- V-F2: the pause is `T_WREN_US`. -/
theorem test_wren : after (exec (.wren 0 0) { machine [] [] with cfg := { Config.default with tWrenUs := 10 } })
    (fun t => decide (t.dev.wel = true ∧ sent t.trace = [.cmd 0x11 0 0 [], .delay 1, .sel 0, .tx 0x05, .tx 0x00, .desel 0, .sel 0,
      .tx 0x06, .desel 0, .delay 10, .rsp .ok []])) = true := by decide

/-- V-A7: the address's high byte first. -/
theorem test_wrbyte : after (exec (.wrbyte 0x0123 7 0xAB) (machine [] [some 50]))
    (fun t => decide (t.dev.mem = [(0x123, 0xAB)] ∧ t.dev.wip = true ∧ sent t.trace = [.cmd 0x12 0x0123 7 [0xAB], .delay 1, .sel 0,
      .tx 0x05, .tx 0x00, .desel 0, .sel 0, .tx 0x06, .desel 0, .delay 1, .sel 0, .tx 0x02, .tx 0x01, .tx 0x23, .tx 0xAB, .desel 0,
      .rsp .ok []])) = true := by decide

/-- V-A7: the first address past the array. -/
theorem test_wrbyte_address : after (exec (.wrbyte 0x1000 1 0x01) (machine [] []))
    (fun t => decide (t.trace = [.cmd 0x12 0x1000 1 [0x01], .rsp .invalidAddress []])) = true := by decide

/-- V-A5, first stretch and second: under `SPLIT` the third byte goes to the page's base. -/
theorem test_write_split : after (exec (.write 0x001E 3 [0x11, 0x22, 0x33]) (splitting (machine [] [some 8, some 50])))
    (fun t => decide (t.phase = .pDelay) && after (step t) (fun u =>
      decide (u.phase = .idle ∧ u.err = .ok ∧ u.dev.mem = [(0, 0x33), (30, 0x11), (31, 0x22)]))) = true := by decide

/-- V-X2, last row: the prefix of the chunk that the device has is stored, and a cycle runs. -/
theorem test_write_error :
    after (exec (.write 0x0020 2 [0xC1, 0xC2])
        { machine [] [some 50] with script := [.device, .device, .device, .device, .device, .device, .device, .err] })
      (fun t => decide (t.err = .transportError ∧ t.rbuf = [] ∧ t.dev.mem = [(0x20, 0xC1)] ∧ t.dev.wip = true)) = true := by decide

/-- V-F4: the last address. -/
theorem test_rdbyte : after (exec (.rdbyte 0x0FFF 0) (machine [(4095, 0x7E)] []))
    (fun t => decide (t.rbuf = [0x7E] ∧ sent t.trace = [.cmd 0x14 0x0FFF 0 [], .delay 1, .sel 0, .tx 0x05, .tx 0x00, .desel 0, .sel 0,
      .tx 0x03, .tx 0x0F, .tx 0xFF, .tx 0x00, .desel 0, .rsp .ok [0x7E]])) = true := by decide

/-- V-F5: the read wraps at the top of the array. -/
theorem test_read : after
    (exec (.read 0x0FFE 6) (machine [(0, 0xB0), (1, 0xB1), (2, 0xB2), (3, 0xB3), (4094, 0xA0), (4095, 0xA1)] []))
    (fun t => decide (t.err = .ok ∧ t.rbuf = [0xA0, 0xA1, 0xB0, 0xB1, 0xB2, 0xB3])) = true := by decide

/-- V-X3: what was received before the error is dropped. -/
theorem test_read_error : after
    (exec (.read 0x0005 2) { machine [(5, 0x55)] [] with script := [.device, .device, .device, .device, .device, .device, .err] })
    (fun t => decide (t.err = .transportError ∧ t.rbuf = [] ∧ t.phase = .idle ∧ t.sel = false)) = true := by decide

/-- S10, R68: a device with its latch set answers a status byte with bit 1 set. -/
theorem test_rdsr_frame : after
    (exec (.rdsrFrame 0x00) { machine [] [] with dev := { Device.reset with wel := true } })
    (fun t => match t.benchRx with
      | [_, .status st] => st.wel && !st.wip && decide (st.bp = 0)
      | _ => false) = true := by decide

/-- R70 (a). -/
theorem test_wren_frame : after (exec .wrenFrame (machine [] [])) (fun t => t.dev.wel && !t.dev.wip && t.trace.isEmpty) = true := by
  decide

/-- V-A11: the device's own wrap inside the page. -/
theorem test_write_frame : after
    (exec (.writeFrame 0x001E [0x11, 0x22, 0x33]) { machine [] [some 50] with dev := { Device.reset with wel := true } })
    (fun t => t.dev.wip && decide (t.dev.mem = [(0, 0x33), (30, 0x11), (31, 0x22)])) = true := by decide

/-- V-A11: the top address bits do not count. -/
theorem test_write_frame_top : after
    (exec (.writeFrame 0x1005 [0x77]) { machine [] [some 50] with dev := { Device.reset with wel := true } })
    (fun t => decide (t.dev.mem = [(5, 0x77)])) = true := by decide

/-- R69: data from the fourth byte on, wrapping at the top. -/
theorem test_read_frame : after (exec (.readFrame 0x0FFF [0, 0]) (machine [(0, 0xB0), (4095, 0xA1)] []))
    (fun t => decide (t.benchRx.drop 3 = [.byte 0xA1, .byte 0xB0])) = true := by decide

/-- R74. -/
theorem test_wrdi_frame : after (exec (.wrdiFrame []) { machine [] [] with dev := { Device.reset with wel := true } })
    (fun t => !t.dev.wel) = true := by decide

/-- R73: a busy device ignores even WRSR. -/
theorem test_wrsr_frame_busy : after (exec (.wrsrFrame [0x0C]) (busyMachine none)) (fun t => t.dev.wip && decide (t.dev.bp = 0)) = true := by
  decide

/-- R38, R92: a step from reset takes the descriptor at the host port. -/
theorem test_step_runs : after (step (State.reset.withFetchWord 40 0x1400000001)) (fun t =>
    decide (t.phase = .idle ∧ t.err = .ok ∧ t.rbuf = [0x00] ∧ t.hostPort = [])) = true := by decide

/-- V-E3 through `step`. -/
theorem test_step_reserved : after (step { State.reset with hostPort := [0xFF, 0xFF, 0xFF, 0xFF, 0xFF] }) (fun t =>
    decide (t.trace = [.cmd 0xFF 0xFFFF 0xFFFF [], .rsp .invalidCommand []])) = true := by decide


/-! ### Witnesses: for each statement with hypotheses, a state and operands that meet all of them -/

/-- A legal configuration with one busy read allowed, and an array of two bytes. -/
def small : Config := { Config.default with pageSize := 4, addrSpaceSize := 8, pollLimit := some 1 }

theorem witness_InvariantAtReset :
    configLegal small = true ∧ Memory.wf [(0, 1), (7, 2)] = true ∧ memoryInside small [(0, 1), (7, 2)] := by
  refine ⟨by decide, by decide, ?_⟩
  intro x hx
  simp only [List.mem_cons, List.not_mem_nil, or_false] at hx
  rcases hx with rfl | rfl <;> decide

/-- Both clauses, and the least legal page and limit. -/
theorem witness_LegalConfiguration :
    configLegal { Config.default with pageSize := 3 } = false ∧ configLegal { Config.default with pollLimit := some 0 } = false ∧
      configLegal { Config.default with pageSize := 1, pollLimit := some 1 } = true ∧
      configLegal { Config.default with addrSpaceSize := 65536 } = true ∧ ({ Device.reset with bp := 1 }).bp ≠ 0 := by decide

/-- A first byte, in each of the four phases. -/
theorem witness_WireOpcodeValues :
    (after (tick (inPhase .pOp State.reset)) fun _ => true) = true ∧ (after (tick (inPhase .eOp State.reset)) fun _ => true) = true ∧
      (after (tick (inPhase .wOp State.reset)) fun _ => true) = true ∧
      (after (tick (inPhase .rOp { State.reset with script := [.err] })) fun _ => true) = true := by decide

theorem witness_DecodeEncode :
    Instr.wf (.write 0 1 [9]) = true ∧ Instr.isHost (.write 0 1 [9]) = true ∧ Instr.wf (.readFrame 0 [0]) = true ∧
      Instr.isHost (.readFrame 0 [0]) = false := by decide

theorem witness_EncodeDecode : decodeHost [0x13, 0, 0, 0, 1, 9, 5] = .instr (.write 0 1 [9]) [5] ∧
    decodeFrame [0x03, 0, 0] = .instr (.readFrame 0 []) [] := by decide

theorem witness_DescriptorLength : ([9, 8] : List Byte).length = (2 : Half).toNat ∧ hostOpOf 0x0F = none ∧ hostOpOf 0x16 = none := by
  decide

/-- The reserved opcodes next to the listed ones. -/
theorem witness_ReservedOpcode :
    (0x0F : Byte).toNat < 0x10 ∧ 0x15 < (0x16 : Byte).toNat ∧ gate State.reset = none ∧ State.reset.phase = .idle ∧
      State.reset.sel = false ∧ State.reset.bench = [] ∧
      { State.reset with hostPort := [0x0F, 0, 0, 0, 0] }.hostPort = [0x0F, 0, 0, 0, 0] := by decide

theorem witness_StepRunsTheDecodedInstruction :
    gate State.reset = none ∧ State.reset.phase = .idle ∧ State.reset.bench = [] ∧
      decodeHost [0x10, 0, 0, 0, 0] = .instr (.wait 0 0) [] ∧ decodeFrame [0x06] = .instr .wrenFrame [] := by decide

theorem witness_StepIdle :
    gate State.reset = none ∧ State.reset.phase = .idle ∧ State.reset.bench = [] ∧ State.reset.hostPort = [] := by decide

theorem witness_NotAcceptedOutsideIdle :
    (inPhase .pDelay State.reset).phase ≠ .idle ∧ gate (inPhase .pDelay State.reset) = none ∧
      Instr.isHost (.wait 0 0) = true ∧ Instr.isHost .wrenFrame = false := by decide

/-- A micro-step of `DECODE`, one of another phase. -/
theorem witness_CommandRegisters :
    (after (tick (inPhase .decode { State.reset with op := 0x14, len := 9 })) fun t => decide (t.len = 1)) = true ∧
      (after (tick (inPhase .pDelay { State.reset with op := 0x14, len := 9 })) fun t => decide (t.len = 9)) = true := by decide

theorem witness_ConfigurationImmutable :
    (after (step State.reset) fun _ => true) = true ∧ (after (exec (.wait 0 0) State.reset) fun _ => true) = true ∧
      (after (tick (inPhase .resp State.reset)) fun _ => true) = true := by decide

/-- A micro-step without an event, one with. -/
theorem witness_OneEventPerMicroStep :
    (after (tick (inPhase .wNext State.reset)) fun t => decide (t.trace = [])) = true ∧
      (after (tick (inPhase .pSel State.reset)) fun t => decide (t.trace = [.sel 0] ∧ t.sel = true)) = true := by decide

/-- A micro-step for each clause. -/
theorem witness_PhaseOrder :
    (after (tick (inPhase .pTest { State.reset with sr := ⟨0, 0, false, true⟩ })) fun t => decide (t.phase = .pDelay)) = true ∧
      (after (tick (inPhase .pTest { State.reset with op := 0x15 })) fun t => decide (t.phase = .rSel)) = true ∧
      (after (tick (inPhase .eDelay { State.reset with op := 0x11 })) fun t => decide (t.phase = .resp)) = true ∧
      (after (tick (inPhase .wAl State.reset)) fun t => decide (t.phase = .wDesel ∧ t.err = .ok)) = true ∧
      (after (tick (inPhase .rAl { State.reset with rem := 1 })) fun t => decide (t.phase = .rData ∧ t.err = .ok)) = true ∧
      (after (tick (inPhase .wData { State.reset with run := 1, wbuf := [9] })) fun t => decide (t.phase = .wDesel ∧ t.err = .ok)) = true ∧
      (after (tick (inPhase .rData { State.reset with rem := 2 })) fun t => decide (t.phase = .rData ∧ t.err = .ok)) = true := by
  decide

/-- The three ready cases, and a busy answer at the limit and one below it. -/
theorem witness_PollTest :
    (inPhase .pTest State.reset).phase = .pTest ∧ (inPhase .pTest State.reset).sel = false ∧
      (⟨0xF, 3, true, false⟩ : Status).wip = false ∧ (⟨0, 0, false, true⟩ : Status).wip = true ∧
      hostOpOf 0x10 = some .wait ∧ hostOpOf 0x11 = some .wren ∧ hostOpOf 0x14 = some .rdbyte ∧
      (limited (some 3) State.reset).cfg.pollLimit = some 3 ∧ 3 ≤ { State.reset with pcnt := 2 }.pcnt + 1 ∧
      { State.reset with pcnt := 1 }.pcnt + 1 < 3 := by decide

/-- Each clause at the values where they meet: the last address and the next, `max_run` bytes and one more. -/
theorem witness_DecodeSetsUp :
    gate (inPhase .decode State.reset) = none ∧ (inPhase .decode State.reset).sel = false ∧
      hostOpOf 0x10 = some .wait ∧ hostOpOf 0x15 = some .read ∧ hostOpOf 0x13 = some .write ∧ hostOpOf 0x0F = none ∧
      lastAddr State.reset.cfg < (0x1000 : Half).toNat ∧ (0x0FFF : Half).toNat ≤ lastAddr State.reset.cfg ∧
      (2 : Half).toNat ≤ 32 - (0x1E : Half).toNat % 32 ∧ 32 - (0x1E : Half).toNat % 32 < (3 : Half).toNat ∧
      State.reset.cfg.spanPolicy = .reject ∧ (splitting State.reset).cfg.spanPolicy = .split := by decide

/-- At the end of a write, and with one byte left. -/
theorem witness_NextChunk :
    gate (inPhase .wNext State.reset) = none ∧ (inPhase .wNext State.reset).phase = .wNext ∧ State.reset.rem = 0 ∧
      { State.reset with rem := 1 }.rem ≠ 0 := by decide

theorem witness_RaiseEnds :
    (after (phaseStep (inPhase .xDesel State.reset)) fun _ => true) = true ∧ (inPhase .resp State.reset).phase = .resp := by decide

/-! The premises of the host commands: a device idle and answering, the last address, the longest run and the shortest. -/

theorem quiet_of_empty {s : State} (h : s.script = []) : quiet s := fun a m => by rw [h] at m; cases m

theorem reset_goesThrough : goesThrough State.reset :=
  ⟨rfl, rfl, rfl, quiet_of_empty rfl⟩

theorem reset_quiet : quiet State.reset := reset_goesThrough.2.2.2

theorem witness_WaitCompletes : goesThrough State.reset := reset_goesThrough

theorem witness_WrenCompletes : goesThrough State.reset := reset_goesThrough

theorem witness_ReadCompletes : goesThrough State.reset ∧ (0x0FFF : Half).toNat ≤ lastAddr State.reset.cfg :=
  ⟨reset_goesThrough, by decide⟩

theorem witness_RdbyteCompletes :
    goesThrough State.reset ∧ configLegal State.reset.cfg = true ∧ (0x0FFF : Half).toNat ≤ lastAddr State.reset.cfg :=
  ⟨reset_goesThrough, by decide, by decide⟩

theorem witness_WriteCompletes :
    goesThrough State.reset ∧ gate State.reset = none ∧ Memory.wf State.reset.dev.mem = true ∧
      ([0x11, 0x22] : List Byte).length = (2 : Half).toNat ∧ ([0x11, 0x22] : List Byte) ≠ [] ∧
      (0x001E : Half).toNat ≤ lastAddr State.reset.cfg ∧ (2 : Half).toNat ≤ maxRun State.reset.cfg 0x001E :=
  ⟨reset_goesThrough, by decide, by decide, by decide, by decide, by decide, by decide⟩

theorem witness_WrbyteCompletes :
    goesThrough State.reset ∧ gate State.reset = none ∧ Memory.wf State.reset.dev.mem = true ∧
      (0x0FFF : Half).toNat ≤ lastAddr State.reset.cfg :=
  ⟨reset_goesThrough, by decide, by decide, by decide⟩

theorem witness_EmptyWriteCompletes : goesThrough State.reset ∧ (0x0FFF : Half).toNat ≤ lastAddr State.reset.cfg :=
  ⟨reset_goesThrough, by decide⟩

/-- Each device of U7: unchanged, its latch cleared, a cycle that stores nothing. -/
theorem witness_EmptyWriteCompletes_devices :
    (after (exec (.write 5 0 []) (withDevice .dropped .taken .unchanged (machine [] [some 50]))) fun t => !t.dev.wip && t.dev.wel) = true ∧
      (after (exec (.write 5 0 []) (withDevice .dropped .taken .disarming (machine [] [some 50]))) fun t =>
        !t.dev.wip && !t.dev.wel) = true ∧
      (after (exec (.write 5 0 []) (withDevice .dropped .taken .cycling (machine [] [some 50]))) fun t =>
        t.dev.wip && t.dev.wel && t.dev.mem.isEmpty) = true := by decide

/-! Waiting. -/

theorem witness_BusyDeviceIsWaitedFor :
    gate (limited (some 2) (busyMachine (some 5))) = none ∧ (busyMachine (some 5)).phase = .idle ∧
      (busyMachine (some 5)).sel = false ∧ quiet (limited (some 2) (busyMachine (some 5))) ∧ busyFor 5 (busyMachine (some 5)).dev ∧
      hostCommand (.write 0x001E 2 [0x11, 0x22]) = some (.write, 0x001E, 2, [0x11, 0x22]) ∧
      passes (limited (some 2) (busyMachine (some 5))).cfg (.write 0x001E 2 [0x11, 0x22]) = true ∧
      ∀ n, (limited (some 2) (busyMachine (some 5))).cfg.pollLimit = some n → 1 < n :=
  ⟨by decide, rfl, rfl, quiet_of_empty rfl, ⟨rfl, Nat.le_refl 5⟩, rfl, by decide, fun n h => (by cases h; decide)⟩

theorem witness_StuckDeviceIsReported :
    gate (limited (some 1) (busyMachine none)) = none ∧ (busyMachine none).phase = .idle ∧ (busyMachine none).sel = false ∧
      quiet (limited (some 1) (busyMachine none)) ∧ stuck (busyMachine none).dev ∧
      (limited (some 1) (busyMachine none)).cfg.pollLimit = some 1 ∧ hostCommand (.rdbyte 0 0) = some (.rdbyte, 0, 0, []) ∧
      passes (limited (some 1) (busyMachine none)).cfg (.rdbyte 0 0) = true :=
  ⟨by decide, rfl, rfl, quiet_of_empty rfl, ⟨rfl, rfl⟩, rfl, rfl, by decide⟩

/-- A WRITE to be split is among the commands the statement is about. -/
theorem witness_StuckDeviceHangs :
    let s : State := splitting (busyMachine none)
    let i : Instr := .write 0x001E 3 [0x11, 0x22, 0x33]
    gate s = none ∧ s.phase = .idle ∧ s.sel = false ∧ quiet s ∧ stuck s.dev ∧ s.cfg.pollLimit = none ∧ i.isHost = true ∧
      passes s.cfg i = true :=
  ⟨by decide, rfl, rfl, quiet_of_empty rfl, ⟨rfl, rfl⟩, rfl, rfl, by decide⟩

/-- Two chunks, a cycle running at the start. -/
theorem witness_EveryOperationResponds :
    let s : State := splitting { busyMachine (some 9) with cycles := List.replicate 8 (some 8) }
    let i : Instr := .write 0x001E 3 [0x11, 0x22, 0x33]
    gate s = none ∧ s.phase = .idle ∧ s.sel = false ∧ quiet s ∧ s.cfg.pollLimit = none ∧ i.wf = true ∧ passes s.cfg i = true ∧
      (s.dev.wip = true → s.dev.cycle ≠ none) ∧ (∀ e ∈ s.cycles, e ≠ none) ∧ (encode i).length ≤ s.cycles.length :=
  ⟨by decide, rfl, rfl, quiet_of_empty rfl, rfl, by decide, by decide, by decide, by decide, by decide⟩

/-! Errors. -/

theorem witness_InvalidAddress :
    State.reset.phase = .idle ∧ State.reset.sel = false ∧ hostCommand (.rdbyte 0x1000 1) = some (.rdbyte, 0x1000, 1, []) ∧
      HostOp.rdbyte ≠ .wait ∧ HostOp.rdbyte ≠ .wren ∧ lastAddr State.reset.cfg < (0x1000 : Half).toNat := by decide

/-- The operation, and the micro-step that raises the code. -/
theorem witness_InvalidWriteSpan :
    State.reset.phase = .idle ∧ State.reset.sel = false ∧ (0x001E : Half).toNat ≤ lastAddr State.reset.cfg ∧
      maxRun State.reset.cfg 0x001E < (3 : Half).toNat ∧ State.reset.cfg.spanPolicy = .reject ∧ gate State.reset = none ∧
      (after (tick (inPhase .decode { State.reset with op := 0x13, addr := 0x001E, len := 3, wbuf := [1, 2, 3] })) fun t =>
        decide (t.err = .invalidWriteSpan)) = true := by decide

/-- A micro-step for each code. -/
theorem witness_ErrorCauses :
    (after (tick (inPhase .decode State.reset)) fun t => decide (t.err = .invalidCommand)) = true ∧
      (after (tick (inPhase .decode { State.reset with op := 0x14, addr := 0x1000 })) fun t => decide (t.err = .invalidAddress)) = true ∧
      (after (tick (inPhase .decode { State.reset with op := 0x13, len := 33 })) fun t => decide (t.err = .invalidWriteSpan)) = true ∧
      (after (tick (inPhase .pTest (limited (some 1) { State.reset with sr := ⟨0, 0, false, true⟩ }))) fun t =>
        decide (t.err = .deviceUnresponsive)) = true ∧
      (after (tick (inPhase .pOp { State.reset with script := [.err] })) fun t => decide (t.err = .transportError)) = true := by decide

/-- The first exchange of a `WAIT`: after `CMD`, `DELAY` and `SEL`. -/
def inStatusRead : State :=
  inPhase .pOp { State.reset with op := 0x10, script := [.err], trace := [.cmd 0x10 0 0 [], .delay 1, .sel 0] }

theorem witness_TransportErrorEnds :
    Inv inStatusRead ∧ exchangePhase inStatusRead.phase = true ∧ inStatusRead.script = .err :: [] :=
  ⟨⟨by decide, ⟨by decide, by decide, ⟨true, true, 0, 0, false, false⟩, by decide, by decide, by decide, by decide⟩,
    ⟨by decide, by decide, by decide, fun h => absurd h (by decide), fun h => absurd h (by decide)⟩,
    ⟨by decide, fun x h => by cases h⟩⟩, by decide, rfl⟩

/-- Each device of U13 and U17 after the second data byte failed: the prefix, the failed byte too, nothing, nothing and the latch cleared. -/
theorem witness_TransportErrorEnds_devices :
    let s : State :=
      { machine [] [some 50] with script := [.device, .device, .device, .device, .device, .device, .device, .err] }
    let i : Instr := .write 0x0020 2 [0xC1, 0xC2]
    (after (exec i (withDevice .dropped .taken .unchanged s)) fun t => decide (t.dev.mem = [(0x20, 0xC1)])) = true ∧
      (after (exec i (withDevice .received .taken .unchanged s)) fun t => decide (t.dev.mem = [(0x20, 0xC1), (0x21, 0xC2)])) = true ∧
      (after (exec i (withDevice .received .ignored .unchanged s)) fun t => t.dev.mem.isEmpty && !t.dev.wip && t.dev.wel) = true ∧
      (after (exec i (withDevice .dropped .disarming .unchanged s)) fun t => t.dev.mem.isEmpty && !t.dev.wel) = true := by decide

/-! Frames and whole operations: runs that respond, waiting in between. -/

/-- The outcome of an instruction and what of it goes on, responded with `OK`. -/
def answersOk (i : Instr) (n : Nat) (s : State) (p : State → Bool) : Bool :=
  after (exec i s) fun u => after (goesOn n u) fun t => decide (t.phase = .idle ∧ t.err = .ok) && p t

theorem run_of_answersOk {i : Instr} {n : Nat} {s : State} {p : State → Bool} (h : answersOk i n s p = true) :
    ∃ u t, exec i s = .next u ∧ goesOn n u = .next t ∧ t.phase = .idle ∧ t.err = .ok ∧ p t = true := by
  obtain ⟨u, hu, h⟩ := next_of_after h
  obtain ⟨t, ht, h⟩ := next_of_after h
  simp only [Bool.and_eq_true, decide_eq_true_eq] at h
  exact ⟨u, t, hu, ht, h.1.1, h.1.2, h.2⟩

theorem busy_quiet (c : Option Nat) : quiet (busyMachine c) := quiet_of_empty rfl

/-- A READ that waits once. -/
theorem witness_ReadingFrame :
    reads (.read 0x0FFE 6) = true ∧ (busyMachine (some 6)).phase = .idle ∧ (busyMachine (some 6)).sel = false ∧
      ∃ u t, exec (.read 0x0FFE 6) (busyMachine (some 6)) = .next u ∧ u.phase = .pDelay ∧ goesOn 1 u = .next t := by
  have h : after (exec (.read 0x0FFE 6) (busyMachine (some 6))) (fun u => decide (u.phase = .pDelay) && after (goesOn 1 u) fun _ => true) =
      true := by decide
  obtain ⟨u, hu, h⟩ := next_of_after h
  simp only [Bool.and_eq_true, decide_eq_true_eq] at h
  obtain ⟨t, ht, -⟩ := next_of_after h.2
  exact ⟨rfl, rfl, rfl, u, t, hu, h.1, ht⟩

/-- A WRITE of two chunks, the wait between them. -/
def splitMachine : State := splitting (machine [(5, 0x55)] [some 8, some 50])

theorem splitMachine_quiet : quiet splitMachine := quiet_of_empty rfl

theorem witness_WritingFrame :
    hostCommand (.write 0x001E 3 [1, 2, 3]) = some (.write, 0x001E, 3, [1, 2, 3]) ∧ Instr.wf (.write 0x001E 3 [1, 2, 3]) = true ∧
      gate splitMachine = none ∧ splitMachine.phase = .idle ∧ splitMachine.sel = false ∧ Memory.wf splitMachine.dev.mem = true ∧
      ∃ u t, exec (.write 0x001E 3 [1, 2, 3]) splitMachine = .next u ∧ goesOn 1 u = .next t := by
  obtain ⟨u, t, hu, ht, -⟩ :=
    run_of_answersOk (i := .write 0x001E 3 [1, 2, 3]) (n := 1) (s := splitMachine) (p := fun _ => true) (by decide)
  exact ⟨rfl, by decide, by decide, rfl, rfl, by decide, u, t, hu, ht⟩

/-- One frame of another row and one WRITE frame that stores. -/
theorem witness_WireFrameFrame :
    Instr.isHost (.rdsrFrame 0) = false ∧ (after (exec (.rdsrFrame 0) State.reset) fun _ => true) = true ∧
      Instr.isHost (.writeFrame 5 [9]) = false ∧ Memory.wf State.reset.dev.mem = true ∧
      (after (exec (.writeFrame 5 [9]) { State.reset with dev := { Device.reset with wel := true } }) fun t =>
        decide (t.dev.mem = [(5, 9)])) = true := by decide

theorem witness_WriteStoresItsData :
    hostCommand (.write 0x001E 3 [1, 2, 3]) = some (.write, 0x001E, 3, [1, 2, 3]) ∧ Instr.wf (.write 0x001E 3 [1, 2, 3]) = true ∧
      gate splitMachine = none ∧ splitMachine.phase = .idle ∧ splitMachine.sel = false ∧ quiet splitMachine ∧
      ∃ u t, exec (.write 0x001E 3 [1, 2, 3]) splitMachine = .next u ∧ goesOn 1 u = .next t ∧ t.phase = .idle ∧ t.err = .ok := by
  obtain ⟨u, t, hu, ht, hp, he, -⟩ :=
    run_of_answersOk (i := .write 0x001E 3 [1, 2, 3]) (n := 1) (s := splitMachine) (p := fun _ => true) (by decide)
  exact ⟨rfl, by decide, by decide, rfl, rfl, splitMachine_quiet, u, t, hu, ht, hp, he⟩

theorem witness_ReadReturnsTheArray :
    hostCommand (.read 0x0FFE 6) = some (.read, 0x0FFE, 6, []) ∧ (busyMachine (some 6)).phase = .idle ∧
      (busyMachine (some 6)).sel = false ∧ quiet (busyMachine (some 6)) ∧
      ∃ u t, exec (.read 0x0FFE 6) (busyMachine (some 6)) = .next u ∧ goesOn 1 u = .next t ∧ t.phase = .idle ∧ t.err = .ok := by
  obtain ⟨u, t, hu, ht, hp, he, -⟩ :=
    run_of_answersOk (i := .read 0x0FFE 6) (n := 1) (s := busyMachine (some 6)) (p := fun _ => true) (by decide)
  exact ⟨rfl, rfl, rfl, busy_quiet _, u, t, hu, ht, hp, he⟩

/-- Both instructions. -/
theorem witness_WaitIsAFence :
    (busyMachine (some 6)).phase = .idle ∧ (busyMachine (some 6)).sel = false ∧ quiet (busyMachine (some 6)) ∧
      (∃ u t, exec (.wait 0 0) (busyMachine (some 6)) = .next u ∧ goesOn 1 u = .next t ∧ t.phase = .idle ∧ t.err = .ok) ∧
      ∃ u t, exec (.wren 0 0) (busyMachine (some 6)) = .next u ∧ goesOn 1 u = .next t ∧ t.phase = .idle ∧ t.err = .ok := by
  obtain ⟨u, t, hu, ht, hp, he, -⟩ :=
    run_of_answersOk (i := .wait 0 0) (n := 1) (s := busyMachine (some 6)) (p := fun _ => true) (by decide)
  obtain ⟨u', t', hu', ht', hp', he', -⟩ :=
    run_of_answersOk (i := .wren 0 0) (n := 1) (s := busyMachine (some 6)) (p := fun _ => true) (by decide)
  exact ⟨rfl, rfl, busy_quiet _, ⟨u, t, hu, ht, hp, he⟩, u', t', hu', ht', hp', he'⟩

/-- The read waits for the write's cycle. -/
theorem witness_RoundTrip :
    gate (machine [] [some 8]) = none ∧ (machine [] [some 8]).phase = .idle ∧ (machine [] [some 8]).sel = false ∧
      quiet (machine [] [some 8]) ∧ Memory.wf (machine [] [some 8]).dev.mem = true ∧
      ∃ u t w x, exec (.wrbyte 0x0123 1 0xAB) (machine [] [some 8]) = .next u ∧ goesOn 0 u = .next t ∧ t.phase = .idle ∧
        t.err = .ok ∧ exec (.rdbyte 0x0123 1) t = .next w ∧ goesOn 1 w = .next x ∧ x.phase = .idle ∧ x.err = .ok := by
  obtain ⟨u, t, hu, ht, hp, he, h⟩ :=
    run_of_answersOk (i := .wrbyte 0x0123 1 0xAB) (n := 0) (s := machine [] [some 8])
      (p := fun t => answersOk (.rdbyte 0x0123 1) 1 t fun _ => true) (by decide)
  obtain ⟨w, x, hw, hx, hq, hf, -⟩ := run_of_answersOk h
  exact ⟨by decide, rfl, rfl, quiet_of_empty rfl, by decide, u, t, w, x, hu, ht, hp, he, hw, hx, hq, hf⟩

theorem witness_SplitEqualsOneFrame :
    gate splitMachine = none ∧ splitMachine.phase = .idle ∧ splitMachine.sel = false ∧ quiet splitMachine ∧
      splitMachine.dev.wip = false ∧ ([1, 2, 3] : List Byte) ≠ [] ∧ ([1, 2, 3] : List Byte).length = (3 : Half).toNat ∧
      splitMachine.cfg.spanPolicy = .split ∧
      (∃ u t, exec (.write 0x001E 3 [1, 2, 3]) splitMachine = .next u ∧ goesOn 1 u = .next t ∧ t.phase = .idle ∧ t.err = .ok) ∧
      ∃ v, exec (.writeFrame 0x001E [1, 2, 3]) { splitMachine with dev := { splitMachine.dev with wel := true } } = .next v := by
  obtain ⟨u, t, hu, ht, hp, he, -⟩ :=
    run_of_answersOk (i := .write 0x001E 3 [1, 2, 3]) (n := 1) (s := splitMachine) (p := fun _ => true) (by decide)
  obtain ⟨v, hv, -⟩ := next_of_after (r := exec (.writeFrame 0x001E [1, 2, 3])
    { splitMachine with dev := { splitMachine.dev with wel := true } }) (p := fun _ => true) (by decide)
  exact ⟨by decide, rfl, rfl, splitMachine_quiet, rfl, by decide, by decide, rfl, ⟨u, t, hu, ht, hp, he⟩, v, hv⟩

/-! Arithmetic. -/

/-- A page-aligned address, a page's last one, and one between. -/
theorem witness_MaxRun :
    configLegal Config.default = true ∧ Config.default.pageSize.toNat ∣ (32 : Half).toNat ∧
      Config.default.pageSize.toNat ∣ (31 : Half).toNat + 1 ∧ Config.default.pageSize.toNat = 2 ^ 5 ∧
      maxRun Config.default 0x0123 = 29 := by decide

theorem witness_MaxRunNeverWraps : configLegal Config.default = true ∧ 1 < maxRun Config.default 0x001E := by decide

/-- A byte no later one overwrites, in data longer than the page, and an address outside the page. -/
theorem witness_PageWrap :
    configLegal small = true ∧ Memory.wf [(0, 1)] = true ∧ ([1, 2, 3, 4, 5] : List Byte)[1]? = some 2 ∧
      (∀ i, 1 < i → i < ([1, 2, 3, 4, 5] : List Byte).length →
        (6 % small.pageSize.toNat + i) % small.pageSize.toNat ≠ (6 % small.pageSize.toNat + 1) % small.pageSize.toNat) ∧
      3 / small.pageSize.toNat ≠ 6 / small.pageSize.toNat := by
  refine ⟨by decide, by decide, by decide, ?_, by decide⟩
  intro i lo hi
  have : i = 2 ∨ i = 3 ∨ i = 4 := by simp only [List.length_cons, List.length_nil] at hi; omega
  rcases this with rfl | rfl | rfl <;> decide

/-! The device's frames. -/

/-- An idle device, and one busy long enough. -/
theorem witness_RdsrFrame :
    State.reset.phase = .idle ∧ quiet State.reset ∧ State.reset.dev.wip = false ∧ quiet (busyMachine (some 4)) ∧
      busyFor 4 (busyMachine (some 4)).dev :=
  ⟨rfl, reset_quiet, rfl, busy_quiet _, rfl, Nat.le_refl 4⟩

theorem witness_WrenFrame : State.reset.phase = .idle ∧ quiet State.reset ∧ State.reset.dev.wip = false := ⟨rfl, reset_quiet, rfl⟩

/-- The latch set, with data; the latch clear. -/
theorem witness_WriteFrame :
    State.reset.phase = .idle ∧ quiet State.reset ∧ State.reset.dev.wip = false ∧ State.reset.dev.bp = 0 ∧
      ({ Device.reset with wel := true }).wel = true ∧ ([9] : List Byte) ≠ [] ∧ State.reset.dev.wel = false :=
  ⟨rfl, reset_quiet, rfl, rfl, rfl, by decide, rfl⟩

/-- No data, the latch set, for each device of U7. -/
theorem witness_WriteFrame_devices :
    let s : State := { machine [] [some 50] with dev := { Device.reset with wel := true } }
    (after (exec (.writeFrame 5 []) (withDevice .dropped .taken .unchanged s)) fun t => !t.dev.wip && t.dev.wel) = true ∧
      (after (exec (.writeFrame 5 []) (withDevice .dropped .taken .disarming s)) fun t => !t.dev.wip && !t.dev.wel) = true ∧
      (after (exec (.writeFrame 5 []) (withDevice .dropped .taken .cycling s)) fun t => t.dev.wip && t.dev.wel) = true := by decide

theorem witness_ReadFrame : State.reset.phase = .idle ∧ quiet State.reset ∧ State.reset.dev.wip = false := ⟨rfl, reset_quiet, rfl⟩

theorem witness_UnusedFrames : State.reset.phase = .idle ∧ quiet State.reset ∧ State.reset.dev.wip = false := ⟨rfl, reset_quiet, rfl⟩

theorem witness_BusyDeviceIgnoresFrames :
    (busyMachine (some 4)).phase = .idle ∧ quiet (busyMachine (some 4)) ∧ Instr.isHost (.wrsrFrame [0x0C]) = false ∧
      (∀ dummy, Instr.wrsrFrame [0x0C] ≠ .rdsrFrame dummy) ∧
      busyFor ((encode (.wrsrFrame [0x0C])).length + 2) (busyMachine (some 4)).dev :=
  ⟨rfl, busy_quiet _, rfl, fun d h => (by cases h), rfl, Nat.le_refl 4⟩

/-! The whole machine. -/

theorem reset_inv : Inv State.reset :=
  ⟨by decide, ⟨rfl, rfl, Monitor.init, by decide, by decide, by decide, by decide⟩,
    ⟨by decide, by decide, by decide, fun h => absurd h (by decide), fun h => absurd h (by decide)⟩, ⟨by decide, fun x h => by cases h⟩⟩

theorem witness_MicroStepKeepsInvariant : Inv inStatusRead := witness_TransportErrorEnds.1

theorem witness_StepKeepsInvariant : Inv inStatusRead ∧ (after (step inStatusRead) fun t => decide (t.phase = .idle)) = true :=
  ⟨witness_TransportErrorEnds.1, by decide⟩

theorem witness_SequencerNeverStops : Inv inStatusRead ∧ inStatusRead.bench = [] := ⟨witness_TransportErrorEnds.1, rfl⟩

theorem witness_ArrayStaysCanonical :
    Memory.wf (machine [(5, 0x55)] []).dev.mem = true ∧ (after (step (machine [(5, 0x55)] [])) fun _ => true) = true ∧
      (after (exec (.wrbyte 5 1 0) (machine [(5, 0x55)] [some 50])) fun t => decide (t.dev.mem = [])) = true := by decide

/-- The array of P4, one page of four bytes in an array of eight, every write cycle ending in the next command's wait. -/
def bulkMachine : State :=
  { machine [(0, 0xF0), (7, 0xF7)] (List.replicate 8 (some 8)) with cfg := { Config.default with pageSize := 4, addrSpaceSize := 8 } }

theorem witness_ClearThenDump :
    gate bulkMachine = none ∧ bulkMachine.phase = .idle ∧ bulkMachine.sel = false ∧ quiet bulkMachine ∧
      Memory.wf bulkMachine.dev.mem = true ∧
      ∃ r1 t r2 u, clearAll 2 bulkMachine = some (r1, t) ∧ r1.code = .ok ∧ dumpAll 2 t = some (r2, u) ∧ r2.code = .ok := by
  have h : (match clearAll 2 bulkMachine with
      | none => false
      | some (r1, t) => decide (r1.code = .ok) && match dumpAll 2 t with
        | none => false
        | some (r2, _) => decide (r2.code = .ok)) = true := by decide
  refine ⟨by decide, rfl, rfl, quiet_of_empty rfl, by decide, ?_⟩
  split at h
  · cases h
  · rename_i r1 t e1
    simp only [Bool.and_eq_true, decide_eq_true_eq] at h
    obtain ⟨h1, h⟩ := h
    split at h
    · cases h
    · rename_i r2 u e2
      exact ⟨r1, t, r2, u, e1, h1, e2, by simpa using h⟩

end Sys2Proof.Tests
end

section
/-! What every instruction and every step leaves alone (spec/10_state.md R22), and what a step can be. -/

namespace Sys2Proof.Machine

theorem sameSurroundings.trans {s t u : State} (h : sameSurroundings s t) (k : sameSurroundings t u) : sameSurroundings s u := by
  obtain ⟨a1, a2, a3, a4, a5⟩ := h
  obtain ⟨b1, b2, b3, b4, b5⟩ := k
  exact ⟨b1.trans a1, b2.trans a2, b3.trans a3, b4.trans a4, b5.trans a5⟩

theorem sameFixed.surroundings {s t : State} (h : sameFixed s t) : sameSurroundings s t := by
  obtain ⟨cfg, hostPort, bench, _, bp, _, _, _, model⟩ := h
  exact ⟨cfg, bp, model, hostPort, bench⟩

theorem accept_surroundings (op : Byte) (addr len : Half) (payload : List Byte) (s : State) :
    sameSurroundings s (accept op addr len payload s) :=
  ⟨rfl, rfl, rfl, rfl, rfl⟩

/-- What no micro-step changes, the rest of an operation in progress does not change. -/
theorem resume_fixed {s t : State} (hp : s.phase ≠ .idle) (h : resume s = .next t) : sameFixed s t :=
  runStretch_induct (P := sameFixed s) (fun _ _ hu _ hv => hu.trans (tick_fixed hv)) (sameFixed.refl s) hp h

theorem operate_surroundings {op : Byte} {addr len : Half} {payload : List Byte} {s t : State}
    (h : operate op addr len payload s = .next t) : sameSurroundings s t := by
  unfold operate at h
  split at h
  · exact (accept_surroundings op addr len payload s).trans (resume_fixed (by simp) h).surroundings
  · next hp => exact (resume_fixed hp h).surroundings

theorem benchFrame_surroundings {bytes : List Byte} {s t : State} (h : benchFrame bytes s = .next t) : sameSurroundings s t := by
  obtain ⟨d, _, _, _, _, _, rfl, _, bp, model, _⟩ := driveFrame_cases (benchFrame_next h)
  exact ⟨rfl, bp, model, rfl, rfl⟩

/-- A host command runs the operation its fields name. -/
theorem exec_hostCommand {i : Instr} {o : HostOp} {addr len : Half} {payload : List Byte}
    (h : hostCommand i = some (o, addr, len, payload)) (s : State) :
    exec i s = operate (hostOpcode o) addr len payload s := by
  cases i <;> cases h <;> rfl

/-- The instructions with a command's fields are the host commands; the others are wire frames. -/
theorem hostCommand_isSome (i : Instr) : (hostCommand i).isSome = i.isHost := by
  cases i <;> rfl

/-- Every instruction is an operation of the sequencer or a frame of the bench, and neither changes what surrounds it. -/
theorem exec_surroundings {i : Instr} {s t : State} (h : exec i s = .next t) : sameSurroundings s t := by
  cases hc : hostCommand i with
  | some c =>
    obtain ⟨o, addr, len, payload⟩ := c
    exact operate_surroundings (exec_hostCommand hc s ▸ h)
  | none =>
    have wire : i.isHost = false := by rw [← hostCommand_isSome, hc, Option.isSome_none]
    exact benchFrame_surroundings (exec_wireFrame wire s ▸ h)

/-- What a step from `s` to `t` can be: the operation in progress goes on, or in `IDLE` the next thing offered is taken. -/
inductive StepTakes (s t : State) : Prop where
  /-- An operation is in progress. -/
  | goesOn (busy : s.phase ≠ .idle) (run : resume s = .next t)
  /-- A bench frame of a row's shape. -/
  | frame (idle : s.phase = .idle) (bytes : List Byte) (rest : List (List Byte)) (offered : s.bench = bytes :: rest)
      (i : Instr) (more : List Byte) (decoded : decodeFrame bytes = .instr i more) (run : exec i { s with bench := rest } = .next t)
  /-- A bench frame of no row's shape (log 13). -/
  | oddFrame (idle : s.phase = .idle) (bytes : List Byte) (rest : List (List Byte)) (offered : s.bench = bytes :: rest)
      (e : DecodeError) (decoded : decodeFrame bytes = .bad e) (run : benchFrame bytes { s with bench := rest } = .next t)
  /-- A whole descriptor of the host. -/
  | command (idle : s.phase = .idle) (noFrame : s.bench = []) (i : Instr) (rest : List Byte)
      (decoded : decodeHost s.hostPort = .instr i rest) (run : exec i { s with hostPort := rest } = .next t)
  /-- A descriptor with a reserved opcode (30_encoding.md R95). -/
  | reserved (idle : s.phase = .idle) (noFrame : s.bench = []) (op : Byte) (addr len : Half) (rest : List Byte)
      (decoded : decodeHost s.hostPort = .bad (.reserved op addr len rest))
      (run : execReserved op addr len { s with hostPort := rest } = .next t)
  /-- Nothing whole is offered: the device's turn alone (log 31). -/
  | nothing (idle : s.phase = .idle) (noFrame : s.bench = []) (e : DecodeError) (decoded : decodeHost s.hostPort = .bad e)
      (turn : t = cycleTick s)

theorem takeHost_takes {s t : State} (idle : s.phase = .idle) (noFrame : s.bench = []) (h : takeHost s = .next t) :
    StepTakes s t := by
  unfold takeHost at h
  split at h
  · next i rest decoded => exact .command idle noFrame i rest decoded h
  · next op addr len rest decoded => exact .reserved idle noFrame op addr len rest decoded h
  · next e _ decoded => exact .nothing idle noFrame e decoded (Host.Outcome.next.inj h).symm

theorem takeBench_takes {bytes : List Byte} {rest : List (List Byte)} {s t : State} (idle : s.phase = .idle)
    (offered : s.bench = bytes :: rest) (h : takeBench bytes { s with bench := rest } = .next t) : StepTakes s t := by
  unfold takeBench at h
  split at h
  · next i more decoded => exact .frame idle bytes rest offered i more decoded h
  · next e decoded => exact .oddFrame idle bytes rest offered e decoded h

theorem takeNext_takes {s t : State} (idle : s.phase = .idle) (h : takeNext s = .next t) : StepTakes s t := by
  unfold takeNext at h
  split at h
  · next offered => exact takeBench_takes idle offered h
  · next noFrame => exact takeHost_takes idle noFrame h

/-- A step that answers is from an admissible state, and is one of the cases above. -/
theorem step_takes {s t : State} (h : step s = .next t) : gate s = none ∧ StepTakes s t := by
  unfold step at h
  split at h
  · cases h
  · next admissible =>
    refine ⟨admissible, ?_⟩
    split at h
    · next idle => exact takeNext_takes idle h
    · next busy => exact .goesOn busy h

/-- No step changes the configuration; taking a frame or a descriptor changes its own input alone. -/
theorem step_cfg {s t : State} (h : step s = .next t) : t.cfg = s.cfg := by
  obtain ⟨-, takes⟩ := step_takes h
  cases takes with
  | goesOn busy run => exact (resume_fixed busy run).1
  | frame _ _ _ _ _ _ _ run => exact (exec_surroundings run).1
  | oddFrame _ _ _ _ _ _ run => exact (benchFrame_surroundings run).1
  | command _ _ _ _ _ run => exact (exec_surroundings run).1
  | reserved _ _ _ _ _ _ _ run => exact (operate_surroundings run).1
  | nothing _ _ _ _ turn => rw [turn, cycleTick_cfg]

/-- Settles O17: the configuration is part of what micro-steps keep (`tick_fixed`), so a stretch, an operation and a bench frame keep
it, and with them every instruction and every step. -/
theorem configurationImmutable : Obligations.ConfigurationImmutable := by
  unfold Obligations.ConfigurationImmutable
  exact ⟨fun _ _ => rfl, fun _ _ => ⟨step_cfg, fun _ run => (exec_surroundings run).1, fun run => (tick_fixed run).1⟩⟩

end Sys2Proof.Machine
end

section
/-! The first byte of the sequencer's frames and the WIP bit (spec/30_encoding.md R100, R101). -/

namespace Sys2Proof.Machine

/-- A status byte shows WIP exactly when its bit 0 is set (20_memory.md R53). -/
theorem statusOf_wip_iff (b : Byte) : (statusOf b).wip = true ↔ b &&& 0x01 ≠ 0 := by
  have masked : b &&& 0x01 = (BitVec.ofBool (b.getLsbD 0)).setWidth 8 := BitVec.and_one_eq_setWidth_ofBool_getLsbD
  rw [masked, statusOf]
  cases b.getLsbD 0 <;> simp

/-- Sending a byte, answered or failed, adds its exchange to the trace and no other event. -/
theorem sendByte_trace (tx : Byte) (p : Phase) (s : State) : ∃ r, (sendByte tx p s).trace = s.trace ++ [.xfer tx r] := by
  obtain h | ⟨r, d, -, h⟩ := sendByte_cases tx p s
  · exact ⟨.err, by rw [h, raise_trace]⟩
  · exact ⟨r, by rw [h]⟩

/-- In each of the four opcode phases the sequencer sends the opcode of that phase's frame. -/
theorem phaseStep_opcode {s : State} (h : s.phase = .pOp ∨ s.phase = .eOp ∨ s.phase = .wOp ∨ s.phase = .rOp) :
    ∃ o p, (o = .rdsr ∨ o = .wren ∨ o = .write ∨ o = .read) ∧ phaseStep s = .next (sendByte (wireOpcode o) p s) := by
  obtain h | h | h | h := h
  · exact ⟨.rdsr, .pDummy, by simp, by rw [phaseStep, h, stepPOp]⟩
  · exact ⟨.wren, .eDesel, by simp, by rw [phaseStep, h, stepEOp]⟩
  · exact ⟨.write, .wAh, by simp, by rw [phaseStep, h, stepWOp]⟩
  · exact ⟨.read, .rAh, by simp, by rw [phaseStep, h, stepROp]⟩

/-- Settles O6: the values are `wireOpcode`'s own, and each opcode phase is one `sendByte` of one of the four emitted opcodes. -/
theorem wireOpcodeValues : Obligations.WireOpcodeValues := by
  unfold Obligations.WireOpcodeValues
  refine ⟨rfl, rfl, rfl, rfl, rfl, rfl, wireOpOf_opcode, statusOf_wip_iff, fun s t opcodePhase run => ?_⟩
  obtain ⟨o, p, emitted, sends⟩ := phaseStep_opcode (s := cycleTick s) opcodePhase
  obtain ⟨r, trace⟩ := sendByte_trace (wireOpcode o) p (cycleTick s)
  obtain rfl : sendByte (wireOpcode o) p (cycleTick s) = t := Host.Outcome.next.inj (sends.symm.trans run)
  exact ⟨o, r, emitted, trace⟩

end Sys2Proof.Machine
end

section
/-! A descriptor with a reserved opcode (spec/30_encoding.md R95, spec/60_exceptions.md R215). -/

namespace Sys2Proof.Machine

/-- The opcodes outside 0x10 to 0x15 name no operation (30_encoding.md R92). -/
theorem hostOpOf_reserved {op : Byte} (h : op.toNat < 0x10 ∨ 0x15 < op.toNat) : hostOpOf op = none := by
  unfold hostOpOf
  split
  case h_7 => rfl
  all_goals omega

/-- The header of a reserved opcode is the whole descriptor, whatever follows. -/
theorem decodeHost_reserved {op : Byte} (h : hostOpOf op = none) (ah al lh ll : Byte) (rest : List Byte) :
    decodeHost (op :: ah :: al :: lh :: ll :: rest) = .bad (.reserved op (joinBytes ah al) (joinBytes lh ll) rest) := by
  simp only [decodeHost, h]

/-- A step in `IDLE` with no bench frame runs the reserved descriptor at the host's port (log 11). -/
theorem step_reserved {s : State} {op : Byte} {addr len : Half} {rest : List Byte} (admissible : gate s = none)
    (idle : s.phase = .idle) (noFrame : s.bench = []) (decoded : decodeHost s.hostPort = .bad (.reserved op addr len rest)) :
    step s = execReserved op addr len { s with hostPort := rest } := by
  simp only [step, admissible, if_pos idle, takeNext, noFrame, takeHost, decoded]

/-- `DECODE` of a reserved opcode, the device's turn before it, raises `InvalidCommand`. -/
theorem tick_decode_reserved {s : State} (decode : s.phase = .decode) (reserved : hostOpOf s.op = none) :
    tick s = .next (raise .invalidCommand (cycleTick s)) := by
  rw [tick, phaseStep, cycleTick_phase, decode, stepDecode, cycleTick_op, reserved]

/-- No stretch is short of fuel for two micro-steps. -/
theorem one_lt_stretchFuel (s : State) : 1 < stretchFuel s := by
  unfold stretchFuel
  omega

/-- A reserved command is accepted, raises in `DECODE` and responds: two micro-steps with the device's turn before each, and no event
at the device. -/
theorem operate_reserved {s : State} {op : Byte} (reserved : hostOpOf op = none) (idle : s.phase = .idle) (desel : s.sel = false)
    (addr len : Half) (payload : List Byte) :
    operate op addr len payload s =
      .next (respond (cycleTick (raise .invalidCommand (cycleTick (accept op addr len payload s))))) := by
  have raised : (raise .invalidCommand (cycleTick (accept op addr len payload s))).phase = .resp := by simp [desel]
  have runs : Runs 1 (accept op addr len payload s) (raise .invalidCommand (cycleTick (accept op addr len payload s))) :=
    Runs.cons (tick_decode_reserved (by simp) (by simpa using reserved)) (by rw [raised, accept_phase]; rfl) rfl
  rw [operate, if_pos idle, resume]
  exact runs.respond raised (one_lt_stretchFuel _)

/-- Settles O12: the descriptor decodes as reserved, so the step is the two micro-steps of `operate_reserved`; chip-select is clear, so
the raise goes to `RESP` with no deselect, and the device has only its own turns, which touch neither array nor frame. -/
theorem reservedOpcode : Obligations.ReservedOpcode := by
  unfold Obligations.ReservedOpcode
  intro s op ah al lh ll rest range admissible idle desel noFrame offered
  have reserved := hostOpOf_reserved range
  have decoded := offered ▸ decodeHost_reserved reserved ah al lh ll rest
  rw [step_reserved admissible idle noFrame decoded, execReserved,
    operate_reserved (s := { s with hostPort := rest }) reserved idle desel]
  exact ⟨_, rfl, by simp [desel, deviceTurn, joinBytes]⟩

end Sys2Proof.Machine
end

section
/-! The test of a status read (spec/40_status_poller.md R132, R133). -/

namespace Sys2Proof.Machine

/-- Ready, `P_TEST` goes on as `OP` says. -/
theorem phaseStep_pTest_ready {s : State} (test : s.phase = .pTest) (ready : s.sr.wip = false) : phaseStep s = afterWait s := by
  simp [phaseStep, test, stepPTest, ready]

/-- Busy, `P_TEST` counts the answer. -/
theorem phaseStep_pTest_busy {s : State} (test : s.phase = .pTest) (busy : s.sr.wip = true) :
    phaseStep s = .next (countBusy s) := by
  simp [phaseStep, test, stepPTest, busy]

theorem afterWait_wait {s : State} (op : hostOpOf s.op = some .wait) : afterWait s = .next (goto .resp s) := by
  rw [afterWait, op]

/-- WREN and the two writes go on with a write-enable frame. -/
theorem afterWait_enable {s : State}
    (op : hostOpOf s.op = some .wren ∨ hostOpOf s.op = some .wrbyte ∨ hostOpOf s.op = some .write) :
    afterWait s = .next (goto .eSel s) := by
  obtain op | op | op := op <;> rw [afterWait, op]

theorem afterWait_read {s : State} (op : hostOpOf s.op = some .rdbyte ∨ hostOpOf s.op = some .read) :
    afterWait s = .next (goto .rSel s) := by
  obtain op | op := op <;> rw [afterWait, op]

theorem countBusy_atLimit {s : State} {n : Nat} (limit : s.cfg.pollLimit = some n) (reached : n ≤ s.pcnt + 1) :
    countBusy s = raise .deviceUnresponsive { s with pcnt := s.pcnt + 1 } := by
  simp only [countBusy, limit, if_pos reached]

/-- Short of the limit, or with none, a busy answer is counted and the device is asked again. -/
theorem countBusy_belowLimit {s : State} (below : ∀ n, s.cfg.pollLimit = some n → s.pcnt + 1 < n) :
    countBusy s = goto .pDelay { s with pcnt := s.pcnt + 1 } := by
  cases limit : s.cfg.pollLimit with
  | none => simp only [countBusy, limit]
  | some n => simp only [countBusy, limit, if_neg (Nat.not_le.mpr (below n limit))]

/-- Settles O20: `P_TEST` splits on bit 0 of `SR` alone; ready, `afterWait` changes the phase alone, and busy, `countBusy` counts, or
at the limit raises, which with chip-select clear goes to `RESP`. -/
theorem pollTest : Obligations.PollTest := by
  unfold Obligations.PollTest
  rintro s _ test desel rfl
  refine ⟨fun ready => ?_, fun busy => ?_⟩
  · rw [phaseStep_pTest_ready test ready]
    exact ⟨afterWait_wait, afterWait_enable, afterWait_read⟩
  · rw [phaseStep_pTest_busy test busy]
    refine ⟨fun n limit reached => ?_, fun below => ?_⟩
    · simp [countBusy_atLimit limit reached, raise, desel]
    · rw [countBusy_belowLimit below, goto]

end Sys2Proof.Machine
end

section
/-! What `DECODE` checks and sets up (spec/42_addressing_engine.md R182 to R186). -/

namespace Sys2Proof.Machine

/-- A number that is at most a register's value fits every register of that width. -/
theorem toNat_ofNat_of_le {w n : Nat} {v : BitVec w} (h : n ≤ v.toNat) : (BitVec.ofNat w n).toNat = n := by
  rw [BitVec.toNat_ofNat, Nat.mod_eq_of_lt (h.trans_lt v.isLt)]

theorem maxRun_le_pageSize (c : Config) (a : Half) : maxRun c a ≤ c.pageSize.toNat :=
  Nat.sub_le _ _

theorem phaseStep_decode {s : State} (decode : s.phase = .decode) : phaseStep s = .next (stepDecode s) := by
  simp only [phaseStep, decode]

/-! `LEN` is set before the checks, so the set-up of a read or a write is stated of `s` with a `LEN` of `n`. -/

section
variable {s : State} {n : Half}

theorem setupRead_above (above : lastAddr s.cfg < s.addr.toNat) :
    setupRead { s with len := n } = raise .invalidAddress { s with len := n } :=
  if_pos above

theorem setupRead_inside (inside : s.addr.toNat ≤ lastAddr s.cfg) :
    setupRead { s with len := n } = startWait { s with len := n, rem := n } :=
  if_neg inside.not_gt

theorem setupWrite_above (above : lastAddr s.cfg < s.addr.toNat) :
    setupWrite { s with len := n } = raise .invalidAddress { s with len := n } :=
  if_pos above

/-- At most `max_run` bytes are one chunk (R183). -/
theorem setupWrite_fits (inside : s.addr.toNat ≤ lastAddr s.cfg) (fits : n.toNat ≤ maxRun s.cfg s.addr) :
    setupWrite { s with len := n } =
      startWait { s with len := n, cur := s.addr, run := BitVec.ofNat 17 n.toNat, rem := 0, idx := 0 } := by
  simp only [setupWrite, if_neg inside.not_gt, if_pos fits]

theorem setupWrite_reject (inside : s.addr.toNat ≤ lastAddr s.cfg) (long : maxRun s.cfg s.addr < n.toNat)
    (policy : s.cfg.spanPolicy = .reject) :
    setupWrite { s with len := n } = raise .invalidWriteSpan { s with len := n } := by
  simp only [setupWrite, if_neg inside.not_gt, if_neg long.not_ge, policy]

/-- Under SPLIT a longer write begins with a chunk of `max_run` bytes (R184). -/
theorem setupWrite_split (inside : s.addr.toNat ≤ lastAddr s.cfg) (long : maxRun s.cfg s.addr < n.toNat)
    (policy : s.cfg.spanPolicy = .split) :
    setupWrite { s with len := n } =
      startWait { s with len := n, cur := s.addr, run := BitVec.ofNat 17 (maxRun s.cfg s.addr),
                         rem := BitVec.ofNat 16 (n.toNat - maxRun s.cfg s.addr), idx := 0 } := by
  simp only [setupWrite, if_neg inside.not_gt, if_neg long.not_ge, policy]

theorem setupRead_keeps (s : State) : (setupRead s).trace = s.trace ∧ (setupRead s).dev = s.dev := by
  unfold setupRead
  split <;> exact ⟨rfl, rfl⟩

theorem setupWrite_keeps (s : State) :
    (setupWrite s).trace = s.trace ∧ (setupWrite s).dev = s.dev ∧ (setupWrite s).len = s.len := by
  obtain above | inside := lt_or_ge (lastAddr s.cfg) s.addr.toNat
  · rw [setupWrite_above above]; exact ⟨rfl, rfl, rfl⟩
  obtain fits | long := le_or_gt s.len.toNat (maxRun s.cfg s.addr)
  · rw [setupWrite_fits inside fits]; exact ⟨rfl, rfl, rfl⟩
  cases policy : s.cfg.spanPolicy with
  | reject => rw [setupWrite_reject inside long policy]; exact ⟨rfl, rfl, rfl⟩
  | split => rw [setupWrite_split inside long policy]; exact ⟨rfl, rfl, rfl⟩

theorem stepDecode_wait {o : HostOp} (op : hostOpOf s.op = some o) (waits : o = .wait ∨ o = .wren) :
    stepDecode s = startWait { s with len := 0 } := by
  obtain rfl | rfl := waits <;> rw [stepDecode, op]

/-- The two reads share their set-up; RDBYTE has `LEN` 1 (R186). -/
theorem stepDecode_read {o : HostOp} (op : hostOpOf s.op = some o) (reads : o = .rdbyte ∨ o = .read) :
    stepDecode s = setupRead { s with len := if o = .rdbyte then 1 else s.len } := by
  obtain rfl | rfl := reads <;> rw [stepDecode, op] <;> rfl

/-- The two writes share their set-up; WRBYTE has `LEN` 1 (R186). -/
theorem stepDecode_write {o : HostOp} (op : hostOpOf s.op = some o) (writes : o = .wrbyte ∨ o = .write) :
    stepDecode s = setupWrite { s with len := if o = .wrbyte then 1 else s.len } := by
  obtain rfl | rfl := writes <;> rw [stepDecode, op] <;> rfl

theorem stepDecode_reserved (reserved : hostOpOf s.op = none) : stepDecode s = raise .invalidCommand s := by
  rw [stepDecode, reserved]

/-- The address is checked before the span: above `LAST_ADDR` every addressed operation raises the same error. -/
theorem stepDecode_above {o : HostOp} (op : hostOpOf s.op = some o) (notWait : o ≠ .wait) (notWren : o ≠ .wren)
    (above : lastAddr s.cfg < s.addr.toNat) :
    stepDecode s = raise .invalidAddress { s with len := if o = .rdbyte ∨ o = .wrbyte then 1 else s.len } := by
  cases o with
  | wait => exact absurd rfl notWait
  | wren => exact absurd rfl notWren
  | rdbyte => exact (stepDecode_read op (.inl rfl)).trans (setupRead_above above)
  | read => exact (stepDecode_read op (.inr rfl)).trans (setupRead_above above)
  | wrbyte => exact (stepDecode_write op (.inl rfl)).trans (setupWrite_above above)
  | write => exact (stepDecode_write op (.inr rfl)).trans (setupWrite_above above)

/-- `DECODE` emits no event and leaves the device alone. -/
theorem stepDecode_keeps (s : State) : (stepDecode s).trace = s.trace ∧ (stepDecode s).dev = s.dev := by
  have writes (t : State) := (setupWrite_keeps t).imp_right And.left
  unfold stepDecode
  split
  · exact ⟨rfl, rfl⟩
  · exact ⟨rfl, rfl⟩
  · exact setupRead_keeps { s with len := 1 }
  · exact setupRead_keeps s
  · exact writes { s with len := 1 }
  · exact writes s
  · exact ⟨rfl, rfl⟩

end

/-- Settles O21: each clause is one branch of `stepDecode`, as the equations above give it. Raising goes to `RESP` since chip-select is
clear, and the chunk's counts fit their registers: no run is longer than `PAGE_SIZE`, no rest longer than `LEN`. -/
theorem decodeSetsUp : Obligations.DecodeSetsUp := by
  unfold Obligations.DecodeSetsUp
  intro s _ decode desel
  obtain ⟨trace, dev⟩ := stepDecode_keeps s
  refine ⟨stepDecode s, phaseStep_decode decode, trace, dev, fun o op waits => ?_, fun o op notWait notWren above => ?_,
    fun o op reads inside => ?_, fun o op writes inside => ?_, fun reserved => ?_⟩
  · simp [stepDecode_wait op waits]
  · simp [stepDecode_above op notWait notWren above, desel]
  · rw [stepDecode_read op reads, setupRead_inside inside]
    exact ⟨rfl, rfl, rfl, rfl, rfl⟩
  · rw [stepDecode_write op writes, (setupWrite_keeps _).2.2]
    refine ⟨rfl, fun fits => ?_, fun long policy => ?_, fun long policy => ?_⟩
    · rw [setupWrite_fits inside fits]
      exact ⟨rfl, rfl, rfl, toNat_ofNat_of_le (fits.trans (maxRun_le_pageSize _ _)), rfl, rfl, rfl⟩
    · rw [setupWrite_reject inside long policy]
      exact ⟨by simp [desel], rfl, rfl⟩
    · rw [setupWrite_split inside long policy]
      have run := toNat_ofNat_of_le (maxRun_le_pageSize s.cfg s.addr)
      refine ⟨rfl, rfl, rfl, run, ?_, rfl, rfl⟩
      exact (toNat_ofNat_of_le (Nat.sub_le _ _)).trans (congrArg (_ - ·) run.symm)
  · simp [stepDecode_reserved reserved, desel]

end Sys2Proof.Machine
end

section
/-! The end of a write frame: the next chunk or the response (spec/42_addressing_engine.md R187). -/

namespace Sys2Proof.Machine

theorem phaseStep_wNext {s : State} (next : s.phase = .wNext) : phaseStep s = .next (stepWNext s) := by
  simp only [phaseStep, next]

theorem stepWNext_done {s : State} (done : s.rem = 0) : stepWNext s = goto .resp s :=
  if_pos done

/-- The next chunk starts at the base of the same page and is as long as the page and the rest allow. -/
theorem stepWNext_more {s : State} (more : s.rem ≠ 0) :
    stepWNext s = startWait
      { s with cur := BitVec.ofNat 16 (pageBase s.cfg s.cur.toNat),
               run := BitVec.ofNat 17 (min s.rem.toNat s.cfg.pageSize.toNat),
               rem := BitVec.ofNat 16 (s.rem.toNat - min s.rem.toNat s.cfg.pageSize.toNat) } :=
  if_neg more

/-- Settles O22: `W_NEXT` splits on `REM` alone. The next chunk's numbers fit their registers: the page base is at most `CUR`, the run
at most `PAGE_SIZE`, the rest at most `REM`. -/
theorem nextChunk : Obligations.NextChunk := by
  unfold Obligations.NextChunk
  intro s _ next
  rw [phaseStep_wNext next]
  by_cases done : s.rem = 0
  · rw [stepWNext_done done]
    exact ⟨_, rfl, rfl, rfl, rfl, rfl, fun _ => ⟨rfl, rfl⟩, fun more => absurd done more⟩
  · rw [stepWNext_more done]
    have base := toNat_ofNat_of_le (v := s.cur) (Nat.sub_le s.cur.toNat (s.cur.toNat % s.cfg.pageSize.toNat))
    have run := toNat_ofNat_of_le (v := s.cfg.pageSize) (Nat.min_le_right s.rem.toNat s.cfg.pageSize.toNat)
    have rest := toNat_ofNat_of_le (v := s.rem) (Nat.sub_le s.rem.toNat (min s.rem.toNat s.cfg.pageSize.toNat))
    refine ⟨_, rfl, rfl, rfl, rfl, rfl, fun finished => absurd finished done, fun _ => ⟨rfl, rfl, base, run, ?_⟩⟩
    exact rest.trans (congrArg (s.rem.toNat - ·) run.symm)

end Sys2Proof.Machine
end

section
/-! Commands that `DECODE` rejects, and which micro-steps raise `InvalidWriteSpan` (spec/60_exceptions.md R211, R212). -/

namespace Sys2Proof.Machine

section
variable {s : State} {op : Byte} {addr len : Half} {payload : List Byte} {e : Code}

/-- A command whose `DECODE` raises with chip-select clear goes to `RESP` and responds: two micro-steps, the device's turn before each. -/
theorem operate_raises {d : State} (idle : s.phase = .idle) (raises : stepDecode (cycleTick (accept op addr len payload s)) = raise e d)
    (desel : d.sel = false) : operate op addr len payload s = .next (respond (cycleTick (raise e d))) := by
  have raised : (raise e d).phase = .resp := by simp [desel]
  have decodes : tick (accept op addr len payload s) = .next (raise e d) := (phaseStep_decode rfl).trans (congrArg _ raises)
  have runs : Runs 1 (accept op addr len payload s) (raise e d) :=
    Runs.cons decodes (by rw [raised, accept_phase]; rfl) rfl
  rw [operate, if_pos idle, resume]
  exact runs.respond raised (one_lt_stretchFuel _)

/-- A rejected command adds `CMD` and `RSP` alone to the trace and leaves the array and the device's frame alone. `DECODE` may have set
`LEN` before it raised (42_addressing_engine.md R186). -/
theorem operate_rejected {n : Half} (idle : s.phase = .idle) (desel : s.sel = false)
    (raises : stepDecode (cycleTick (accept op addr len payload s)) =
      raise e { cycleTick (accept op addr len payload s) with len := n }) :
    ∃ t, operate op addr len payload s = .next t ∧ t.phase = .idle ∧ t.sel = false ∧ t.err = e ∧ t.rbuf = [] ∧
      t.trace = s.trace ++ [.cmd op addr len payload, .rsp e []] ∧ t.dev.mem = s.dev.mem ∧ t.dev.fr = s.dev.fr ∧
      sameSurroundings s t := by
  have answer := operate_raises idle raises desel
  exact ⟨_, answer, rfl, desel, rfl, rfl, by simp, rfl, rfl, operate_surroundings answer⟩

end

/-- Settles O35: above `LAST_ADDR` the `DECODE` of each addressed operation raises (`stepDecode_above`), and a command whose `DECODE`
raises is rejected with nothing sent. -/
theorem invalidAddress : Obligations.InvalidAddress := by
  unfold Obligations.InvalidAddress
  intro s i o addr len payload idle desel command notWait notWren above
  rw [exec_hostCommand command]
  exact operate_rejected idle desel (stepDecode_above (hostOpOf_opcode o) notWait notWren above)

/-! `DECODE` as a raiser of `InvalidWriteSpan`. -/

theorem configLegal_of_gate {s : State} (admissible : gate s = none) : configLegal s.cfg = true := by
  unfold gate at admissible
  split at admissible
  · next legal => exact legal
  · cases admissible

theorem maxRun_pos {c : Config} (legal : configLegal c = true) (a : Half) : 0 < maxRun c a :=
  Nat.sub_pos_of_lt (Nat.mod_lt _ (configLegal_sizes legal).1)

section
variable {s : State}

theorem setupRead_err_ne_span (before : s.err ≠ .invalidWriteSpan) : (setupRead s).err ≠ .invalidWriteSpan := by
  obtain above | inside := lt_or_ge (lastAddr s.cfg) s.addr.toNat
  · rw [setupRead_above above, raise_err]; decide
  · rw [setupRead_inside inside]; exact before

theorem setupWrite_raises_span (before : s.err ≠ .invalidWriteSpan) (raised : (setupWrite s).err = .invalidWriteSpan) :
    s.addr.toNat ≤ lastAddr s.cfg ∧ maxRun s.cfg s.addr < s.len.toNat ∧ s.cfg.spanPolicy = .reject := by
  obtain above | inside := lt_or_ge (lastAddr s.cfg) s.addr.toNat
  · rw [setupWrite_above above] at raised; cases raised
  obtain fits | long := le_or_gt s.len.toNat (maxRun s.cfg s.addr)
  · rw [setupWrite_fits inside fits] at raised; exact absurd raised before
  cases policy : s.cfg.spanPolicy with
  | reject => exact ⟨inside, long, rfl⟩
  | split => rw [setupWrite_split inside long policy] at raised; exact absurd raised before

/-- WRITE alone: WRBYTE has one byte, and no run is shorter. -/
theorem stepDecode_raises_span (legal : configLegal s.cfg = true) (before : s.err ≠ .invalidWriteSpan)
    (raised : (stepDecode s).err = .invalidWriteSpan) :
    hostOpOf s.op = some .write ∧ s.addr.toNat ≤ lastAddr s.cfg ∧ maxRun s.cfg s.addr < s.len.toNat ∧
      s.cfg.spanPolicy = .reject := by
  cases op : hostOpOf s.op with
  | none => rw [stepDecode_reserved op] at raised; cases raised
  | some o =>
    cases o with
    | wait => rw [stepDecode_wait op (.inl rfl)] at raised; exact absurd raised before
    | wren => rw [stepDecode_wait op (.inr rfl)] at raised; exact absurd raised before
    | rdbyte => rw [stepDecode_read op (.inl rfl)] at raised; exact absurd raised (setupRead_err_ne_span before)
    | read => rw [stepDecode_read op (.inr rfl)] at raised; exact absurd raised (setupRead_err_ne_span before)
    | wrbyte =>
      rw [stepDecode_write op (.inl rfl)] at raised
      obtain ⟨-, long, -⟩ := setupWrite_raises_span (s := { s with len := 1 }) before raised
      exact absurd long (Nat.not_lt.mpr (maxRun_pos legal s.addr))
    | write =>
      rw [stepDecode_write op (.inr rfl)] at raised
      exact ⟨rfl, setupWrite_raises_span before raised⟩

end

/-! The other phases keep `ERR` or raise an error of the wait or of the transport (60_exceptions.md R213, R214). -/

theorem exchange_err (tx : Byte) (s : State) : (exchange tx s).2.err = s.err := by
  obtain h | ⟨r, d, -, h⟩ := exchange_cases tx s <;> rw [h]

theorem doDeselect_err {p : Phase} {s t : State} (h : doDeselect p s = .next t) : t.err = s.err := by
  obtain ⟨u, deselects, rfl⟩ := doDeselect_cases h
  obtain ⟨_, rfl⟩ | ⟨_, _, _, _, _, _, _, _, _, rfl⟩ | ⟨_, _, _, _, _, _, _, _, _, _, _, _, _, rfl⟩ := deviceDeselect_cases deselects <;>
    rfl

theorem sendByte_err (tx : Byte) (p : Phase) (s : State) :
    (sendByte tx p s).err = s.err ∨ (sendByte tx p s).err = .transportError := by
  obtain h | ⟨r, d, -, h⟩ := sendByte_cases tx p s
  · exact .inr (by rw [h, raise_err])
  · exact .inl (by rw [h])

theorem stepPDummy_err (s : State) : (stepPDummy s).err = s.err ∨ (stepPDummy s).err = .transportError := by
  have kept := exchange_err s.cfg.dummy s
  unfold stepPDummy
  cases exchanged : exchange s.cfg.dummy s with
  | mk r u =>
    rw [exchanged] at kept
    cases received : rxStatus r with
    | none => exact .inr (by simp only [received, raise_err])
    | some st => exact .inl (by simpa only [received, goto_err] using kept)

theorem stepWData_err {s t : State} (h : stepWData s = .next t) : t.err = s.err ∨ t.err = .transportError := by
  unfold stepWData at h
  split at h
  · cases h
  split at h
  · cases h
  next b _ =>
  have kept := exchange_err b s
  cases exchanged : exchange b s with
  | mk r u =>
    rw [exchanged] at h kept
    cases received : rxByte r with
    | none => simp only [received] at h; cases h; exact .inr rfl
    | some x => simp only [received] at h; cases h; exact .inl kept

theorem stepRData_err {s t : State} (h : stepRData s = .next t) : t.err = s.err ∨ t.err = .transportError := by
  unfold stepRData at h
  split at h
  · cases h
  have kept := exchange_err s.cfg.dummy s
  cases exchanged : exchange s.cfg.dummy s with
  | mk r u =>
    rw [exchanged] at h kept
    cases received : rxByte r with
    | none => simp only [received] at h; cases h; exact .inr rfl
    | some x => simp only [received] at h; cases h; exact .inl kept

theorem afterWait_err {s t : State} (h : afterWait s = .next t) : t.err = s.err := by
  unfold afterWait at h
  split at h <;> cases h <;> rfl

theorem countBusy_err (s : State) : (countBusy s).err = s.err ∨ (countBusy s).err = .deviceUnresponsive := by
  unfold countBusy
  split
  · exact .inl rfl
  · split
    · exact .inr rfl
    · exact .inl rfl

theorem stepPTest_err {s t : State} (h : stepPTest s = .next t) : t.err = s.err ∨ t.err = .deviceUnresponsive := by
  unfold stepPTest at h
  split at h
  · exact Host.Outcome.next.inj h ▸ countBusy_err s
  · exact .inl (afterWait_err h)

theorem stepWNext_err (s : State) : (stepWNext s).err = s.err := by
  by_cases done : s.rem = 0
  · rw [stepWNext_done done, goto_err]
  · rw [stepWNext_more done, startWait_err]

theorem phaseStep_err {s t : State} (notDecode : s.phase ≠ .decode) (h : phaseStep s = .next t) :
    t.err = s.err ∨ t.err = .deviceUnresponsive ∨ t.err = .transportError := by
  unfold phaseStep at h
  cases phase : s.phase with
  | decode => exact absurd phase notDecode
  | idle | pDelay | pSel | eSel | eDelay | wSel | rSel | resp =>
    rw [phase] at h
    obtain rfl := Host.Outcome.next.inj h
    exact .inl rfl
  | pOp | eOp | wOp | wAh | wAl | rOp | rAh | rAl =>
    rw [phase] at h
    obtain rfl := Host.Outcome.next.inj h
    exact (sendByte_err _ _ s).imp_right .inr
  | pDesel | eDesel | wDesel | rDesel | xDesel => rw [phase] at h; exact .inl (doDeselect_err h)
  | pDummy =>
    rw [phase] at h
    obtain rfl := Host.Outcome.next.inj h
    exact (stepPDummy_err s).imp_right .inr
  | pTest => rw [phase] at h; exact (stepPTest_err h).imp_right .inl
  | wData => rw [phase] at h; exact (stepWData_err h).imp_right .inr
  | rData => rw [phase] at h; exact (stepRData_err h).imp_right .inr
  | wNext =>
    rw [phase] at h
    obtain rfl := Host.Outcome.next.inj h
    exact .inl (stepWNext_err s)

/-- Settles O36: a WRITE of more than `max_run` bytes is rejected like an address above `LAST_ADDR`; and the micro-step that raises the
code is `DECODE`, since the other phases raise other codes, of a WRITE, since WRBYTE has one byte. -/
theorem invalidWriteSpan : Obligations.InvalidWriteSpan := by
  unfold Obligations.InvalidWriteSpan
  refine ⟨fun s addr len data idle desel inside long policy => ?_, fun s t admissible run raised before => ?_⟩
  · exact operate_rejected idle desel ((stepDecode_write (o := .write) rfl (.inr rfl)).trans (setupWrite_reject inside long policy))
  · by_cases decode : s.phase = .decode
    · obtain rfl := Host.Outcome.next.inj ((phaseStep_decode (s := cycleTick s) decode).symm.trans run)
      exact ⟨decode, stepDecode_raises_span (s := cycleTick s) (configLegal_of_gate admissible) before raised⟩
    · obtain kept | other | other := phaseStep_err (s := cycleTick s) decode run
      · exact absurd (kept.symm.trans raised) before
      · cases other.symm.trans raised
      · cases other.symm.trans raised

end Sys2Proof.Machine
end

section
/-! The encoder and the two decoders are inverse to each other (spec/30_encoding.md sections 1, 2). -/

namespace Sys2Proof.Machine

/-- A byte that names a host operation is that operation's opcode (30_encoding.md R92). -/
theorem hostOpcode_of {b : Byte} {o : HostOp} (h : hostOpOf b = some o) : b = hostOpcode o := by
  apply BitVec.eq_of_toNat_eq
  unfold hostOpOf at h
  split at h <;> cases h <;> assumption

/-- The bytes of an address put together are taken apart again (30_encoding.md R91). -/
theorem hiByte_joinBytes (hi lo : Byte) : hiByte (joinBytes hi lo) = hi := BitVec.extractLsb'_append_eq_left

theorem loByte_joinBytes (hi lo : Byte) : loByte (joinBytes hi lo) = lo := BitVec.extractLsb'_append_eq_right

/-- A decoded descriptor's five bytes are the header of what was decoded. -/
theorem header_joinBytes (o : HostOp) (ah al lh ll : Byte) :
    header o (joinBytes ah al) (joinBytes lh ll) = [hostOpcode o, ah, al, lh, ll] := by
  simp only [header, hiByte_joinBytes, loByte_joinBytes]

theorem decodeHost_encode {i : Instr} (wf : i.wf = true) (host : i.isHost = true) (rest : List Byte) :
    decodeHost (encode i ++ rest) = .instr i rest := by
  cases i with
  | wait | wren | rdbyte | read | wrbyte =>
    simp only [encode, header, List.cons_append, List.nil_append, decodeHost, hostOpOf_opcode, joinBytes_hi_lo]
  | write addr len data =>
    have length : data.length = len.toNat := by simpa only [Instr.wf, beq_iff_eq] using wf
    simp [encode, header, decodeHost, ← length]
  | rdsrFrame | wrenFrame | writeFrame | readFrame | wrdiFrame | wrsrFrame => cases host

theorem decodeFrame_encode {i : Instr} (wire : i.isHost = false) : decodeFrame (encode i) = .instr i [] := by
  cases i with
  | rdsrFrame | wrenFrame | writeFrame | readFrame | wrdiFrame | wrsrFrame =>
    simp only [encode, decodeFrame, wireOpOf_opcode, joinBytes_hi_lo]
  | wait | wren | wrbyte | write | rdbyte | read => cases wire

/-- Settles O9: the first byte names its operation (`hostOpOf_opcode`, `wireOpOf_opcode`), the two bytes of a field give it back
(`joinBytes_hi_lo`), and a well-formed WRITE has as many payload bytes as its `len` takes. -/
theorem decodeEncode : Obligations.DecodeEncode := by
  unfold Obligations.DecodeEncode
  exact fun _ wf => ⟨decodeHost_encode wf, decodeFrame_encode⟩

/-- What decodes at the host's port is a well-formed command whose descriptor are the bytes taken. -/
theorem encode_decodeHost {bs rest : List Byte} {i : Instr} (h : decodeHost bs = .instr i rest) :
    i.wf = true ∧ i.isHost = true ∧ encode i ++ rest = bs := by
  unfold decodeHost at h
  split at h
  case h_2 => cases h
  case h_1 op ah al lh ll tail =>
    dsimp only at h
    split at h
    case h_7 => cases h
    case h_1 | h_2 | h_5 | h_6 =>
      next named =>
      obtain ⟨rfl, rfl⟩ := Decoded.instr.inj h
      simp [Instr.wf, Instr.isHost, encode, header_joinBytes, hostOpcode_of named]
    case h_3 =>
      next named =>
      split at h
      · obtain ⟨rfl, rfl⟩ := Decoded.instr.inj h
        simp [Instr.wf, Instr.isHost, encode, header_joinBytes, hostOpcode_of named]
      · cases h
    case h_4 =>
      next named =>
      split at h
      · next whole =>
        obtain ⟨rfl, rfl⟩ := Decoded.instr.inj h
        simp [Instr.wf, Instr.isHost, encode, header_joinBytes, hostOpcode_of named, whole]
      · cases h

/-- What decodes as a frame is a wire frame whose encoding is the whole frame. -/
theorem encode_decodeFrame {bs rest : List Byte} {i : Instr} (h : decodeFrame bs = .instr i rest) :
    i.wf = true ∧ i.isHost = false ∧ encode i = bs ∧ rest = [] := by
  unfold decodeFrame at h
  split at h
  · cases h
  next op tail =>
  split at h
  case h_7 => cases h
  case h_5 | h_6 =>
    next named =>
    obtain ⟨rfl, rfl⟩ := Decoded.instr.inj h
    exact ⟨rfl, rfl, by rw [encode, ← wireOpcode_of named], rfl⟩
  all_goals
    next named =>
    split at h
    · obtain ⟨rfl, rfl⟩ := Decoded.instr.inj h
      exact ⟨rfl, rfl, by simp [encode, ← wireOpcode_of named, hiByte_joinBytes, loByte_joinBytes], rfl⟩
    · cases h

/-- Settles O10: each arm of a decoder that answers an instruction put its bytes' fields together, and encoding takes them apart
again. -/
theorem encodeDecode : Obligations.EncodeDecode := by
  unfold Obligations.EncodeDecode
  exact fun _ _ _ => ⟨encode_decodeHost, encode_decodeFrame⟩

/-- Settles O11: the header is five bytes, so the payload begins at place 5, and an opcode that names no operation is read as a
reserved descriptor (`decodeHost_reserved`). -/
theorem descriptorLength : Obligations.DescriptorLength := by
  unfold Obligations.DescriptorLength
  intro addr len v data length
  refine ⟨rfl, rfl, rfl, rfl, rfl, ?_, fun i => ?_, fun op rest reserved => ?_⟩
  · simp [encode, header, length]; omega
  · rw [encode, List.getElem?_append_right (Nat.le_add_right 5 i)]
    exact congrArg (data[·]?) (Nat.add_sub_cancel_left 5 i)
  · exact (decodeHost_reserved reserved _ _ _ _ rest).trans (by simp only [joinBytes_hi_lo])

/-- Settles O5: the decoders compute. -/
theorem decodeKnownWords : Obligations.DecodeKnownWords := by
  unfold Obligations.DecodeKnownWords
  decide

/-- Settles O7: the codes are `codeByte`'s own. -/
theorem responseBytes_spec : Obligations.ResponseBytes := by
  unfold Obligations.ResponseBytes
  exact ⟨rfl, rfl, rfl, rfl, rfl, rfl, fun _ _ => rfl⟩

end Sys2Proof.Machine
end

section
/-! The status byte and its four parts (spec/20_memory.md R53). -/

namespace Sys2Proof.Machine

/-- Each bit of the status byte: WIP, WEL, the block-protect bits, the rest. -/
theorem statusByte_getLsbD (st : Status) (i : Nat) :
    (statusByte st).getLsbD i =
      if i = 0 then st.wip else if i = 1 then st.wel else if i < 4 then st.bp.getLsbD (i - 2) else st.high.getLsbD (i - 4) := by
  have bits : (statusByte st).getLsbD i =
      (st.high ++ st.bp ++ BitVec.ofBool st.wel ++ BitVec.ofBool st.wip : BitVec (4 + 2 + 1 + 1)).getLsbD i := rfl
  rw [bits, BitVec.getLsbD_append, BitVec.getLsbD_append, BitVec.getLsbD_append]
  obtain rfl | rfl | i := i
  · simp
  · simp
  · by_cases low : i < 2
    · simp [low, show i + 1 + 1 < 4 by omega]
    · simp [low, show ¬ i + 1 + 1 < 4 by omega, show i + 1 + 1 - 4 = i - 2 by omega]

theorem statusOf_statusByte (st : Status) : statusOf (statusByte st) = st := by
  have wip : (statusByte st).getLsbD 0 = st.wip := statusByte_getLsbD st 0
  have wel : (statusByte st).getLsbD 1 = st.wel := statusByte_getLsbD st 1
  have bp : (statusByte st).extractLsb' 2 2 = st.bp := by
    apply BitVec.eq_of_getLsbD_eq
    intro i hi
    have inside : 2 + i < 4 := by omega
    have notOne : 2 + i ≠ 1 := by omega
    simp [statusByte_getLsbD, hi, inside, notOne]
  have high : (statusByte st).extractLsb' 4 4 = st.high := by
    apply BitVec.eq_of_getLsbD_eq
    intro i hi
    have outside : ¬ 4 + i < 4 := by omega
    have notOne : 4 + i ≠ 1 := by omega
    simp [statusByte_getLsbD, hi, outside, notOne]
  rw [statusOf, wip, wel, bp, high]

theorem statusByte_statusOf (b : Byte) : statusByte (statusOf b) = b := by
  apply BitVec.eq_of_getLsbD_eq
  intro i hi
  rw [statusByte_getLsbD]
  split
  · next zero => rw [zero]; rfl
  split
  · next one => rw [one]; rfl
  split
  · next low =>
    have place : 2 + (i - 2) = i := by omega
    have inside : i - 2 < 2 := by omega
    simp [statusOf, place, inside]
  · next high =>
    have place : 4 + (i - 4) = i := by omega
    have inside : i - 4 < 4 := by omega
    simp [statusOf, place, inside]

/-- Settles O8: a status and its byte determine each other, so each part of the byte is the status's. -/
theorem statusByteLayout : Obligations.StatusByteLayout := by
  unfold Obligations.StatusByteLayout
  refine ⟨fun st => ?_, statusByte_statusOf⟩
  have same := statusOf_statusByte st
  exact ⟨congrArg Status.wip same, congrArg Status.wel same, congrArg Status.bp same, congrArg Status.high same, same⟩

end Sys2Proof.Machine
end

section
/-! Reset, the configurations a step admits, and what a step takes (spec/10_state.md R38, R45, spec/70_reset_and_hazards.md R246). -/

namespace Sys2Proof.Machine

/-- Settles O1: `State.construct` writes these fields. -/
theorem resetValues : Obligations.ResetValues := by
  unfold Obligations.ResetValues
  exact fun _ _ => ⟨rfl, rfl, rfl, rfl, rfl, rfl, rfl⟩

/-- Settles O2: the default configuration and the reset device compute. -/
theorem defaultConfiguration : Obligations.DefaultConfiguration := by
  unfold Obligations.DefaultConfiguration
  decide

theorem gate_none_iff {s : State} : gate s = none ↔ configLegal s.cfg = true ∧ s.dev.bp = 0 := by
  unfold gate
  by_cases legal : configLegal s.cfg = true <;> by_cases unprotected : s.dev.bp = 0 <;> simp [legal, unprotected]

/-- After reset nothing is in progress: the invariant asks for the configuration and the array alone. -/
theorem construct_inv {c : Config} {d : Device} (legal : configLegal c = true) (bp : d.bp = 0) (dsel : d.dsel = false)
    (wf : Memory.wf d.mem = true) (inside : memoryInside c d.mem) : Inv (State.construct c d) :=
  ⟨gate_none_iff.2 ⟨legal, bp⟩, ⟨rfl, dsel, Monitor.init, rfl, rfl, rfl, rfl⟩,
    ⟨rfl, rfl, rfl, fun writes => absurd writes (by simp [writing, State.construct]), fun decode => (by cases decode)⟩, wf, inside⟩

/-- Settles O3: the reset state is `State.construct` of a legal configuration and an empty array. -/
theorem invariantAtReset : Obligations.InvariantAtReset := by
  unfold Obligations.InvariantAtReset
  have emptyInside : memoryInside Config.default [] := fun x listed => by cases listed
  exact ⟨construct_inv (by decide) rfl rfl rfl emptyInside, fun _ _ _ _ _ legal wf inside => construct_inv legal rfl rfl wf inside⟩

/-- A 17-bit register shows a power of two exactly when it shows one of the first 17 (`isPowerOfTwo`). -/
theorem isPowerOfTwo_iff (v : BitVec 17) : isPowerOfTwo v.toNat = true ↔ ∃ k, k ≤ 16 ∧ v.toNat = 2 ^ k := by
  simp only [isPowerOfTwo, List.any_eq_true, List.mem_range, beq_iff_eq, Nat.lt_succ_iff]

/-- The exponent needs no bound: the register has 17 bits. -/
theorem exists_pow_iff (v : BitVec 17) : (∃ k, k ≤ 16 ∧ v.toNat = 2 ^ k) ↔ ∃ k, v.toNat = 2 ^ k := by
  refine ⟨fun ⟨k, _, shows⟩ => ⟨k, shows⟩, fun ⟨k, shows⟩ => ⟨k, ?_, shows⟩⟩
  have small : 2 ^ k < 2 ^ 17 := shows ▸ v.isLt
  exact Nat.lt_succ_iff.1 ((Nat.pow_lt_pow_iff_right (by decide)).1 small)

theorem configLegal_iff (c : Config) : configLegal c = true ↔
    (∃ k, c.pageSize.toNat = 2 ^ k) ∧ (∃ b, b ≤ 16 ∧ c.addrSpaceSize.toNat = 2 ^ b) ∧
      c.pageSize.toNat ≤ c.addrSpaceSize.toNat ∧ 1 ≤ c.tPollUs ∧ 1 ≤ c.tWrenUs ∧ ∀ n, c.pollLimit = some n → 1 ≤ n := by
  cases limit : c.pollLimit <;>
    simp [configLegal, limit, isPowerOfTwo_iff, ← exists_pow_iff c.pageSize, and_assoc]

theorem step_illegal {s : State} (illegal : configLegal s.cfg = false) : step s = .refused .illegalConfiguration := by
  have refuses : gate s = some .illegalConfiguration := if_neg (ne_true_of_eq_false illegal)
  simp only [step, refuses]

theorem step_protected {s : State} (legal : configLegal s.cfg = true) (bp : s.dev.bp ≠ 0) : step s = .refused .blockProtected := by
  have refuses : gate s = some .blockProtected := (if_pos legal).trans (if_neg bp)
  simp only [step, refuses]

/-- Settles O4: the powers of two a 17-bit register can show are the first 17, and `step` asks `gate` first. -/
theorem legalConfiguration : Obligations.LegalConfiguration := by
  unfold Obligations.LegalConfiguration
  exact ⟨configLegal_iff, fun _ => ⟨step_illegal, step_protected⟩⟩

/-- In `IDLE` an admissible step takes the next thing offered. -/
theorem step_idle {s : State} (admissible : gate s = none) (idle : s.phase = .idle) : step s = takeNext s := by
  simp only [step, admissible, if_pos idle]

theorem step_command {s : State} {i : Instr} {rest : List Byte} (admissible : gate s = none) (idle : s.phase = .idle)
    (noFrame : s.bench = []) (decoded : decodeHost s.hostPort = .instr i rest) : step s = exec i { s with hostPort := rest } := by
  simp only [step_idle admissible idle, takeNext, noFrame, takeHost, decoded]

theorem step_frame {s : State} {i : Instr} {frame more : List Byte} {frames : List (List Byte)} (admissible : gate s = none)
    (idle : s.phase = .idle) (offered : s.bench = frame :: frames) (decoded : decodeFrame frame = .instr i more) :
    step s = exec i { s with bench := frames } := by
  simp only [step_idle admissible idle, takeNext, offered, takeBench, decoded]

/-- Settles O13: `takeNext` looks at the bench first, then at the host's port. -/
theorem stepRunsTheDecodedInstruction : Obligations.StepRunsTheDecodedInstruction := by
  unfold Obligations.StepRunsTheDecodedInstruction
  exact fun _ _ admissible idle => ⟨fun _ noFrame decoded => step_command admissible idle noFrame decoded,
    fun _ _ offered decoded => step_frame admissible idle offered decoded⟩

/-- While the port holds no whole descriptor only the device moves (60_exceptions.md R233; log 31). -/
theorem step_incomplete {s : State} (admissible : gate s = none) (idle : s.phase = .idle) (noFrame : s.bench = [])
    (decoded : decodeHost s.hostPort = .bad .incomplete) : step s = .next (cycleTick s) := by
  simp only [step_idle admissible idle, takeNext, noFrame, takeHost, decoded]

/-- Settles O14: an empty port holds no whole descriptor. -/
theorem stepIdle : Obligations.StepIdle := by
  unfold Obligations.StepIdle
  exact fun s admissible idle noFrame noBytes => step_incomplete admissible idle noFrame (by rw [noBytes]; rfl)

theorem operate_busy {s : State} (busy : s.phase ≠ .idle) (op : Byte) (addr len : Half) (payload : List Byte) :
    operate op addr len payload s = resume s :=
  if_neg busy

theorem benchFrame_busy {s : State} (busy : s.phase ≠ .idle) (bytes : List Byte) :
    benchFrame bytes s = .refused .secondMaster :=
  if_neg busy

/-- An instruction is a host command or a wire frame, never both. -/
theorem exists_hostCommand {i : Instr} (host : i.isHost = true) : ∃ o addr len payload, hostCommand i = some (o, addr, len, payload) := by
  obtain ⟨⟨o, addr, len, payload⟩, h⟩ := Option.isSome_iff_exists.1 ((hostCommand_isSome i).trans host)
  exact ⟨o, addr, len, payload, h⟩

/-- Settles O15: outside `IDLE` every host command is the operation in progress going on, and every frame a second master's. -/
theorem notAcceptedOutsideIdle : Obligations.NotAcceptedOutsideIdle := by
  unfold Obligations.NotAcceptedOutsideIdle
  intro s i busy
  refine ⟨fun admissible => by simp only [step, admissible, if_neg busy], fun host => ?_, fun wire => ?_⟩
  · obtain ⟨o, addr, len, payload, command⟩ := exists_hostCommand host
    rw [exec_hostCommand command, operate_busy busy]
  · rw [exec_wireFrame wire, benchFrame_busy busy]

end Sys2Proof.Machine
end

section
/-! Said once: what a micro-step can be (spec/10_state.md R24, R25), and what follows for the trace, the registers and `ERR`. -/

namespace Sys2Proof.Machine

/-- The delay a phase makes, and where it leads. -/
def delaysAt (s : State) : Option (Nat × Phase) :=
  match s.phase with
  | .pDelay => some (s.cfg.tPollUs, .pSel)
  | .eDelay => some (s.cfg.tWrenUs, if hostOpOf s.op = some .wren then .resp else .wSel)
  | _ => none

/-- Where a phase that selects the device leads. -/
def selectsAt : Phase → Option Phase
  | .pSel => some .pOp
  | .eSel => some .eOp
  | .wSel => some .wOp
  | .rSel => some .rOp
  | _ => none

/-- Where a phase that deselects the device leads. -/
def deselectsAt : Phase → Option Phase
  | .pDesel => some .pTest
  | .eDesel => some .eDelay
  | .wDesel => some .wNext
  | .rDesel => some .resp
  | .xDesel => some .resp
  | _ => none

/-- Where a phase that exchanges a byte (`byteSent`) leads when it is answered. -/
def answeredPhase (s : State) : Phase :=
  match s.phase with
  | .pOp => .pDummy
  | .pDummy => .pDesel
  | .eOp => .eDesel
  | .wOp => .wAh
  | .wAh => .wAl
  | .wAl => if s.run = 0 then .wDesel else .wData
  | .wData => if s.run - 1 = 0 then .wDesel else .wData
  | .rOp => .rAh
  | .rAh => .rAl
  | .rAl => if s.rem = 0 then .rDesel else .rData
  | .rData => if s.rem - 1 = 0 then .rDesel else .rData
  | p => p

/-- An exchange of `tx` answered `ERR`, before the raise (60_exceptions.md R214). -/
def afterFailure (tx : Byte) (s : State) : State :=
  { s with dev := deviceFail tx s.dev, script := s.script.tail, trace := s.trace ++ [.xfer tx .err] }

/-- An exchange of `tx` answered `r`, `d` the number of the next draw: the status goes to `SR`, a payload byte is counted, a byte read
is kept (40_status_poller.md R131, 41_command_framer.md R154, R158). -/
def afterAnswer (tx : Byte) (r : Rx) (d : Nat) (s : State) : State :=
  { s with
    dev := deviceTake tx s.dev, script := s.script.tail, draws := d, trace := s.trace ++ [.xfer tx r], phase := answeredPhase s
    sr := if s.phase = .pDummy then (rxStatus r).getD s.sr else s.sr
    idx := if s.phase = .wData then s.idx + 1 else s.idx
    run := if s.phase = .wData then s.run - 1 else s.run
    rbuf := if s.phase = .rData then s.rbuf ++ (rxByte r).toList else s.rbuf
    rem := if s.phase = .rData then s.rem - 1 else s.rem }

/-- What a phase from `s` to `t` can be. -/
inductive Micro (s t : State) : Prop where
  /-- `IDLE` does nothing of its own. -/
  | rests (here : s.phase = .idle) (eq : t = s)
  | decodes (here : s.phase = .decode) (eq : t = stepDecode s)
  | delays (n : Nat) (p : Phase) (here : delaysAt s = some (n, p)) (eq : t = doDelay n p s)
  | selects (p : Phase) (here : selectsAt s.phase = some p) (eq : t = doSelect p s)
  /-- The transport answers `ERR`. -/
  | fails (tx : Byte) (here : byteSent s = some tx) (eq : t = raise .transportError (afterFailure tx s))
  /-- The transport answers a byte; a data phase has data left. -/
  | answers (tx : Byte) (r : Rx) (d : Nat) (here : byteSent s = some tx) (data : countInv s.phase s.run s.rem = true) (ok : r ≠ .err)
      (eq : t = afterAnswer tx r d s)
  | deselects (p : Phase) (here : deselectsAt s.phase = some p) (eq : doDeselect p s = .next t)
  /-- The status read found the device busy. -/
  | busy (here : s.phase = .pTest) (wip : s.sr.wip = true) (eq : t = countBusy s)
  /-- The status read found the device ready. -/
  | ready (here : s.phase = .pTest) (wip : s.sr.wip = false) (o : HostOp) (op : hostOpOf s.op = some o) (eq : t = goto (readyPhase o) s)
  | chunk (here : s.phase = .wNext) (eq : t = stepWNext s)
  | responds (here : s.phase = .resp) (eq : t = respond s)

theorem exists_rxByte {r : Rx} (ok : r ≠ .err) : ∃ b, rxByte r = some b := by
  cases r with
  | byte b => exact ⟨b, rfl⟩
  | status st => exact ⟨statusByte st, rfl⟩
  | err => exact absurd rfl ok

theorem exists_rxStatus {r : Rx} (ok : r ≠ .err) : ∃ st, rxStatus r = some st := by
  cases r with
  | byte b => exact ⟨statusOf b, rfl⟩
  | status st => exact ⟨st, rfl⟩
  | err => exact absurd rfl ok

/-- An exchange phase with data left fails or is answered. -/
theorem phaseStep_exchange {s : State} {tx : Byte} (sends : byteSent s = some tx) (data : countInv s.phase s.run s.rem = true) :
    phaseStep s = .next (raise .transportError (afterFailure tx s)) ∨
      ∃ r d, r ≠ .err ∧ phaseStep s = .next (afterAnswer tx r d s) := by
  have sent {p : Phase} (sendsByte : phaseStep s = .next (sendByte tx p s))
      (answered : ∀ r d, afterAnswer tx r d s =
        { s with dev := deviceTake tx s.dev, script := s.script.tail, draws := d, trace := s.trace ++ [.xfer tx r], phase := p }) :
      phaseStep s = .next (raise .transportError (afterFailure tx s)) ∨
        ∃ r d, r ≠ .err ∧ phaseStep s = .next (afterAnswer tx r d s) := by
    rw [sendsByte]
    obtain failed | ⟨r, d, ok, took⟩ := sendByte_cases tx p s
    · exact .inl (congrArg _ failed)
    · exact .inr ⟨r, d, ok, congrArg _ (took.trans (answered r d).symm)⟩
  unfold byteSent at sends
  cases phase : s.phase <;> rw [phase] at sends data <;> simp only [Option.some.injEq, reduceCtorEq] at sends
  case pOp | eOp | wOp | wAh | wAl | rOp | rAh | rAl =>
    subst sends
    exact sent (by simp only [phaseStep, phase]; rfl) (fun r d => by simp only [afterAnswer, answeredPhase, phase]; rfl)
  case pDummy =>
    subst sends
    simp only [phaseStep, phase, stepPDummy]
    obtain failed | ⟨r, d, ok, took⟩ := exchange_cases s.cfg.dummy s
    · exact .inl (by rw [failed]; rfl)
    · refine .inr ⟨r, d, ok, ?_⟩
      obtain ⟨st, read⟩ := exists_rxStatus ok
      simp [took, read, afterAnswer, answeredPhase, phase, goto]
  case wData =>
    have left : s.run ≠ 0 := by simpa [countInv] using data
    simp only [phaseStep, phase, stepWData, if_neg left, sends]
    obtain failed | ⟨r, d, ok, took⟩ := exchange_cases tx s
    · exact .inl (by rw [failed]; rfl)
    · refine .inr ⟨r, d, ok, ?_⟩
      obtain ⟨b, read⟩ := exists_rxByte ok
      simp [took, read, afterAnswer, answeredPhase, phase, goto]
  case rData =>
    subst sends
    have left : s.rem ≠ 0 := by simpa [countInv] using data
    simp only [phaseStep, phase, stepRData, if_neg left]
    obtain failed | ⟨r, d, ok, took⟩ := exchange_cases s.cfg.dummy s
    · exact .inl (by rw [failed]; rfl)
    · refine .inr ⟨r, d, ok, ?_⟩
      obtain ⟨b, read⟩ := exists_rxByte ok
      simp [took, read, afterAnswer, answeredPhase, phase, goto]

/-- An exchange phase that answers has a byte to send (`Fault.payloadMissing`), and a data phase has data left
(`Fault.emptyDataPhase`). -/
theorem exchange_sends {s t : State} (exchanges : exchangePhase s.phase = true) (h : phaseStep s = .next t) :
    (∃ tx, byteSent s = some tx) ∧ countInv s.phase s.run s.rem = true := by
  cases phase : s.phase <;> rw [phase] at exchanges <;> try cases exchanges
  case wData =>
    simp only [phaseStep, phase, stepWData] at h
    split at h
    · cases h
    next left =>
    split at h
    · cases h
    next tx payload => exact ⟨⟨tx, by simp only [byteSent, phase, payload]⟩, by simpa [countInv] using left⟩
  case rData =>
    simp only [phaseStep, phase, stepRData] at h
    split at h
    · cases h
    next left => exact ⟨⟨s.cfg.dummy, by simp only [byteSent, phase]⟩, by simpa [countInv] using left⟩
  all_goals exact ⟨⟨_, by rw [byteSent, phase]⟩, rfl⟩

/-- An exchange phase that answers has failed or gone on. -/
theorem exchange_answers {s t : State} (exchanges : exchangePhase s.phase = true) (h : phaseStep s = .next t) :
    ∃ tx, byteSent s = some tx ∧ countInv s.phase s.run s.rem = true ∧
      (t = raise .transportError (afterFailure tx s) ∨ ∃ r d, r ≠ .err ∧ t = afterAnswer tx r d s) := by
  obtain ⟨⟨tx, sends⟩, data⟩ := exchange_sends exchanges h
  refine ⟨tx, sends, data, ?_⟩
  obtain failed | ⟨r, d, ok, answered⟩ := phaseStep_exchange sends data
  · exact .inl (Host.Outcome.next.inj (h.symm.trans failed))
  · exact .inr ⟨r, d, ok, Host.Outcome.next.inj (h.symm.trans answered)⟩

theorem micro_exchange {s t : State} (exchanges : exchangePhase s.phase = true) (h : phaseStep s = .next t) : Micro s t := by
  obtain ⟨tx, sends, data, failed | ⟨r, d, ok, answered⟩⟩ := exchange_answers exchanges h
  · exact .fails tx sends failed
  · exact .answers tx r d sends data ok answered

/-- After a ready answer the phase is the one `OP` selects (40_status_poller.md R132). -/
theorem phaseStep_pTest_next {s t : State} (test : s.phase = .pTest) (ready : s.sr.wip = false) (h : phaseStep s = .next t) :
    ∃ o, hostOpOf s.op = some o ∧ t = goto (readyPhase o) s := by
  rw [phaseStep_pTest_ready test ready, afterWait] at h
  cases op : hostOpOf s.op with
  | none => rw [op] at h; cases h
  | some o => exact ⟨o, rfl, by rw [op] at h; cases o <;> exact (Host.Outcome.next.inj h).symm⟩

theorem micro_pTest {s t : State} (phase : s.phase = .pTest) (h : phaseStep s = .next t) : Micro s t := by
  cases wip : s.sr.wip with
  | true => exact .busy phase wip (Host.Outcome.next.inj (h.symm.trans (phaseStep_pTest_busy phase wip)))
  | false =>
    obtain ⟨o, op, goesOn⟩ := phaseStep_pTest_next phase wip h
    exact .ready phase wip o op goesOn

/-- A phase that answers is one of these. -/
theorem phaseStep_micro {s t : State} (h : phaseStep s = .next t) : Micro s t := by
  cases phase : s.phase with
  | pTest => exact micro_pTest phase h
  | pOp | pDummy | eOp | wOp | wAh | wAl | wData | rOp | rAh | rAl | rData => exact micro_exchange (by rw [phase]; rfl) h
  | pDesel | eDesel | wDesel | rDesel | xDesel =>
    rw [phaseStep, phase] at h
    exact .deselects _ (by rw [phase]; rfl) h
  | idle => rw [phaseStep, phase] at h; exact .rests phase (Host.Outcome.next.inj h).symm
  | decode => rw [phaseStep, phase] at h; exact .decodes phase (Host.Outcome.next.inj h).symm
  | pDelay | eDelay =>
    rw [phaseStep, phase] at h
    exact .delays _ _ (by rw [delaysAt, phase]) (Host.Outcome.next.inj h).symm
  | pSel | eSel | wSel | rSel =>
    rw [phaseStep, phase] at h
    exact .selects _ (by rw [phase]; rfl) (Host.Outcome.next.inj h).symm
  | wNext => rw [phaseStep, phase] at h; exact .chunk phase (Host.Outcome.next.inj h).symm
  | resp => rw [phaseStep, phase] at h; exact .responds phase (Host.Outcome.next.inj h).symm

/-- A micro-step is the device's own turn and one of these. -/
theorem tick_micro {s t : State} (h : tick s = .next t) : Micro (cycleTick s) t := phaseStep_micro h

end Sys2Proof.Machine
end

section
/-! What the micro-steps do to the command registers, the trace, the phase and `ERR` (spec/10_state.md R25 to R27,
spec/60_exceptions.md R210). -/

namespace Sys2Proof.Machine

/-! The branches of the shared operations, each said once. -/

/-- A busy answer is counted and asked again, or is the last the limit allows. -/
theorem countBusy_cases (s : State) :
    countBusy s = goto .pDelay { s with pcnt := s.pcnt + 1 } ∨
      (∃ n, s.cfg.pollLimit = some n ∧ n ≤ s.pcnt + 1) ∧
        countBusy s = raise .deviceUnresponsive { s with pcnt := s.pcnt + 1 } := by
  by_cases below : ∀ n, s.cfg.pollLimit = some n → s.pcnt + 1 < n
  · exact .inl (countBusy_belowLimit below)
  · push Not at below
    obtain ⟨n, limit, reached⟩ := below
    exact .inr ⟨⟨n, limit, reached⟩, countBusy_atLimit limit reached⟩

/-- What `DECODE` can raise, and why (60_exceptions.md R211, R212, R215). -/
def decodeRaises (e : Code) (s : State) : Prop :=
  e = .invalidCommand ∧ hostOpOf s.op = none ∨ e = .invalidAddress ∧ lastAddr s.cfg < s.addr.toNat ∨
    e = .invalidWriteSpan ∧ s.cfg.spanPolicy = .reject

theorem setupWrite_cases (s : State) (n : Half) :
    (∃ cur run rem idx, setupWrite { s with len := n } = startWait { s with len := n, cur := cur, run := run, rem := rem, idx := idx }) ∨
      ∃ e, decodeRaises e s ∧ setupWrite { s with len := n } = raise e { s with len := n } := by
  obtain above | inside := lt_or_ge (lastAddr s.cfg) s.addr.toNat
  · exact .inr ⟨_, .inr (.inl ⟨rfl, above⟩), setupWrite_above above⟩
  obtain fits | long := le_or_gt n.toNat (maxRun s.cfg s.addr)
  · exact .inl ⟨_, _, _, _, setupWrite_fits inside fits⟩
  cases policy : s.cfg.spanPolicy with
  | reject => exact .inr ⟨_, .inr (.inr ⟨rfl, policy⟩), setupWrite_reject inside long policy⟩
  | split => exact .inl ⟨_, _, _, _, setupWrite_split inside long policy⟩

/-- `LEN` as `DECODE` leaves it (42_addressing_engine.md R186). -/
def decodedLen (s : State) : Half :=
  match hostOpOf s.op with
  | some .wrbyte => 1
  | some .rdbyte => 1
  | some .wait => 0
  | some .wren => 0
  | some .write => s.len
  | some .read => s.len
  | none => s.len

/-- `DECODE` sets `LEN` and starts the wait, or raises. -/
theorem stepDecode_cases (s : State) :
    (∃ cur run rem idx,
      stepDecode s = startWait { s with len := decodedLen s, cur := cur, run := run, rem := rem, idx := idx }) ∨
      ∃ e, decodeRaises e s ∧ stepDecode s = raise e { s with len := decodedLen s } := by
  cases op : hostOpOf s.op with
  | none => exact .inr ⟨_, .inl ⟨rfl, op⟩, by rw [stepDecode_reserved op, decodedLen, op]⟩
  | some o =>
    cases o with
    | wait | wren => exact .inl ⟨s.cur, s.run, s.rem, s.idx, by rw [stepDecode, decodedLen, op]⟩
    | wrbyte | write => rw [stepDecode, decodedLen, op]; exact setupWrite_cases s _
    | rdbyte | read =>
      rw [stepDecode, decodedLen, op]
      obtain above | inside := lt_or_ge (lastAddr s.cfg) s.addr.toNat
      · exact .inr ⟨_, .inr (.inl ⟨rfl, above⟩), setupRead_above above⟩
      · exact .inl ⟨s.cur, s.run, _, s.idx, setupRead_inside inside⟩

/-- `W_NEXT` responds or starts another wait for the next chunk. -/
theorem stepWNext_cases (s : State) :
    stepWNext s = goto .resp s ∨ ∃ cur run rem, stepWNext s = startWait { s with cur := cur, run := run, rem := rem } := by
  by_cases done : s.rem = 0
  · exact .inl (stepWNext_done done)
  · exact .inr ⟨_, _, _, stepWNext_more done⟩

/-- The device's deselect changes the device and the schedule of write cycles alone; the array at most by the data of a frame
(20_memory.md R70). -/
theorem deviceDeselect_shape {s t : State} (h : deviceDeselect s = .next t) :
    ∃ d cs k, t = { s with dev := d, cycles := cs, cycleCount := k } ∧ d.dsel = false ∧ d.fr = s.dev.fr ∧
      (d.mem = s.dev.mem ∨ ∃ a bs, d.mem = storePage s.cfg (deviceAddr s.cfg a) 0 bs s.dev.mem) := by
  obtain ⟨w, rfl⟩ | ⟨_, _, _, c, cs, n, _, _, _, rfl⟩ | ⟨_, _, _, _, _, c, cs, n, _, _, _, _, _, rfl⟩ := deviceDeselect_cases h
  · exact ⟨_, s.cycles, s.cycleCount, rfl, rfl, rfl, .inl rfl⟩
  · exact ⟨_, cs, n, rfl, rfl, rfl, .inl rfl⟩
  · exact ⟨_, cs, n, rfl, rfl, rfl, .inr ⟨_, _, rfl⟩⟩

/-- The sequencer's deselect: the same, its event, `sel` and the phase. -/
theorem doDeselect_shape {p : Phase} {s t : State} (h : doDeselect p s = .next t) :
    ∃ d cs k, t = { s with dev := d, cycles := cs, cycleCount := k, trace := s.trace ++ [.desel s.cfg.csId], sel := false, phase := p } ∧
      d.dsel = false ∧ d.fr = s.dev.fr ∧
      (d.mem = s.dev.mem ∨ ∃ a bs, d.mem = storePage s.cfg (deviceAddr s.cfg a) 0 bs s.dev.mem) := by
  obtain ⟨u, deselects, rfl⟩ := doDeselect_cases h
  obtain ⟨d, cs, k, rfl, rest⟩ := deviceDeselect_shape deselects
  exact ⟨d, cs, k, rfl, rest⟩

/-- Settles O23: `raise`, the deselect and the response as they are defined. -/
theorem raiseEnds : Obligations.RaiseEnds := by
  unfold Obligations.RaiseEnds
  refine ⟨fun _ _ => rfl, fun s t phase h => ?_, fun s phase => ?_⟩
  · rw [phaseStep, phase] at h
    obtain ⟨d, cs, k, rfl, -⟩ := doDeselect_shape h
    exact ⟨rfl, rfl, rfl, rfl, rfl⟩
  · rw [phaseStep, phase]; rfl

/-- No phase but `DECODE` writes `LEN`. -/
theorem Micro.len {s t : State} (h : Micro s t) (notDecode : s.phase ≠ .decode) : t.len = s.len := by
  cases h with
  | decodes here eq => exact absurd here notDecode
  | deselects p here run => obtain ⟨d, cs, k, rfl, -⟩ := doDeselect_shape run; rfl
  | busy here wip eq => obtain leads | ⟨-, leads⟩ := countBusy_cases s <;> rw [eq, leads] <;> rfl
  | chunk here eq => obtain leads | ⟨_, _, _, leads⟩ := stepWNext_cases s <;> rw [eq, leads] <;> rfl
  | rests here eq | delays _ _ here eq | selects _ here eq | fails _ here eq | answers _ _ _ here _ _ eq | ready here _ _ _ eq
  | responds here eq => subst eq; rfl

theorem stepDecode_len (s : State) : (stepDecode s).len = decodedLen s := by
  obtain ⟨_, _, _, _, leads⟩ | ⟨_, -, leads⟩ := stepDecode_cases s <;> exact congrArg State.len leads

theorem tick_decode {s : State} (decode : s.phase = .decode) : tick s = .next (stepDecode (cycleTick s)) :=
  phaseStep_decode (s := cycleTick s) decode

/-- Settles O16: no micro-step writes `OP`, `ADDR` or `WBUF` (`tick_fixed`), and `DECODE` alone writes `LEN`. -/
theorem commandRegisters : Obligations.CommandRegisters := by
  unfold Obligations.CommandRegisters
  refine ⟨fun _ _ _ _ _ => ⟨rfl, rfl, rfl, rfl⟩, fun s t h => ?_⟩
  obtain ⟨-, -, -, -, -, op, addr, wbuf, -⟩ := tick_fixed h
  refine ⟨op, addr, wbuf, ?_⟩
  by_cases decode : s.phase = .decode
  · obtain rfl := Host.Outcome.next.inj ((tick_decode decode).symm.trans h)
    rw [if_pos decode]
    exact stepDecode_len (cycleTick s)
  · rw [if_neg decode]
    exact (tick_micro h).len decode

/-- Settles O18: each kind of micro-step adds the one event of its phase, or none; `SEL` and `DESEL` set and clear `sel` as they are
emitted. -/
theorem oneEventPerMicroStep : Obligations.OneEventPerMicroStep := by
  unfold Obligations.OneEventPerMicroStep
  intro s t h
  cases tick_micro h with
  | rests _ eq => exact .inl (by rw [eq]; exact ⟨rfl, rfl⟩)
  | decodes _ eq =>
    obtain ⟨_, _, _, _, leads⟩ | ⟨_, -, leads⟩ := stepDecode_cases (cycleTick s) <;> exact .inl (by rw [eq, leads]; exact ⟨rfl, rfl⟩)
  | delays n _ _ eq => exact .inr ⟨.delay n, by rw [eq]; exact ⟨rfl, rfl⟩⟩
  | selects _ _ eq => exact .inr ⟨.sel s.cfg.csId, by rw [eq]; exact ⟨rfl, rfl⟩⟩
  | fails tx _ eq => exact .inr ⟨.xfer tx .err, by rw [eq]; exact ⟨rfl, rfl⟩⟩
  | answers tx r _ _ _ _ eq => exact .inr ⟨.xfer tx r, by rw [eq]; exact ⟨rfl, rfl⟩⟩
  | deselects _ _ run =>
    obtain ⟨_, _, _, rfl, -⟩ := doDeselect_shape run
    exact .inr ⟨.desel s.cfg.csId, rfl, rfl⟩
  | busy _ _ eq => obtain leads | ⟨-, leads⟩ := countBusy_cases (cycleTick s) <;> exact .inl (by rw [eq, leads]; exact ⟨rfl, rfl⟩)
  | ready _ _ _ _ eq => exact .inl (by rw [eq]; exact ⟨rfl, rfl⟩)
  | chunk _ eq => obtain leads | ⟨_, _, _, leads⟩ := stepWNext_cases (cycleTick s) <;> exact .inl (by rw [eq, leads]; exact ⟨rfl, rfl⟩)
  | responds _ eq => exact .inr ⟨.rsp s.err s.rbuf, by rw [eq]; exact ⟨rfl, rfl⟩⟩

theorem byteSent_exchanges {s : State} {tx : Byte} (sends : byteSent s = some tx) : exchangePhase s.phase = true := by
  unfold byteSent at sends
  cases phase : s.phase <;> rw [phase] at sends <;> first | rfl | cases sends

/-- Settles O37: `DECODE` raises one of its three codes, `P_TEST` at the limit and a failed exchange theirs; every other kind of
micro-step leaves `ERR` alone. -/
theorem errorCauses : Obligations.ErrorCauses := by
  unfold Obligations.ErrorCauses
  intro s t h changed
  cases tick_micro h with
  | decodes here eq =>
    obtain ⟨_, _, _, _, leads⟩ | ⟨e, cause, leads⟩ := stepDecode_cases (cycleTick s)
    · exact absurd (by rw [eq, leads]; rfl) changed
    · have err : t.err = e := by rw [eq, leads]; rfl
      obtain ⟨rfl, reserved⟩ | ⟨rfl, above⟩ | ⟨rfl, policy⟩ := cause
      · exact .inl ⟨err, here, reserved⟩
      · exact .inr (.inl ⟨err, here, above⟩)
      · exact .inr (.inr (.inl ⟨err, here, policy⟩))
  | busy here wip eq =>
    obtain leads | ⟨limit, leads⟩ := countBusy_cases (cycleTick s)
    · exact absurd (by rw [eq, leads]; rfl) changed
    · exact .inr (.inr (.inr (.inl ⟨by rw [eq, leads]; rfl, here, wip, limit⟩)))
  | fails tx sends eq =>
    exact .inr (.inr (.inr (.inr ⟨by rw [eq]; rfl, byteSent_exchanges sends, tx, by rw [eq]; rfl⟩)))
  | deselects _ _ run => obtain ⟨_, _, _, rfl, -⟩ := doDeselect_shape run; exact absurd rfl changed
  | chunk _ eq => exact absurd (by rw [eq, stepWNext_err]; rfl) changed
  | rests _ eq | delays _ _ _ eq | selects _ _ eq | answers _ _ _ _ _ _ eq | ready _ _ _ _ eq | responds _ eq =>
    exact absurd (by rw [eq]; rfl) changed

/-! The order of the phases. -/

theorem delaysAt_successor {s : State} {n : Nat} {p : Phase} (h : delaysAt s = some (n, p)) : p ∈ successors s.phase := by
  unfold delaysAt at h
  split at h
  · next here => cases h; rw [here]; decide
  · next here => cases h; rw [here]; split <;> decide
  · cases h

theorem selectsAt_successor {p q : Phase} (h : selectsAt p = some q) : q ∈ successors p := by
  cases p <;> cases h <;> decide

theorem deselectsAt_successor {p q : Phase} (h : deselectsAt p = some q) : q ∈ successors p := by
  cases p <;> cases h <;> decide

theorem answeredPhase_successor {s : State} (exchanges : exchangePhase s.phase = true) : answeredPhase s ∈ successors s.phase := by
  unfold answeredPhase
  cases phase : s.phase <;> rw [phase] at exchanges <;> try cases exchanges
  case wAl | wData | rAl | rData => dsimp only; split <;> decide
  all_goals exact List.mem_cons_self

theorem raised_successor {p : Phase} (exchanges : exchangePhase p = true) (sel : Bool) :
    (if sel then Phase.xDesel else .resp) ∈ successors p := by
  cases p <;> try cases exchanges
  all_goals cases sel <;> decide

theorem readyPhase_successor (o : HostOp) : readyPhase o ∈ successors .pTest := by
  cases o <;> decide

/-- Every micro-step leads to a successor of its phase. -/
theorem Micro.successor {s t : State} (h : Micro s t) : t.phase ∈ successors s.phase := by
  cases h with
  | rests here eq => rw [eq, here]; decide
  | decodes here eq =>
    rw [eq, here]
    obtain ⟨_, _, _, _, leads⟩ | ⟨_, -, leads⟩ := stepDecode_cases s
    · rw [leads, startWait_phase]; decide
    · rw [leads, raise_phase]; split <;> decide
  | delays n p here eq => rw [eq]; exact delaysAt_successor here
  | selects p here eq => rw [eq]; exact selectsAt_successor here
  | fails tx sends eq => rw [eq]; exact raised_successor (byteSent_exchanges sends) s.sel
  | answers tx r d sends _ _ eq => rw [eq]; exact answeredPhase_successor (byteSent_exchanges sends)
  | deselects p here run => obtain ⟨_, _, _, rfl, -⟩ := doDeselect_shape run; exact deselectsAt_successor here
  | busy here _ eq =>
    rw [eq, here]
    obtain leads | ⟨-, leads⟩ := countBusy_cases s
    · rw [leads, goto_phase]; decide
    · rw [leads, raise_phase]; split <;> decide
  | ready here _ o _ eq => rw [eq, here]; exact readyPhase_successor o
  | chunk here eq =>
    rw [eq, here]
    obtain leads | ⟨_, _, _, leads⟩ := stepWNext_cases s
    · rw [leads, goto_phase]; decide
    · rw [leads, startWait_phase]; decide
  | responds here eq => rw [eq, here]; exact List.mem_cons_self

/-- An exchange that does not raise goes on to the phase's next. -/
theorem exchange_goesOn {s t : State} (exchanges : exchangePhase s.phase = true) (h : phaseStep s = .next t)
    (notRaised : t.err ≠ .transportError) : ∃ tx r d, t = afterAnswer tx r d s := by
  obtain ⟨tx, -, -, rfl | ⟨r, d, -, answered⟩⟩ := exchange_answers exchanges h
  · exact absurd rfl notRaised
  · exact ⟨tx, r, d, answered⟩

/-- Settles O19: the successors of each kind of micro-step; the wait loop by `countBusy` and `afterWait`, the data loops by the counts
`afterAnswer` leaves. -/
theorem phaseOrder : Obligations.PhaseOrder := by
  unfold Obligations.PhaseOrder
  intro s t h
  have h' : phaseStep (cycleTick s) = .next t := h
  refine ⟨(tick_micro h).successor, fun test busy => ?_, fun test ready => ?_, fun delay => ?_, fun here _ ok => ?_, fun here _ ok => ?_,
    fun here _ ok => ?_, fun here _ ok => ?_⟩
  · rw [phaseStep_pTest_busy (s := cycleTick s) test busy] at h'
    obtain rfl := Host.Outcome.next.inj h'
    obtain leads | ⟨-, leads⟩ := countBusy_cases (cycleTick s) <;> rw [leads]
    · exact .inl rfl
    · exact .inr rfl
  · obtain ⟨o, op, rfl⟩ := phaseStep_pTest_next (s := cycleTick s) test ready h'
    rw [← cycleTick_op s, op]
    cases o <;> rfl
  · rw [phaseStep, cycleTick_phase, delay] at h'
    obtain rfl := Host.Outcome.next.inj h'
    rfl
  · obtain ⟨tx, r, d, rfl⟩ := exchange_goesOn (s := cycleTick s) (by rw [cycleTick_phase, here]; rfl) h' ok
    simp only [afterAnswer, answeredPhase, cycleTick_phase, here]; rfl
  · obtain ⟨tx, r, d, rfl⟩ := exchange_goesOn (s := cycleTick s) (by rw [cycleTick_phase, here]; rfl) h' ok
    simp only [afterAnswer, answeredPhase, cycleTick_phase, here]; rfl
  · obtain ⟨tx, r, d, rfl⟩ := exchange_goesOn (s := cycleTick s) (by rw [cycleTick_phase, here]; rfl) h' ok
    simp only [afterAnswer, answeredPhase, cycleTick_phase, here, if_true]
  · obtain ⟨tx, r, d, rfl⟩ := exchange_goesOn (s := cycleTick s) (by rw [cycleTick_phase, here]; rfl) h' ok
    simp only [afterAnswer, answeredPhase, cycleTick_phase, here, if_true]

end Sys2Proof.Machine
end

section
/-! The invariant, part by part: what each kind of micro-step does to it (spec/10_state.md R33). -/

namespace Sys2Proof.Machine

/-! ### Chip-select -/

theorem selectsAt_selected {p q : Phase} (h : selectsAt p = some q) : selectedPhase p = false ∧ selectedPhase q = true := by
  cases p <;> cases h <;> decide

theorem deselectsAt_selected {p q : Phase} (h : deselectsAt p = some q) : selectedPhase p = true ∧ selectedPhase q = false := by
  cases p <;> cases h <;> decide

theorem delaysAt_selected {s : State} {n : Nat} {p : Phase} (h : delaysAt s = some (n, p)) :
    selectedPhase s.phase = false ∧ selectedPhase p = false := by
  unfold delaysAt at h
  split at h
  · next here => cases h; rw [here]; decide
  · next here => cases h; rw [here]; split <;> decide
  · cases h

theorem answeredPhase_selected {s : State} (exchanges : exchangePhase s.phase = true) : selectedPhase (answeredPhase s) = true := by
  unfold answeredPhase
  cases phase : s.phase <;> rw [phase] at exchanges <;> try cases exchanges
  case wAl | wData | rAl | rData => dsimp only; split <;> rfl
  all_goals rfl

theorem exchangePhase_selected {p : Phase} (exchanges : exchangePhase p = true) : selectedPhase p = true := by
  cases p <;> first | rfl | cases exchanges

theorem readyPhase_selected (o : HostOp) : selectedPhase (readyPhase o) = false := by
  cases o <;> rfl

/-- A raise leads to `X_DESEL` with chip-select asserted and to `RESP` with it clear. -/
theorem raise_selected (e : Code) (s : State) : (raise e s).sel = selectedPhase (raise e s).phase := by
  rw [raise_sel, raise_phase]
  cases s.sel <;> rfl

/-- `DECODE` is deselected and stays so. -/
theorem stepDecode_selected {s : State} (desel : s.sel = false) : (stepDecode s).sel = selectedPhase (stepDecode s).phase := by
  obtain ⟨_, _, _, _, leads⟩ | ⟨_, -, leads⟩ := stepDecode_cases s
  · rw [leads]; exact desel
  · rw [leads]; exact raise_selected _ _

theorem countBusy_selected {s : State} (desel : s.sel = false) : (countBusy s).sel = selectedPhase (countBusy s).phase := by
  obtain leads | ⟨-, leads⟩ := countBusy_cases s
  · rw [leads]; exact desel
  · rw [leads]; exact raise_selected _ _

theorem stepWNext_selected {s : State} (desel : s.sel = false) : (stepWNext s).sel = selectedPhase (stepWNext s).phase := by
  obtain leads | ⟨_, _, _, leads⟩ := stepWNext_cases s <;> rw [leads] <;> exact desel

theorem Micro.selected {s t : State} (h : Micro s t) (agrees : s.sel = selectedPhase s.phase) : t.sel = selectedPhase t.phase := by
  cases h with
  | rests _ eq => rw [eq]; exact agrees
  | decodes here eq => rw [eq]; exact stepDecode_selected (by rw [agrees, here]; rfl)
  | delays _ _ here eq =>
    obtain ⟨before, after⟩ := delaysAt_selected here
    rw [eq]; exact (agrees.trans before).trans after.symm
  | selects _ here eq => rw [eq]; exact (selectsAt_selected here).2.symm
  | fails _ _ eq => rw [eq]; exact raise_selected _ _
  | answers _ _ _ sends _ _ eq =>
    have exchanges := byteSent_exchanges sends
    rw [eq]; exact (agrees.trans (exchangePhase_selected exchanges)).trans (answeredPhase_selected exchanges).symm
  | deselects _ here run =>
    obtain ⟨_, _, _, rfl, -⟩ := doDeselect_shape run
    exact (deselectsAt_selected here).2.symm
  | busy here _ eq => rw [eq]; exact countBusy_selected (by rw [agrees, here]; rfl)
  | ready here _ o _ eq => rw [eq]; exact (agrees.trans (by rw [here]; rfl)).trans (readyPhase_selected o).symm
  | chunk here eq => rw [eq]; exact stepWNext_selected (by rw [agrees, here]; rfl)
  | responds here eq => rw [eq]; exact agrees.trans (by rw [here]; rfl)

/-- The device's select follows the sequencer's. -/
theorem Micro.deviceSelected {s t : State} (h : Micro s t) (agrees : s.dev.dsel = s.sel) : t.dev.dsel = t.sel := by
  cases h with
  | decodes _ eq => obtain ⟨_, _, _, _, leads⟩ | ⟨_, -, leads⟩ := stepDecode_cases s <;> rw [eq, leads] <;> exact agrees
  | fails tx _ eq => rw [eq]; exact (deviceFail_dsel tx s.dev).trans agrees
  | answers tx _ _ _ _ _ eq => rw [eq]; exact (deviceTake_dsel tx s.dev).trans agrees
  | deselects _ _ run => obtain ⟨_, _, _, rfl, desel, -⟩ := doDeselect_shape run; exact desel
  | busy _ _ eq => obtain leads | ⟨-, leads⟩ := countBusy_cases s <;> rw [eq, leads] <;> exact agrees
  | chunk _ eq => obtain leads | ⟨_, _, _, leads⟩ := stepWNext_cases s <;> rw [eq, leads] <;> exact agrees
  | selects _ _ eq => rw [eq]; rfl
  | rests _ eq | delays _ _ _ eq | ready _ _ _ _ eq | responds _ eq => rw [eq]; exact agrees

/-! ### The frame the device holds -/

theorem frameInv_unselected {p : Phase} (desel : selectedPhase p = false) (fr : List Byte) : frameInv p fr = true := by
  cases p <;> first | rfl | cases desel

theorem frameInv_selects {p q : Phase} (h : selectsAt p = some q) : frameInv q [] = true := by
  cases p <;> cases h <;> rfl

theorem emittedOpcode_of_frame {p : Phase} {op : Byte} {fr : List Byte} (sel : selectedPhase p = true)
    (own : frameInv p (op :: fr) = true) : emittedOpcode op = true := by
  cases p with
  | pOp | eOp | wOp | rOp => cases own
  | pDummy | pDesel | eDesel | wAh | wAl | wData | wDesel | rAh | rAl | rData | rDesel | xDesel => exact own
  | idle | decode | pDelay | pSel | pTest | eSel | eDelay | wSel | wNext | rSel | resp => cases sel

/-- A phase that exchanges a byte exchanges an opcode first. -/
theorem frame_append {s : State} {tx : Byte} {fr : List Byte} (sends : byteSent s = some tx) (own : frameInv s.phase fr = true) :
    ∃ op rest, fr ++ [tx] = op :: rest ∧ emittedOpcode op = true := by
  have sel := exchangePhase_selected (byteSent_exchanges sends)
  cases fr with
  | cons op fr => exact ⟨op, fr ++ [tx], rfl, emittedOpcode_of_frame sel own⟩
  | nil =>
    refine ⟨tx, [], rfl, ?_⟩
    unfold byteSent at sends
    cases phase : s.phase <;> rw [phase] at sends own sel
    case pOp | eOp | wOp | rOp => cases sends; decide
    case pDummy | pDesel | eDesel | wAh | wAl | wData | wDesel | rAh | rAl | rData | rDesel => cases own
    all_goals cases sends

theorem frameInv_answered {s : State} {op : Byte} {fr : List Byte} (exchanges : exchangePhase s.phase = true)
    (own : emittedOpcode op = true) : frameInv (answeredPhase s) (op :: fr) = true := by
  unfold answeredPhase
  cases phase : s.phase <;> rw [phase] at exchanges <;> try cases exchanges
  case wAl | wData | rAl | rData => dsimp only; split <;> exact own
  all_goals exact own

/-- A frame broken off is the part of it that was sent (60_exceptions.md R216). -/
theorem frameInv_failed {s : State} {tx : Byte} {fr fr' : List Byte} (sends : byteSent s = some tx) (own : frameInv s.phase fr = true)
    (sent : fr' = fr ∨ fr' = fr ++ [tx]) : frameInv .xDesel fr' = true := by
  obtain rfl | rfl := sent
  · cases fr' with
    | nil => rfl
    | cons op fr => exact emittedOpcode_of_frame (exchangePhase_selected (byteSent_exchanges sends)) own
  · obtain ⟨op, rest, begins, emitted⟩ := frame_append sends own
    rw [begins]; exact emitted

/-- The frame stays the sequencer's own: only exchanges add to it, and deselected the rule asks for nothing. -/
theorem Micro.frame {s t : State} (h : Micro s t) (sel : s.sel = selectedPhase s.phase) (dsel : s.dev.dsel = s.sel)
    (own : frameInv s.phase s.dev.fr = true) : frameInv t.phase t.dev.fr = true := by
  have after := h.selected sel
  have unselected (desel : t.sel = false) : frameInv t.phase t.dev.fr = true := frameInv_unselected (after.symm.trans desel) _
  have kept (phase : selectedPhase s.phase = false) (same : t.sel = s.sel) : frameInv t.phase t.dev.fr = true :=
    unselected (same.trans (sel.trans phase))
  cases h with
  | rests here eq => exact kept (by rw [here]; rfl) (by rw [eq])
  | decodes here eq =>
    refine kept (by rw [here]; rfl) ?_
    obtain ⟨_, _, _, _, leads⟩ | ⟨_, -, leads⟩ := stepDecode_cases s <;> rw [eq, leads] <;> rfl
  | delays _ _ here eq => exact kept (delaysAt_selected here).1 (by rw [eq, doDelay_sel])
  | selects _ here eq => rw [eq]; exact frameInv_selects here
  | fails tx sends eq =>
    obtain ⟨fr, _, _, dev, sent⟩ := deviceFail_eq tx s.dev
    have selected := sel.trans (exchangePhase_selected (byteSent_exchanges sends))
    have phase : t.phase = .xDesel := by rw [eq, raise_phase]; exact if_pos selected
    have frame : t.dev.fr = fr := by rw [eq, raise_dev, afterFailure, dev]
    rw [phase, frame]
    exact frameInv_failed sends own sent
  | answers tx r d sends _ _ eq =>
    have exchanges := byteSent_exchanges sends
    have selected := (dsel.trans sel).trans (exchangePhase_selected exchanges)
    obtain ⟨op, rest, begins, emitted⟩ := frame_append sends own
    have frame : t.dev.fr = op :: rest := by rw [eq]; exact (deviceTake_fr selected).trans begins
    rw [frame, eq]
    exact frameInv_answered exchanges emitted
  | deselects _ _ run => obtain ⟨_, _, _, rfl, -⟩ := doDeselect_shape run; exact unselected rfl
  | busy here _ eq =>
    refine kept (by rw [here]; rfl) ?_
    obtain leads | ⟨-, leads⟩ := countBusy_cases s <;> rw [eq, leads] <;> rfl
  | ready here _ _ _ eq => exact kept (by rw [here]; rfl) (by rw [eq, goto_sel])
  | chunk here eq =>
    refine kept (by rw [here]; rfl) ?_
    obtain leads | ⟨_, _, _, leads⟩ := stepWNext_cases s <;> rw [eq, leads] <;> rfl
  | responds here eq => exact kept (by rw [here]; rfl) (by rw [eq, respond_sel])

/-! ### The operation a phase belongs to -/

theorem opInv_delays {s : State} {n : Nat} {p : Phase} (h : delaysAt s = some (n, p)) (belongs : opInv s.phase (hostOpOf s.op) = true) :
    opInv p (hostOpOf s.op) = true := by
  unfold delaysAt at h
  split at h
  · next here => cases h; rw [here] at belongs; exact belongs
  · next here =>
    cases h
    rw [here] at belongs
    split
    · rfl
    · next notWren => simpa [opInv, notWren] using belongs
  · cases h

theorem opInv_selects {p q : Phase} {o : Option HostOp} (h : selectsAt p = some q) (belongs : opInv p o = true) : opInv q o = true := by
  cases p <;> cases h <;> exact belongs

theorem opInv_deselects {p q : Phase} {o : Option HostOp} (h : deselectsAt p = some q) (belongs : opInv p o = true) :
    opInv q o = true := by
  cases p <;> cases h <;> first | exact belongs | rfl

theorem opInv_answered {s : State} {o : Option HostOp} (exchanges : exchangePhase s.phase = true) (belongs : opInv s.phase o = true) :
    opInv (answeredPhase s) o = true := by
  unfold answeredPhase
  cases phase : s.phase <;> rw [phase] at exchanges belongs <;> try cases exchanges
  case wAl | wData | rAl | rData => dsimp only; split <;> exact belongs
  all_goals exact belongs

theorem opInv_ready (o : HostOp) : opInv (readyPhase o) (some o) = true := by
  cases o <;> rfl

theorem opInv_raised (e : Code) (s : State) (o : Option HostOp) : opInv (raise e s).phase o = true := by
  rw [raise_phase]
  cases s.sel <;> rfl

/-- Every phase of an operation leads to one that operation goes through. -/
theorem Micro.belongs {s t : State} (h : Micro s t) (belongs : opInv s.phase (hostOpOf s.op) = true) :
    opInv t.phase (hostOpOf s.op) = true := by
  cases h with
  | rests _ eq => rw [eq]; exact belongs
  | decodes here eq =>
    cases op : hostOpOf s.op with
    | none => rw [eq, stepDecode_reserved op]; exact opInv_raised _ _ _
    | some o =>
      obtain ⟨_, _, _, _, leads⟩ | ⟨_, -, leads⟩ := stepDecode_cases s
      · rw [eq, leads]; rfl
      · rw [eq, leads]; exact opInv_raised _ _ _
  | delays _ _ here eq => rw [eq]; exact opInv_delays here belongs
  | selects _ here eq => rw [eq]; exact opInv_selects here belongs
  | fails _ _ eq => rw [eq]; exact opInv_raised _ _ _
  | answers _ _ _ sends _ _ eq => rw [eq]; exact opInv_answered (byteSent_exchanges sends) belongs
  | deselects _ here run => obtain ⟨_, _, _, rfl, -⟩ := doDeselect_shape run; exact opInv_deselects here belongs
  | busy here _ eq =>
    rw [here] at belongs
    obtain leads | ⟨-, leads⟩ := countBusy_cases s
    · rw [eq, leads]; exact belongs
    · rw [eq, leads]; exact opInv_raised _ _ _
  | ready _ _ o op eq => rw [eq, op]; exact opInv_ready o
  | chunk here eq =>
    rw [here] at belongs
    obtain leads | ⟨_, _, _, leads⟩ := stepWNext_cases s
    · rw [eq, leads]; rfl
    · rw [eq, leads]
      have writes : hostOpOf s.op = some .wrbyte ∨ hostOpOf s.op = some .write := by simpa [opInv] using belongs
      obtain op | op := writes <;> rw [op] <;> rfl
  | responds _ eq => rw [eq]; rfl

/-! ### The counts of the data phases -/

theorem countInv_raised (e : Code) (s : State) (run : BitVec 17) (rem : Half) : countInv (raise e s).phase run rem = true := by
  rw [raise_phase]
  cases s.sel <;> rfl

theorem countInv_delays {s : State} {n : Nat} {p : Phase} (h : delaysAt s = some (n, p)) (run : BitVec 17) (rem : Half) :
    countInv p run rem = true := by
  unfold delaysAt at h
  split at h
  · cases h; rfl
  · cases h; split <;> rfl
  · cases h

theorem countInv_selects {p q : Phase} (h : selectsAt p = some q) (run : BitVec 17) (rem : Half) : countInv q run rem = true := by
  cases p <;> cases h <;> rfl

theorem countInv_deselects {p q : Phase} {run : BitVec 17} {rem : Half} (h : deselectsAt p = some q)
    (counts : countInv p run rem = true) : countInv q run rem = true := by
  cases p <;> cases h <;> exact counts

theorem countInv_ready (o : HostOp) (run : BitVec 17) (rem : Half) : countInv (readyPhase o) run rem = true := by
  cases o <;> rfl

/-- The data loops go on exactly while bytes are left (41_command_framer.md R154, R158). -/
theorem countInv_answered {s : State} (tx : Byte) (r : Rx) (d : Nat) (exchanges : exchangePhase s.phase = true) :
    countInv (afterAnswer tx r d s).phase (afterAnswer tx r d s).run (afterAnswer tx r d s).rem = true := by
  unfold afterAnswer answeredPhase
  cases phase : s.phase <;> rw [phase] at exchanges <;> try cases exchanges
  case wAl | wData | rAl | rData => dsimp only; split <;> simp_all [countInv]
  all_goals rfl

theorem Micro.counts {s t : State} (h : Micro s t) (counts : countInv s.phase s.run s.rem = true) :
    countInv t.phase t.run t.rem = true := by
  cases h with
  | rests _ eq => rw [eq]; exact counts
  | decodes _ eq =>
    obtain ⟨_, _, _, _, leads⟩ | ⟨_, -, leads⟩ := stepDecode_cases s
    · rw [eq, leads]; rfl
    · rw [eq, leads]; exact countInv_raised _ _ _ _
  | delays _ _ here eq => rw [eq]; exact countInv_delays here _ _
  | selects _ here eq => rw [eq]; exact countInv_selects here _ _
  | fails _ _ eq => rw [eq]; exact countInv_raised _ _ _ _
  | answers tx r d sends _ _ eq => rw [eq]; exact countInv_answered tx r d (byteSent_exchanges sends)
  | deselects _ here run => obtain ⟨_, _, _, rfl, -⟩ := doDeselect_shape run; exact countInv_deselects here counts
  | busy _ _ eq =>
    obtain leads | ⟨-, leads⟩ := countBusy_cases s
    · rw [eq, leads]; rfl
    · rw [eq, leads]; exact countInv_raised _ _ _ _
  | ready _ _ o _ eq => rw [eq]; exact countInv_ready o _ _
  | chunk _ eq => obtain leads | ⟨_, _, _, leads⟩ := stepWNext_cases s <;> rw [eq, leads] <;> rfl
  | responds _ eq => rw [eq]; rfl

/-! ### The write path's registers -/

theorem writing_iff {p : Phase} {o : Option HostOp} :
    writing p o = true ↔ (o = some .wrbyte ∨ o = some .write) ∧ p ≠ .idle ∧ p ≠ .decode ∧ p ≠ .xDesel ∧ p ≠ .resp := by
  cases p <;> simp [writing]

theorem writing_raised (e : Code) (s : State) (o : Option HostOp) : ¬ writing (raise e s).phase o = true := by
  rw [raise_phase]
  cases s.sel <;> simp [writing_iff]

theorem writing_delays {s : State} {n : Nat} {p : Phase} {o : Option HostOp} (h : delaysAt s = some (n, p))
    (writes : writing p o = true) : writing s.phase o = true := by
  unfold delaysAt at h
  split at h
  · next here => rw [here]; simp_all [writing_iff]
  · next here => rw [here]; simp_all [writing_iff]
  · cases h

theorem writing_selects {p q : Phase} {o : Option HostOp} (h : selectsAt p = some q) (writes : writing q o = true) :
    writing p o = true := by
  cases p <;> cases h <;> exact writes

theorem writing_deselects {p q : Phase} {o : Option HostOp} (h : deselectsAt p = some q) (writes : writing q o = true) :
    writing p o = true := by
  cases p <;> cases h <;> simp_all [writing_iff]

theorem writing_exchanges {p q : Phase} {o : Option HostOp} (exchanges : exchangePhase p = true) (writes : writing q o = true) :
    writing p o = true := by
  obtain ⟨op, -⟩ := writing_iff.1 writes
  refine writing_iff.2 ⟨op, ?_, ?_, ?_, ?_⟩ <;> rintro rfl <;> cases exchanges

/-- The first chunk: as much of the payload as fits the page, the rest in `REM` (42_addressing_engine.md R182 to R184). -/
theorem setupWrite_writeInv {s : State} {n : Half} (payload : s.wbuf.length = n.toNat)
    (goesOn : (setupWrite { s with len := n }).phase = .pDelay) : writeInv (setupWrite { s with len := n }) := by
  have small := n.isLt
  have raised (e : Code) (u : State) : (raise e u).phase ≠ .pDelay := by rw [raise_phase]; cases u.sel <;> simp
  obtain above | inside := lt_or_ge (lastAddr s.cfg) s.addr.toNat
  · rw [setupWrite_above above] at goesOn; exact absurd goesOn (raised _ _)
  obtain fits | long := le_or_gt n.toNat (maxRun s.cfg s.addr)
  · have run := toNat_ofNat_of_le (fits.trans (maxRun_le_pageSize s.cfg s.addr))
    rw [setupWrite_fits inside fits]
    refine ⟨?_, payload ▸ small, run.trans_le fits, inside⟩
    show 0 + (BitVec.ofNat 17 n.toNat).toNat + 0 = s.wbuf.length
    omega
  cases policy : s.cfg.spanPolicy with
  | reject => rw [setupWrite_reject inside long policy] at goesOn; exact absurd goesOn (raised _ _)
  | split =>
    have run := toNat_ofNat_of_le (maxRun_le_pageSize s.cfg s.addr)
    have rest := toNat_ofNat_of_le (v := n) (Nat.sub_le n.toNat (maxRun s.cfg s.addr))
    rw [setupWrite_split inside long policy]
    refine ⟨?_, payload ▸ small, run.le, inside⟩
    show 0 + (BitVec.ofNat 17 (maxRun s.cfg s.addr)).toNat + (BitVec.ofNat 16 (n.toNat - maxRun s.cfg s.addr)).toNat = s.wbuf.length
    omega

theorem stepDecode_writeInv {s : State} (payload : payloadInv s)
    (writes : hostOpOf s.op = some .wrbyte ∨ hostOpOf s.op = some .write) (goesOn : (stepDecode s).phase = .pDelay) :
    writeInv (stepDecode s) := by
  unfold payloadInv at payload
  obtain op | op := writes
  · rw [op] at payload
    rw [stepDecode_write op (.inl rfl)] at goesOn ⊢
    exact setupWrite_writeInv payload goesOn
  · rw [op] at payload
    rw [stepDecode_write op (.inr rfl)] at goesOn ⊢
    exact setupWrite_writeInv payload goesOn

/-- The next chunk begins at the base of its page, where all of the page is left (42_addressing_engine.md R187). -/
theorem stepWNext_writeInv {s : State} (sent : s.run = 0) (inv : writeInv s)
    (goesOn : (stepWNext s).phase = .pDelay) : writeInv (stepWNext s) := by
  obtain ⟨total, small, -, inside⟩ := inv
  by_cases done : s.rem = 0
  · rw [stepWNext_done done] at goesOn; cases goesOn
  rw [stepWNext_more done]
  have below : pageBase s.cfg s.cur.toNat ≤ s.cur.toNat := Nat.sub_le _ _
  have base := toNat_ofNat_of_le below
  have run := toNat_ofNat_of_le (v := s.cfg.pageSize) (Nat.min_le_right s.rem.toNat s.cfg.pageSize.toNat)
  have rest := toNat_ofNat_of_le (v := s.rem) (Nat.sub_le s.rem.toNat (min s.rem.toNat s.cfg.pageSize.toNat))
  have aligned : pageBase s.cfg s.cur.toNat % s.cfg.pageSize.toNat = 0 :=
    Nat.mod_eq_zero_of_dvd (Nat.dvd_sub_mod s.cur.toNat)
  have none : s.run.toNat = 0 := by rw [sent]; rfl
  refine ⟨?_, small, ?_, (base.le.trans below).trans inside⟩
  · simp only [startWait_idx, startWait_run, startWait_rem, startWait_wbuf, run, rest]
    omega
  · simp only [startWait_run, startWait_cfg, startWait_cur, maxRun, run, base, aligned]
    omega

/-- A payload byte sent moves from `RUN` to `IDX`. -/
theorem afterAnswer_writeInv {s : State} {tx : Byte} (r : Rx) (d : Nat) (sends : byteSent s = some tx)
    (data : countInv s.phase s.run s.rem = true) (notRead : s.phase ≠ .rData) (inv : writeInv s) : writeInv (afterAnswer tx r d s) := by
  obtain ⟨total, small, fits, inside⟩ := inv
  by_cases phase : s.phase = .wData
  · have left : s.run ≠ 0 := by simpa [phase, countInv] using data
    have payload : s.wbuf[s.idx.toNat]? = some tx := by simpa [byteSent, phase] using sends
    have lt := (List.getElem?_eq_some_iff.1 payload).1
    have run : (s.run - 1).toNat = s.run.toNat - 1 := by bv_omega
    have pos : s.run.toNat ≠ 0 := fun zero => left (BitVec.eq_of_toNat_eq zero)
    have idx : (s.idx + 1).toNat = s.idx.toNat + 1 := by bv_omega
    simp only [writeInv, afterAnswer, phase, if_true, reduceCtorEq, if_false, run, idx]
    exact ⟨by omega, small, by omega, inside⟩
  · simp only [writeInv, afterAnswer, phase, notRead, if_false]
    exact ⟨total, small, fits, inside⟩

/-- The write path's registers go on adding up to the payload. -/
theorem Micro.writes {s t : State} (h : Micro s t) (belongs : opInv s.phase (hostOpOf s.op) = true)
    (counts : countInv s.phase s.run s.rem = true) (payload : s.phase = .decode → payloadInv s)
    (inv : writing s.phase (hostOpOf s.op) = true → writeInv s) (writes : writing t.phase (hostOpOf s.op) = true) : writeInv t := by
  obtain ⟨op, -⟩ := writing_iff.1 writes
  cases h with
  | rests _ eq => rw [eq] at writes ⊢; exact inv writes
  | decodes here eq =>
    have goesOn : t.phase = .pDelay := by
      obtain ⟨_, _, _, _, leads⟩ | ⟨_, -, leads⟩ := stepDecode_cases s
      · rw [eq, leads, startWait_phase]
      · rw [eq, leads] at writes; exact absurd writes (writing_raised _ _ _)
    rw [eq] at goesOn ⊢
    exact stepDecode_writeInv (payload here) op goesOn
  | delays _ _ here eq => rw [eq] at writes ⊢; exact inv (writing_delays here writes)
  | selects _ here eq => rw [eq] at writes ⊢; exact inv (writing_selects here writes)
  | fails _ _ eq => rw [eq] at writes; exact absurd writes (writing_raised _ _ _)
  | answers tx r d sends data _ eq =>
    have notRead : s.phase ≠ .rData := fun phase => by
      rw [phase] at belongs
      obtain op | op := op <;> rw [op] at belongs <;> cases belongs
    rw [eq]
    exact afterAnswer_writeInv r d sends data notRead (inv (writing_exchanges (byteSent_exchanges sends) writes))
  | deselects _ here run =>
    obtain ⟨_, _, _, rfl, -⟩ := doDeselect_shape run
    exact inv (writing_deselects here writes)
  | busy here _ eq =>
    have before := inv (writing_iff.2 ⟨op, by simp [here]⟩)
    obtain leads | ⟨-, leads⟩ := countBusy_cases s <;> rw [eq, leads] <;> exact before
  | ready here _ _ _ eq => rw [eq]; exact inv (writing_iff.2 ⟨op, by simp [here]⟩)
  | chunk here eq =>
    have goesOn : t.phase = .pDelay := by
      obtain leads | ⟨_, _, _, leads⟩ := stepWNext_cases s
      · rw [eq, leads] at writes; simp [writing_iff] at writes
      · rw [eq, leads, startWait_phase]
    rw [eq] at goesOn ⊢
    exact stepWNext_writeInv (by simpa [here, countInv] using counts) (inv (writing_iff.2 ⟨op, by simp [here]⟩)) goesOn
  | responds _ eq => rw [eq] at writes; simp [writing_iff] at writes

end Sys2Proof.Machine
end

section
/-! The array and the trace under a micro-step, and the invariant whole (spec/10_state.md R33, spec/20_memory.md R50). -/

namespace Sys2Proof.Machine

/-! ### The array -/

/-- The page counter stays in the page, and the page in the array (20_memory.md R62). -/
theorem writeAddr_lt {c : Config} (legal : configLegal c = true) {a : Nat} (inside : a < c.addrSpaceSize.toNat) (j : Nat) :
    writeAddr c a j < c.addrSpaceSize.toNat := by
  obtain ⟨page, -, ⟨q, pages⟩, -⟩ := configLegal_sizes legal
  have offset : (a % c.pageSize.toNat + j) % c.pageSize.toNat < c.pageSize.toNat := Nat.mod_lt _ page
  have base : pageBase c a = c.pageSize.toNat * (a / c.pageSize.toNat) := by
    rw [pageBase]; exact Nat.sub_eq_of_eq_add (Nat.div_add_mod a _).symm
  have last : a / c.pageSize.toNat < q := Nat.div_lt_of_lt_mul (pages ▸ inside)
  have room : c.pageSize.toNat * (a / c.pageSize.toNat) + c.pageSize.toNat ≤ c.pageSize.toNat * q := by
    rw [← Nat.mul_succ]; exact Nat.mul_le_mul_left _ last
  rw [writeAddr, base]
  omega

theorem deviceAddr_lt {c : Config} (legal : configLegal c = true) (a : Half) : deviceAddr c a < c.addrSpaceSize.toNat := by
  obtain ⟨-, positive, -⟩ := configLegal_sizes legal
  exact Nat.mod_lt _ positive

/-- Storing a frame's data lists no byte outside the array. -/
theorem storePage_inside {c : Config} (legal : configLegal c = true) {a : Nat} (addr : a < c.addrSpaceSize.toNat) (bs : List Byte) :
    ∀ (j : Nat) (m : Memory), memoryInside c m → memoryInside c (storePage c a j bs m) := by
  induction bs with
  | nil => exact fun _ _ inside => inside
  | cons b bs ih =>
    intro j m inside
    refine ih (j + 1) _ fun x listed => ?_
    obtain written | before := Memory.mem_write listed
    · exact written ▸ writeAddr_lt legal addr j
    · exact inside x before

/-- A micro-step leaves the array alone or, at a deselect, stores the data of a frame. -/
theorem Micro.mem {s t : State} (h : Micro s t) :
    t.dev.mem = s.dev.mem ∨ ∃ a bs, t.dev.mem = storePage s.cfg (deviceAddr s.cfg a) 0 bs s.dev.mem := by
  cases h with
  | decodes _ eq => exact .inl (by rw [eq, (stepDecode_keeps s).2])
  | fails tx _ eq => rw [eq]; exact .inl (deviceFail_mem tx s.dev)
  | answers tx _ _ _ _ _ eq => rw [eq]; exact .inl (deviceTake_mem tx s.dev)
  | deselects _ _ run => obtain ⟨_, _, _, rfl, -, -, mem⟩ := doDeselect_shape run; exact mem
  | busy _ _ eq => obtain leads | ⟨-, leads⟩ := countBusy_cases s <;> exact .inl (by rw [eq, leads]; rfl)
  | chunk _ eq => obtain leads | ⟨_, _, _, leads⟩ := stepWNext_cases s <;> exact .inl (by rw [eq, leads]; rfl)
  | rests _ eq | delays _ _ _ eq | selects _ _ eq | ready _ _ _ _ eq | responds _ eq => rw [eq]; exact .inl rfl

theorem Micro.canonical {s t : State} (h : Micro s t) (wf : Memory.wf s.dev.mem = true) : Memory.wf t.dev.mem = true := by
  obtain same | ⟨a, bs, stored⟩ := h.mem
  · rw [same]; exact wf
  · rw [stored]; exact storePage_wf _ _ _ _ wf

theorem Micro.inside {s t : State} (h : Micro s t) (legal : configLegal s.cfg = true) (inside : memoryInside s.cfg s.dev.mem) :
    memoryInside s.cfg t.dev.mem := by
  obtain same | ⟨a, bs, stored⟩ := h.mem
  · rw [same]; exact inside
  · rw [stored]; exact storePage_inside legal (deviceAddr_lt legal a) bs 0 _ inside

/-! ### The trace -/

theorem monitor_append (trace : List Event) (e : Event) : monitor (trace ++ [e]) = (monitor trace).bind (·.next e) := by
  simp [monitor]

/-- The monitor's control part and what it knows agree with the state's. -/
def monitors (m : Monitor) (p : Phase) (sel wip : Bool) : Prop :=
  m.busy = decide (p ≠ .idle) ∧ m.selected = sel ∧ phaseAgrees p wip m = true

theorem traceInv_iff {s : State} : traceInv s ↔ ∃ m, monitor s.trace = some m ∧ monitors m s.phase s.sel s.sr.wip := Iff.rfl

/-- One event more, if the monitor allows it. -/
theorem traceInv_event {t : State} {trace : List Event} {e : Event} {m m' : Monitor} (before : monitor trace = some m)
    (allowed : m.next e = some m') (emitted : t.trace = trace ++ [e]) (agrees : monitors m' t.phase t.sel t.sr.wip) : traceInv t :=
  ⟨m', by rw [emitted, monitor_append, before]; exact allowed, agrees⟩

/-- After a raise nothing is asked of the monitor but the control part. -/
theorem monitors_raised {m : Monitor} {s : State} (e : Code) (busy : m.busy = true) (selected : m.selected = s.sel) :
    monitors m (raise e s).phase (raise e s).sel (raise e s).sr.wip := by
  refine ⟨?_, selected, ?_⟩ <;> rw [raise_phase] <;> cases s.sel <;> first | exact busy | rfl

theorem monitors_selects {m : Monitor} {p q : Phase} {wip : Bool} (h : selectsAt p = some q) (agrees : monitors m p false wip) :
    ∃ m', m.next (.sel c) = some m' ∧ monitors m' q true wip := by
  obtain ⟨busy, selected, knows⟩ := agrees
  refine ⟨{ m with selected := true, count := 0, opcode := 0 }, ?_, ?_⟩
  · cases p <;> cases h <;> simp_all [Monitor.next]
  · cases p <;> cases h <;> simp_all [monitors, phaseAgrees]

theorem monitors_delays {m : Monitor} {s : State} {n k : Nat} {p : Phase} (h : delaysAt s = some (n, p))
    (agrees : monitors m s.phase false wip) : m.next (.delay k) = some m ∧ monitors m p false wip := by
  obtain ⟨busy, selected, knows⟩ := agrees
  unfold delaysAt at h
  split at h
  · next here => cases h; simp_all [Monitor.next, monitors, phaseAgrees]
  · next here => cases h; split <;> simp_all [Monitor.next, monitors, phaseAgrees]
  · cases h

/-- A deselect closes the frame the monitor saw begin (R33 (c)): a status read keeps what it read, a write-enable frame is
remembered. -/
theorem monitor_desel {m : Monitor} (busy : m.busy = true) (selected : m.selected = true) (c : Nat) :
    ∃ m', m.next (.desel c) = some m' ∧ m'.busy = true ∧ m'.selected = false ∧
      (wireOpOf m.opcode = some .rdsr → m'.ready = m.ready) ∧
      (wireOpOf m.opcode = some .wren → m'.ready = m.ready ∧ m'.latched = m.ready) := by
  simp only [Monitor.next, busy, selected, Bool.and_self, if_true]
  split
  · next write => exact ⟨_, rfl, rfl, rfl, by simp [write], by simp [write]⟩
  · exact ⟨_, rfl, rfl, rfl, fun _ => rfl, fun _ => ⟨rfl, rfl⟩⟩
  · next notWren => exact ⟨_, rfl, rfl, rfl, fun _ => rfl, fun wren => absurd wren notWren⟩

theorem monitors_deselects {m : Monitor} {p q : Phase} {wip : Bool} (h : deselectsAt p = some q) (agrees : monitors m p true wip)
    (c : Nat) : ∃ m', m.next (.desel c) = some m' ∧ monitors m' q false wip := by
  obtain ⟨busy, selected, knows⟩ := agrees
  obtain ⟨m', allowed, busy', selected', status, enable⟩ := monitor_desel (m := m) (by cases p <;> cases h <;> exact busy) selected c
  refine ⟨m', allowed, ?_⟩
  cases p <;> cases h <;> simp_all [monitors, phaseAgrees]

/-- The monitor lets the sequencer exchange the byte of its phase: a frame begins with a status read, or with what the phases before
it have made ready (40_status_poller.md R134, 42_addressing_engine.md R185). -/
theorem monitor_exchange {m : Monitor} {s : State} {tx : Byte} (sends : byteSent s = some tx) (agrees : monitors m s.phase true wip)
    (r : Rx) : m.next (.xfer tx r) = some (m.exchanged tx r) := by
  obtain ⟨busy, selected, knows⟩ := agrees
  unfold byteSent at sends
  cases phase : s.phase <;> rw [phase] at sends busy knows <;> try cases sends
  all_goals simp_all [Monitor.next, mayBegin, phaseAgrees]

theorem showsReady_of_status {r : Rx} {st : Status} (read : rxStatus r = some st) : showsReady r = !st.wip := by
  cases r <;> cases read <;> rfl

/-- An answered exchange: the opcode sent is remembered, and the second byte of a status read says what `SR` then says. -/
theorem monitors_answered {m : Monitor} {s : State} {tx : Byte} {r : Rx} (d : Nat) (sends : byteSent s = some tx)
    (agrees : monitors m s.phase true s.sr.wip) (ok : r ≠ .err) :
    monitors (m.exchanged tx r) (answeredPhase s) true (afterAnswer tx r d s).sr.wip := by
  obtain ⟨busy, selected, knows⟩ := agrees
  unfold byteSent at sends
  unfold answeredPhase
  cases phase : s.phase <;> rw [phase] at sends busy knows <;> try cases sends
  case wAl | wData | rAl | rData => dsimp only; split <;> simp_all [monitors, Monitor.exchanged, phaseAgrees]
  case pDummy =>
    obtain ⟨st, read⟩ := exists_rxStatus ok
    have ready := showsReady_of_status read
    simp_all [monitors, Monitor.exchanged, phaseAgrees, afterAnswer]
  all_goals simp_all [monitors, Monitor.exchanged, phaseAgrees]

/-- Outside `IDLE` an operation is in progress, and the monitor knows it. -/
theorem monitors.busy {m : Monitor} {p : Phase} {sel wip : Bool} (agrees : monitors m p sel wip) (notIdle : p ≠ .idle) :
    m.busy = true :=
  agrees.1.trans (decide_eq_true notIdle)

/-- The trace stays one the rules allow, and the control state where it says. -/
theorem Micro.traced {s t : State} (h : Micro s t) (sel : s.sel = selectedPhase s.phase) (inv : traceInv s) : traceInv t := by
  obtain ⟨m, trace, agrees⟩ := traceInv_iff.1 inv
  obtain ⟨-, selected, knows⟩ := id agrees
  have quietly {u : State} (same : u.trace = s.trace) (control : monitors m u.phase u.sel u.sr.wip) : traceInv u :=
    ⟨m, by rw [same]; exact trace, control⟩
  cases h with
  | rests _ eq => rw [eq]; exact inv
  | decodes here eq =>
    rw [here] at agrees
    have busy := agrees.busy (by decide)
    obtain ⟨_, _, _, _, leads⟩ | ⟨_, -, leads⟩ := stepDecode_cases s
    · rw [eq, leads]; exact quietly rfl ⟨busy, selected, rfl⟩
    · rw [eq, leads]; exact quietly rfl (monitors_raised _ busy selected)
  | delays n p here eq =>
    have desel := sel.trans (delaysAt_selected here).1
    rw [desel] at agrees
    obtain ⟨allowed, goesOn⟩ := monitors_delays (k := n) here agrees
    rw [eq]
    exact traceInv_event trace allowed rfl (by rw [doDelay_sel, desel]; exact goesOn)
  | selects p here eq =>
    rw [sel.trans (selectsAt_selected here).1] at agrees
    obtain ⟨m', allowed, goesOn⟩ := monitors_selects (c := s.cfg.csId) here agrees
    rw [eq]
    exact traceInv_event trace allowed rfl goesOn
  | fails tx sends eq =>
    have exchanges := byteSent_exchanges sends
    have notIdle : s.phase ≠ .idle := fun idle => by rw [idle] at exchanges; cases exchanges
    have busy := agrees.busy notIdle
    rw [sel.trans (exchangePhase_selected exchanges)] at agrees
    rw [eq]
    exact traceInv_event trace (monitor_exchange sends agrees .err) rfl (monitors_raised (s := afterFailure tx s) _ busy selected)
  | answers tx r d sends _ ok eq =>
    have isSelected := sel.trans (exchangePhase_selected (byteSent_exchanges sends))
    rw [isSelected] at agrees
    rw [eq]
    refine traceInv_event trace (monitor_exchange sends agrees r) rfl ?_
    have goesOn := monitors_answered d sends agrees ok
    rwa [← isSelected] at goesOn
  | deselects p here run =>
    obtain ⟨_, _, _, rfl, -⟩ := doDeselect_shape run
    rw [sel.trans (deselectsAt_selected here).1] at agrees
    obtain ⟨m', allowed, goesOn⟩ := monitors_deselects here agrees s.cfg.csId
    exact traceInv_event trace allowed rfl goesOn
  | busy here _ eq =>
    rw [here] at agrees
    have busy := agrees.busy (by decide)
    obtain leads | ⟨-, leads⟩ := countBusy_cases s
    · rw [eq, leads]; exact quietly rfl ⟨busy, selected, rfl⟩
    · rw [eq, leads]; exact quietly rfl (monitors_raised _ busy selected)
  | ready here wip o _ eq =>
    rw [here] at agrees knows
    have busy := agrees.busy (by decide)
    have ready : m.ready = true := by simpa [phaseAgrees, wip] using knows
    rw [eq]
    refine quietly rfl ⟨?_, selected, ?_⟩ <;> cases o <;> first | exact busy | exact ready | rfl
  | chunk here eq =>
    rw [here] at agrees
    have busy := agrees.busy (by decide)
    obtain leads | ⟨_, _, _, leads⟩ := stepWNext_cases s <;> rw [eq, leads] <;> exact quietly rfl ⟨busy, selected, rfl⟩
  | responds here eq =>
    rw [here] at agrees sel
    have busy := agrees.busy (by decide)
    rw [eq]
    refine traceInv_event (m' := { m with busy := false }) trace ?_ rfl ⟨rfl, selected, rfl⟩
    simp [Monitor.next, busy, selected, sel, selectedPhase]

/-! ### The invariant whole -/

/-- No micro-step leads back to `DECODE`. -/
theorem Micro.notDecode {s t : State} (h : Micro s t) (decode : t.phase = .decode) : False := by
  have successor := h.successor
  rw [decode] at successor
  cases phase : s.phase <;> rw [phase] at successor <;> simp [successors] at successor

/-- The device's own turn keeps it. -/
theorem Inv.turn {s : State} (h : Inv s) : Inv (cycleTick s) := h

/-- A phase that answers keeps the invariant. -/
theorem Inv.phaseStep {s t : State} (inv : Inv s) (h : phaseStep s = .next t) : Inv t := by
  obtain ⟨admissible, ⟨sel, dsel, trace⟩, ⟨frame, belongs, counts, writes, payload⟩, wf, inside⟩ := inv
  obtain ⟨legal, bp⟩ := gate_none_iff.1 admissible
  obtain ⟨cfg', -, -, -, bp', op', -, -, -⟩ := phaseStep_fixed h
  have m := phaseStep_micro h
  refine ⟨gate_none_iff.2 ⟨cfg' ▸ legal, bp'.trans bp⟩, ⟨m.selected sel, m.deviceSelected dsel, m.traced sel trace⟩,
    ⟨m.frame sel dsel frame, ?_, m.counts counts, ?_, fun decode => (m.notDecode decode).elim⟩, m.canonical wf, ?_⟩
  · rw [op']; exact m.belongs belongs
  · rw [op']; exact m.writes belongs counts payload writes
  · rw [cfg']; exact m.inside legal inside

theorem commitWrite_next {s : State} (bp : s.dev.bp = 0) (rest : List Byte) : ∃ t, commitWrite rest s = .next t := by
  unfold commitWrite
  split
  · rw [if_pos bp]
    split <;> exact ⟨_, rfl⟩
  · split <;> exact ⟨_, rfl⟩
  · exact ⟨_, rfl⟩

/-- A deselect is refused for an opcode outside the sequencer's four or for a protected device alone (20_memory.md R65, R74). -/
theorem deviceDeselect_next {s : State} (bp : s.dev.bp = 0) (own : ∀ op rest, s.dev.fr = op :: rest → emittedOpcode op = true) :
    ∃ t, deviceDeselect s = .next t := by
  unfold deviceDeselect
  dsimp only
  split
  · exact ⟨_, rfl⟩
  split
  · exact ⟨_, rfl⟩
  next op rest fr =>
  have emitted := own op rest fr
  unfold emittedOpcode at emitted
  split
  · split <;> exact ⟨_, rfl⟩
  · exact commitWrite_next (s := { s with dev := { s.dev with dsel := false } }) bp rest
  · exact ⟨_, rfl⟩
  · exact ⟨_, rfl⟩
  · exact ⟨_, rfl⟩
  · next wrsr => rw [wrsr] at emitted; cases emitted
  · next unlisted => rw [unlisted] at emitted; cases emitted

theorem Inv.deselects {s : State} (inv : Inv s) (sel : selectedPhase s.phase = true) (p : Phase) : ∃ t, doDeselect p s = .next t := by
  obtain ⟨admissible, -, ⟨frame, -⟩, -⟩ := inv
  obtain ⟨u, deselects⟩ := deviceDeselect_next (gate_none_iff.1 admissible).2 fun op rest fr =>
    emittedOpcode_of_frame sel (fr ▸ frame)
  exact ⟨_, by rw [doDeselect, deselects]; rfl⟩

/-- An exchange phase has a byte to send: in `W_DATA` the payload has as many bytes left as `RUN` and `REM` say. -/
theorem Inv.sends {s : State} (inv : Inv s) (exchanges : exchangePhase s.phase = true) : ∃ tx, byteSent s = some tx := by
  obtain ⟨-, -, ⟨-, belongs, counts, writes, -⟩, -⟩ := inv
  cases phase : s.phase <;> rw [phase] at exchanges <;> try cases exchanges
  case wData =>
    rw [phase] at belongs counts
    have op : hostOpOf s.op = some .wrbyte ∨ hostOpOf s.op = some .write := by simpa [opInv] using belongs
    obtain ⟨total, -⟩ := writes (writing_iff.2 ⟨op, by simp [phase]⟩)
    have left : s.run ≠ 0 := by simpa [countInv] using counts
    have pos : s.run.toNat ≠ 0 := fun zero => left (BitVec.eq_of_toNat_eq zero)
    have lt : s.idx.toNat < s.wbuf.length := by omega
    exact ⟨s.wbuf[s.idx.toNat], by rw [byteSent, phase]; exact List.getElem?_eq_getElem lt⟩
  all_goals exact ⟨_, by rw [byteSent, phase]⟩

/-- From a state that meets the invariant every phase answers: the three faults and the refusals stand where it does not hold. -/
theorem Inv.phaseStep_next {s : State} (inv : Inv s) : ∃ t, Machine.phaseStep s = .next t := by
  obtain ⟨-, -, ⟨-, belongs, counts, -⟩, -⟩ := id inv
  cases phase : s.phase with
  | pOp | pDummy | eOp | wOp | wAh | wAl | wData | rOp | rAh | rAl | rData =>
    obtain ⟨tx, sends⟩ := inv.sends (by rw [phase]; rfl)
    obtain failed | ⟨_, _, -, answered⟩ := phaseStep_exchange sends counts
    · exact ⟨_, failed⟩
    · exact ⟨_, answered⟩
  | pDesel | eDesel | wDesel | rDesel | xDesel =>
    rw [Machine.phaseStep, phase]
    exact inv.deselects (by rw [phase]; rfl) _
  | pTest =>
    cases wip : s.sr.wip with
    | true => exact ⟨_, phaseStep_pTest_busy phase wip⟩
    | false =>
      rw [phase] at belongs
      obtain ⟨o, op⟩ := Option.isSome_iff_exists.1 (show (hostOpOf s.op).isSome = true from belongs)
      rw [phaseStep_pTest_ready phase wip, afterWait, op]
      cases o <;> exact ⟨_, rfl⟩
  | idle | decode | pDelay | pSel | eSel | eDelay | wSel | wNext | rSel | resp => rw [Machine.phaseStep, phase]; exact ⟨_, rfl⟩

theorem Inv.tick_next {s : State} (inv : Inv s) : ∃ t, tick s = .next t ∧ Inv t := by
  obtain ⟨t, answers⟩ := inv.turn.phaseStep_next
  exact ⟨t, answers, inv.turn.phaseStep answers⟩

/-- Settles O56: every phase answers (`Inv.phaseStep_next`), and each part of the invariant is kept by each kind of micro-step. -/
theorem microStepKeepsInvariant : Obligations.MicroStepKeepsInvariant := by
  unfold Obligations.MicroStepKeepsInvariant
  exact fun _ inv => inv.tick_next

/-! ### Steps -/

theorem Inv.stretch {n : Nat} {s t : State} (inv : Inv s) (busy : s.phase ≠ .idle) (h : runStretch n s = .next t) : Inv t :=
  runStretch_induct (P := Inv) (fun _ _ inv _ h => inv.turn.phaseStep h) inv busy h

theorem Inv.stretch_next {n : Nat} : ∀ {s : State}, Inv s → ∃ t, runStretch n s = .next t := by
  induction n with
  | zero => exact fun _ => ⟨_, rfl⟩
  | succ n ih =>
    intro s inv
    obtain ⟨u, ticks, inv⟩ := inv.tick_next
    rw [runStretch, ticks]
    dsimp only
    split
    · exact ⟨_, rfl⟩
    · exact ih inv

/-- Taking an input leaves the invariant as it is: it speaks of no input. -/
theorem Inv.takes {s : State} (inv : Inv s) (hostPort : List Byte) (bench : List (List Byte)) :
    Inv { s with hostPort := hostPort, bench := bench } := inv

/-- Acceptance in `IDLE` starts an operation, with a payload as long as its descriptor says (30_encoding.md R93). -/
theorem Inv.accepted {s : State} (inv : Inv s) (idle : s.phase = .idle) {op : Byte} {addr len : Half} {payload : List Byte}
    (fits : payloadInv (accept op addr len payload s)) : Inv (accept op addr len payload s) := by
  obtain ⟨admissible, ⟨sel, dsel, trace⟩, -, mem⟩ := inv
  have desel : s.sel = false := sel.trans (by rw [idle]; rfl)
  obtain ⟨m, trace, busy, selected, -⟩ := trace
  rw [idle] at busy
  refine ⟨admissible, ⟨desel, dsel, ?_⟩, ⟨rfl, rfl, rfl, fun writes => ?_, fun _ => fits⟩, mem⟩
  · exact traceInv_event trace (by simp [Monitor.next, busy, selected, desel]; rfl) rfl ⟨rfl, desel.symm, rfl⟩
  · simp [writing_iff] at writes

theorem Inv.operates {s t : State} (inv : Inv s) {op : Byte} {addr len : Half} {payload : List Byte}
    (fits : payloadInv (accept op addr len payload s)) (h : operate op addr len payload s = .next t) : Inv t := by
  unfold operate at h
  split at h
  · next idle => exact (inv.accepted idle fits).stretch (by simp) h
  · next busy => exact inv.stretch busy h

theorem Inv.operates_next {s : State} (inv : Inv s) {op : Byte} {addr len : Half} {payload : List Byte}
    (fits : payloadInv (accept op addr len payload s)) : ∃ t, operate op addr len payload s = .next t := by
  unfold operate
  split
  · next idle => exact (inv.accepted idle fits).stretch_next
  · exact inv.stretch_next

/-- A well-formed command has the payload its operation takes. -/
theorem payloadInv_command {i : Instr} {o : HostOp} {addr len : Half} {payload : List Byte}
    (command : hostCommand i = some (o, addr, len, payload)) (wf : i.wf = true) (s : State) :
    payloadInv (accept (hostOpcode o) addr len payload s) := by
  cases i <;> cases command <;> simp_all [payloadInv, Instr.wf]

theorem payloadInv_reserved {op : Byte} (reserved : hostOpOf op = none) (addr len : Half) (s : State) :
    payloadInv (accept op addr len [] s) := by
  simp [payloadInv, reserved]

/-- What is read as a reserved descriptor has an opcode that names no operation. -/
theorem hostOpOf_of_reserved {bs rest : List Byte} {op : Byte} {addr len : Half}
    (decoded : decodeHost bs = .bad (.reserved op addr len rest)) : hostOpOf op = none := by
  unfold decodeHost at decoded
  split at decoded
  · dsimp only at decoded
    split at decoded
    case h_7 => next none => cases decoded; exact none
    case h_3 | h_4 => split at decoded <;> cases decoded
    all_goals cases decoded
  · cases decoded

/-- A frame of the bench leaves the sequencer alone and the device deselected; the array keeps its form. -/
theorem Inv.benchFrame {s t : State} (inv : Inv s) {bytes : List Byte} (h : benchFrame bytes s = .next t) : Inv t := by
  have idle : s.phase = .idle := by
    unfold Machine.benchFrame at h
    split at h
    · assumption
    · cases h
  obtain ⟨admissible, ⟨sel, -, trace⟩, ⟨-, belongs, counts, writes, payload⟩, wf, inside⟩ := inv
  obtain ⟨legal, bp⟩ := gate_none_iff.1 admissible
  have desel : s.sel = false := sel.trans (by rw [idle]; rfl)
  obtain ⟨d, rx, sc, dr, cs, k, rfl, dsel, bp', -, mem⟩ := driveFrame_cases (benchFrame_next h)
  refine ⟨gate_none_iff.2 ⟨legal, bp'.trans bp⟩, ⟨sel, dsel.trans desel.symm, trace⟩, ⟨?_, belongs, counts, writes, payload⟩, ?_⟩
  · exact frameInv_unselected (show selectedPhase s.phase = false by rw [idle]; rfl) d.fr
  · obtain same | ⟨ah, al, x, xs, -, stored⟩ := mem
    · exact ⟨same ▸ wf, same ▸ inside⟩
    · exact ⟨stored ▸ storePage_wf _ _ _ _ wf, stored ▸ storePage_inside legal (deviceAddr_lt legal _) _ 0 _ inside⟩

theorem Inv.exec {s t : State} (inv : Inv s) {i : Instr} (wf : i.wf = true) (h : exec i s = .next t) : Inv t := by
  cases host : i.isHost with
  | true =>
    obtain ⟨o, addr, len, payload, command⟩ := exists_hostCommand host
    exact inv.operates (payloadInv_command command wf s) (exec_hostCommand command s ▸ h)
  | false => exact inv.benchFrame (exec_wireFrame host s ▸ h)

/-- Settles O57: what a step takes is an operation in progress, a command with the payload its descriptor says, a reserved
descriptor, or a frame of the bench, and each keeps the invariant. -/
theorem stepKeepsInvariant : Obligations.StepKeepsInvariant := by
  unfold Obligations.StepKeepsInvariant
  intro s t inv h
  obtain ⟨-, takes⟩ := step_takes h
  cases takes with
  | goesOn busy run => exact inv.stretch busy run
  | frame _ bytes rest _ i more decoded run => exact (inv.takes s.hostPort rest).exec (encode_decodeFrame decoded).1 run
  | oddFrame _ bytes rest _ _ _ run => exact (inv.takes s.hostPort rest).benchFrame run
  | command _ _ i rest decoded run => exact (inv.takes rest s.bench).exec (encode_decodeHost decoded).1 run
  | reserved _ _ op addr len rest decoded run =>
    exact (inv.takes rest s.bench).operates (payloadInv_reserved (hostOpOf_of_reserved decoded) addr len _) run
  | nothing _ _ _ _ turn => rw [turn]; exact inv.turn

/-- Settles O58: the operation in progress goes on micro-step by micro-step (`Inv.tick_next`); in `IDLE` the host's port holds a command,
a reserved descriptor, or nothing whole. -/
theorem sequencerNeverStops : Obligations.SequencerNeverStops := by
  unfold Obligations.SequencerNeverStops
  intro s inv noFrame
  have admissible := inv.1
  by_cases idle : s.phase = .idle
  · rw [step_idle admissible idle, takeNext, noFrame]
    dsimp only
    unfold takeHost
    split
    · next i rest decoded =>
      obtain ⟨wf, host, -⟩ := encode_decodeHost decoded
      obtain ⟨o, addr, len, payload, command⟩ := exists_hostCommand host
      rw [exec_hostCommand command]
      exact (inv.takes rest s.bench).operates_next (payloadInv_command command wf _)
    · next op addr len rest decoded =>
      exact (inv.takes rest s.bench).operates_next (payloadInv_reserved (hostOpOf_of_reserved decoded) addr len _)
    · exact ⟨_, rfl⟩
  · rw [(notAcceptedOutsideIdle s .wrenFrame idle).1 admissible]
    exact inv.stretch_next

end Sys2Proof.Machine
end

section
/-! The engine's arithmetic, the page counter and the array (spec/42_addressing_engine.md R180, R192, spec/20_memory.md R60, R62). -/

namespace Sys2Proof.Machine

section
variable {c : Config} (legal : configLegal c = true)
include legal

theorem mod_pageSize_lt (a : Nat) : a % c.pageSize.toNat < c.pageSize.toNat :=
  Nat.mod_lt _ (configLegal_sizes legal).1

/-- The bytes left in a page and the bytes before them are the page. -/
theorem maxRun_add_mod (a : Half) : maxRun c a + a.toNat % c.pageSize.toNat = c.pageSize.toNat :=
  Nat.sub_add_cancel (mod_pageSize_lt legal a.toNat).le

theorem maxRun_eq_pageSize_iff (a : Half) : maxRun c a = c.pageSize.toNat ↔ c.pageSize.toNat ∣ a.toNat := by
  have page := maxRun_add_mod legal a
  rw [Nat.dvd_iff_mod_eq_zero]
  omega

theorem maxRun_eq_one_iff (a : Half) : maxRun c a = 1 ↔ c.pageSize.toNat ∣ a.toNat + 1 := by
  have page := maxRun_add_mod legal a
  have inside := mod_pageSize_lt legal a.toNat
  have split : (a.toNat + 1) % c.pageSize.toNat = (a.toNat % c.pageSize.toNat + 1) % c.pageSize.toNat := by rw [Nat.mod_add_mod]
  rw [Nat.dvd_iff_mod_eq_zero, split]
  constructor
  · intro last
    rw [show a.toNat % c.pageSize.toNat + 1 = c.pageSize.toNat by omega, Nat.mod_self]
  · intro wraps
    by_contra notLast
    rw [Nat.mod_eq_of_lt (by omega)] at wraps
    omega

/-- The places of the first `max_run` bytes are consecutive: the page counter does not wrap before. -/
theorem writeAddr_of_lt_maxRun {a : Half} {j : Nat} (within : j < maxRun c a) : writeAddr c a.toNat j = a.toNat + j := by
  have page := maxRun_add_mod legal a
  have below := Nat.mod_le a.toNat c.pageSize.toNat
  rw [writeAddr, pageBase, Nat.mod_eq_of_lt (a := a.toNat % c.pageSize.toNat + j) (by omega)]
  omega

/-- The byte after them stands at the page's base. -/
theorem writeAddr_maxRun (a : Half) : writeAddr c a.toNat (maxRun c a) = pageBase c a.toNat := by
  rw [writeAddr, Nat.add_comm (_ % _), maxRun_add_mod legal, Nat.mod_self, Nat.add_zero]

/-- Every data byte of a frame stands in the page of the frame's address. -/
theorem writeAddr_div (a j : Nat) : writeAddr c a j / c.pageSize.toNat = a / c.pageSize.toNat := by
  have pos := (configLegal_sizes legal).1
  have base : pageBase c a = c.pageSize.toNat * (a / c.pageSize.toNat) := by
    rw [pageBase]; exact Nat.sub_eq_of_eq_add (Nat.div_add_mod a _).symm
  rw [writeAddr, base, Nat.mul_add_div pos, Nat.div_eq_of_lt (Nat.mod_lt _ pos), Nat.add_zero]

end

/-- Settles O47: the page has `maxRun` bytes left and `a % PAGE_SIZE` before them (`maxRun_add_mod`). -/
theorem maxRun_spec : Obligations.MaxRun := by
  unfold Obligations.MaxRun
  refine fun c a legal => ⟨maxRun_pos legal a, maxRun_le_pageSize c a, maxRun_eq_pageSize_iff legal a, maxRun_eq_one_iff legal a, rfl,
    rfl, fun k page => ?_⟩
  rw [page, BitVec.extractLsb'_toNat, Nat.shiftRight_zero]

/-- Settles O48: the page counter counts up to the page's end and then starts at its base. -/
theorem maxRunNeverWraps : Obligations.MaxRunNeverWraps := by
  unfold Obligations.MaxRunNeverWraps
  intro c a legal
  refine ⟨fun j within => writeAddr_of_lt_maxRun legal within, ?_, writeAddr_maxRun legal a⟩
  have page := maxRun_add_mod legal a
  have pos := maxRun_pos legal a
  have below := Nat.mod_le a.toNat c.pageSize.toNat
  rw [writeAddr_of_lt_maxRun legal (by omega), pageBase]
  omega

/-- A byte stands where it was stored unless a later byte goes to the same place. -/
theorem storePage_read_last (c : Config) (a : Nat) {data : List Byte} : ∀ {k j : Nat} {b : Byte} {m : Memory}, Memory.wf m = true →
    data[j]? = some b → (∀ i, j < i → i < data.length → writeAddr c a (k + i) ≠ writeAddr c a (k + j)) →
    Memory.read (storePage c a k data m) (writeAddr c a (k + j)) = b := by
  induction data with
  | nil => intro k j b m _ listed; cases listed
  | cons x data ih =>
    intro k j b m wf listed last
    cases j with
    | zero =>
      obtain rfl : x = b := Option.some.inj listed
      rw [storePage, storePage_read_other c a (k + 1) data (Memory.write_wf wf _ _), Memory.read_write wf]
      · exact if_pos rfl
      · intro i within same
        refine last (i + 1) (Nat.succ_pos i) (by simpa using within) ?_
        rw [← same.symm, Nat.add_right_comm, Nat.add_assoc]
    | succ j =>
      have shift (i : Nat) : k + (i + 1) = k + 1 + i := by omega
      rw [storePage, shift j]
      refine ih (Memory.write_wf wf _ _) listed fun i later within => ?_
      rw [← shift, ← shift]
      exact last (i + 1) (Nat.succ_lt_succ later) (by simpa using within)

/-- Settles O49: the last byte stored at a place stands there (`storePage_read_last`), and every place is in the frame's page
(`writeAddr_div`). -/
theorem pageWrap : Obligations.PageWrap := by
  unfold Obligations.PageWrap
  intro c a data m legal wf
  refine ⟨fun j b listed last => ?_, fun x otherPage => ?_⟩
  · have stands := storePage_read_last c a (k := 0) wf listed fun i later within same => by
      refine last i later within ?_
      simpa [writeAddr] using same
    rwa [Nat.zero_add] at stands
  · refine storePage_read_other c a 0 data wf x fun i _ same => otherPage ?_
    rw [same, writeAddr_div legal]

/-! The canonical form, from any state. -/

theorem resume_canonical {s t : State} (busy : s.phase ≠ .idle) (wf : Memory.wf s.dev.mem = true) (h : resume s = .next t) :
    Memory.wf t.dev.mem = true :=
  runStretch_induct (P := fun s => Memory.wf s.dev.mem = true) (fun _ _ wf _ h => (tick_micro h).canonical wf) wf busy h

theorem operate_canonical {op : Byte} {addr len : Half} {payload : List Byte} {s t : State} (wf : Memory.wf s.dev.mem = true)
    (h : operate op addr len payload s = .next t) : Memory.wf t.dev.mem = true := by
  unfold operate at h
  split at h
  · exact resume_canonical (by simp) (s := accept op addr len payload s) wf h
  · next busy => exact resume_canonical busy wf h

theorem benchFrame_canonical {bytes : List Byte} {s t : State} (wf : Memory.wf s.dev.mem = true) (h : benchFrame bytes s = .next t) :
    Memory.wf t.dev.mem = true := by
  obtain ⟨d, _, _, _, _, _, rfl, -, -, -, same | ⟨_, _, _, _, -, stored⟩⟩ := driveFrame_cases (benchFrame_next h)
  · exact same ▸ wf
  · exact stored ▸ storePage_wf _ _ _ _ wf

theorem exec_canonical {i : Instr} {s t : State} (wf : Memory.wf s.dev.mem = true) (h : exec i s = .next t) :
    Memory.wf t.dev.mem = true := by
  cases host : i.isHost with
  | true =>
    obtain ⟨o, addr, len, payload, command⟩ := exists_hostCommand host
    exact operate_canonical wf (exec_hostCommand command s ▸ h)
  | false => exact benchFrame_canonical wf (exec_wireFrame host s ▸ h)

/-- Settles O59: the array changes only as a frame's data are stored, in a micro-step (`Micro.mem`) or from the bench. -/
theorem arrayStaysCanonical : Obligations.ArrayStaysCanonical := by
  unfold Obligations.ArrayStaysCanonical
  refine fun s t wf => ⟨fun h => ?_, fun _ h => exec_canonical wf h⟩
  obtain ⟨-, takes⟩ := step_takes h
  cases takes with
  | goesOn busy run => exact resume_canonical busy wf run
  | frame _ bytes rest _ _ _ _ run => exact exec_canonical (s := { s with bench := rest }) wf run
  | oddFrame _ bytes rest _ _ _ run => exact benchFrame_canonical (s := { s with bench := rest }) wf run
  | command _ _ _ rest _ run => exact exec_canonical (s := { s with hostPort := rest }) wf run
  | reserved _ _ _ _ _ rest _ run => exact operate_canonical (s := { s with hostPort := rest }) wf run
  | nothing _ _ _ _ turn => rw [turn]; exact wf

end Sys2Proof.Machine
end

section
/-! The six wire frames driven at the device (spec/20_memory.md section 5). -/

namespace Sys2Proof.Machine

/-- The first byte of a wire frame is its opcode; the frame stores data only if that is WRITE's. -/
theorem encode_writes {i : Instr} {ah al x : Byte} {xs : List Byte} (wire : i.isHost = false)
    (begins : wireOpcode .write :: ah :: al :: x :: xs <+: encode i) :
    ∃ addr data, i = .writeFrame addr data ∧ joinBytes ah al = addr ∧ x :: xs <+: data := by
  cases i with
  | writeFrame addr data =>
    simp only [encode, List.cons_prefix_cons] at begins
    obtain ⟨-, rfl, rfl, sent⟩ := begins
    exact ⟨addr, data, rfl, joinBytes_hi_lo addr, sent⟩
  | rdsrFrame | wrenFrame | readFrame | wrdiFrame | wrsrFrame =>
    simp only [encode, List.cons_prefix_cons] at begins
    exact absurd begins.1 (by decide)
  | wait | wren | wrbyte | write | rdbyte | read => cases wire

/-- Settles O41: a frame from the bench changes the device, the bench's view and the inputs alone (`driveFrame_cases`), and the array
only as the data bytes of a WRITE frame, as many as were received, are stored. -/
theorem wireFrameFrame : Obligations.WireFrameFrame := by
  unfold Obligations.WireFrameFrame
  intro s t i wire h
  rw [exec_wireFrame wire] at h
  have surroundings := benchFrame_surroundings h
  obtain ⟨d, rx, sc, dr, cs, k, rfl, -, -, -, mem⟩ := driveFrame_cases (benchFrame_next h)
  refine ⟨⟨rfl, rfl, rfl, rfl, rfl, rfl, rfl, rfl, rfl, rfl, rfl, rfl, rfl, rfl, rfl⟩, surroundings, fun notWrite a => ?_,
    fun addr data write wf a outside => ?_⟩
  · obtain same | ⟨ah, al, x, xs, begins, -⟩ := mem
    · exact congrArg (Memory.read · a) same
    · obtain ⟨addr, data, write, -⟩ := encode_writes wire begins
      exact absurd write (notWrite addr data)
  · obtain same | ⟨ah, al, x, xs, begins, stored⟩ := mem
    · exact congrArg (Memory.read · a) same
    · obtain ⟨addr', data', write', rfl, sent⟩ := encode_writes wire begins
      obtain ⟨rfl, rfl⟩ := Instr.writeFrame.inj (write.symm.trans write')
      refine (congrArg (Memory.read · a) stored).trans (storePage_read_other _ _ 0 _ wf a fun j within => ?_)
      rw [Nat.zero_add]
      exact outside j (within.trans_le sent.length_le)

/-- A device idle, or busy for the next `n` turns at least: its turns change nothing but how long is left. -/
def steady (n : Nat) (d : Device) : Prop := d.wip = false ∨ busyFor n d

theorem steady.turn {n : Nat} {d : Device} (h : steady (n + 1) d) :
    ∃ c, deviceTurn d = { d with cycle := c } ∧ steady n { d with cycle := c } := by
  obtain idle | busy := h
  · exact ⟨d.cycle, deviceTurn_idle idle, .inl idle⟩
  · obtain ⟨c, turn, busy, -⟩ := deviceTurn_busy busy
    exact ⟨c, turn, .inr busy⟩

theorem steady.cycleTick {n : Nat} {s : State} (h : steady (n + 1) s.dev) :
    ∃ c, Machine.cycleTick s = { s with dev := { s.dev with cycle := c } } ∧ steady n { s.dev with cycle := c } := by
  obtain ⟨c, turn, rest⟩ := h.turn
  exact ⟨c, by rw [Machine.cycleTick, turn], rest⟩

/-- A bench frame in progress from `s`: what the device holds of it, when a running cycle ends, what the bench has received, and the
inputs left. -/
def inFrame (s : State) (fr : List Byte) (ign : Bool) (cycle : Option Nat) (rx : List Rx) (script : List Answer) (draws : Nat) : State :=
  { s with dev := { s.dev with dsel := true, fr := fr, ign := ign, cycle := cycle }, benchRx := rx, script := script, draws := draws }

section
variable {s : State} {n : Nat}

theorem inFrame_begin (h : steady (n + 1) s.dev) :
    ∃ c, steady n { s.dev with cycle := c } ∧ deviceSelect (cycleTick { s with benchRx := [] }) = inFrame s [] false c [] s.script s.draws := by
  obtain ⟨c, turn, rest⟩ := steady.cycleTick (s := { s with benchRx := [] }) h
  exact ⟨c, rest, by rw [turn]; rfl⟩

variable {fr : List Byte} {ign : Bool} {cycle : Option Nat} {rx : List Rx} {script : List Answer} {draws : Nat}

/-- The device's own turn in a frame. -/
theorem inFrame_turn (h : steady (n + 1) { s.dev with cycle := cycle }) :
    ∃ c, steady n { s.dev with cycle := c } ∧ cycleTick (inFrame s fr ign cycle rx script draws) = inFrame s fr ign c rx script draws := by
  obtain ⟨c, turn, rest⟩ := steady.cycleTick (s := inFrame s fr ign cycle rx script draws) h
  exact ⟨c, rest, turn⟩

/-- One byte of a frame, the device answering (20_memory.md R67): the first decides whether the frame is ignored. -/
theorem inFrame_byte (hq : ∀ a ∈ script, a = .device) (h : steady (n + 1) { s.dev with cycle := cycle }) (b : Byte) (bs : List Byte) :
    ∃ c, steady n { s.dev with cycle := c } ∧
      driveBytes (b :: bs) (inFrame s fr ign cycle rx script draws) =
        driveBytes bs (inFrame s (fr ++ [b]) (if fr = [] then s.dev.wip && decide (wireOpOf b ≠ some .rdsr) else ign) c
          (rx ++ [(deviceAnswer s.cfg { s.dev with dsel := true, fr := fr, ign := ign, cycle := c } draws).1]) script.tail
          (deviceAnswer s.cfg { s.dev with dsel := true, fr := fr, ign := ign, cycle := c } draws).2) := by
  obtain ⟨c, turn, rest⟩ := steady.turn (d := (inFrame s fr ign cycle rx script draws).dev) h
  exact ⟨c, rest, by rw [drive_step (s := inFrame s fr ign cycle rx script draws) hq, turn]; rfl⟩

end

theorem mem_tail_device {script : List Answer} (hq : ∀ a ∈ script, a = .device) : ∀ a ∈ script.tail, a = .device :=
  fun a listed => hq a (List.mem_of_mem_tail listed)

/-- The status read at a device that stays idle or busy (20_memory.md R68): the second byte is the status. -/
theorem driveFrame_status {s : State} (hq : quiet s) (h : steady 4 s.dev) (dummy : Byte) :
    ∃ c, driveFrame [wireOpcode .rdsr, dummy] s = .next { s with
      dev := { s.dev with dsel := false, fr := [wireOpcode .rdsr, dummy], ign := false, cycle := c }
      benchRx := [.byte (Config.draw8 s.draws), .status ⟨Config.draw4 (s.draws + 1), s.dev.bp, s.dev.wel, s.dev.wip⟩]
      script := s.script.tail.tail, draws := s.draws + 2 } := by
  obtain ⟨c1, h, begins⟩ := inFrame_begin h
  obtain ⟨c2, h, opcode⟩ := inFrame_byte hq h (fr := []) (ign := false) (rx := []) (draws := s.draws) (wireOpcode .rdsr) [dummy]
  obtain ⟨c3, h, status⟩ := inFrame_byte (mem_tail_device hq) h (fr := [wireOpcode .rdsr]) (ign := false)
    (rx := [.byte (Config.draw8 s.draws)]) (draws := s.draws + 1) dummy []
  obtain ⟨c4, -, ends⟩ := inFrame_turn h (fr := [wireOpcode .rdsr, dummy]) (ign := false)
    (rx := [.byte (Config.draw8 s.draws), .status ⟨Config.draw4 (s.draws + 1), s.dev.bp, s.dev.wel, s.dev.wip⟩])
    (script := s.script.tail.tail) (draws := s.draws + 2)
  refine ⟨c4, ?_⟩
  have listens : (if ([] : List Byte) = [] then s.dev.wip && decide (wireOpOf (wireOpcode .rdsr) ≠ some .rdsr) else false) = false := by
    simp
  rw [listens] at opcode
  calc driveFrame [wireOpcode .rdsr, dummy] s
      = deviceDeselect (cycleTick (driveBytes [wireOpcode .rdsr, dummy] (inFrame s [] false c1 [] s.script s.draws))) := by
        rw [driveFrame, begins]
    _ = deviceDeselect (inFrame s [wireOpcode .rdsr, dummy] false c4
          [.byte (Config.draw8 s.draws), .status ⟨Config.draw4 (s.draws + 1), s.dev.bp, s.dev.wel, s.dev.wip⟩]
          s.script.tail.tail (s.draws + 2)) := by
        rw [opcode]; exact congrArg deviceDeselect ((congrArg cycleTick status).trans ends)
    _ = _ := deviceDeselect_status rfl

/-- Settles O50: idle or busy, the device stays as it is for the four turns of the frame. -/
theorem rdsrFrame : Obligations.RdsrFrame := by
  unfold Obligations.RdsrFrame
  intro s dummy idle hq stays
  obtain ⟨c, answers⟩ := driveFrame_status hq stays dummy
  exact ⟨_, _, _, (if_pos idle).trans answers, rfl, rfl, rfl, rfl, rfl, rfl,
    ⟨rfl, rfl, rfl, rfl, rfl, rfl, rfl, rfl, rfl, rfl, rfl, rfl, rfl, rfl, rfl⟩, rfl, rfl, rfl, rfl, rfl⟩

/-- Settles O51: an idle device has the whole frame at its deselect (`driveFrame_idle`), and the opcode alone sets the latch. -/
theorem wrenFrame : Obligations.WrenFrame := by
  unfold Obligations.WrenFrame
  intro s idle hq notBusy
  obtain ⟨rx, sc, dr, drives, -⟩ := driveFrame_idle (bs := [wireOpcode .wren]) idle hq notBusy
  exact ⟨_, drives, rfl, notBusy, rfl, rfl, ⟨rfl, rfl, rfl, rfl, rfl, rfl, rfl, rfl, rfl, rfl, rfl, rfl, rfl, rfl, rfl⟩,
    rfl, rfl, rfl, rfl, rfl⟩

/-- Settles O54: at the deselect WRDI's opcode clears the latch, whatever follows, and WRSR's is refused. -/
theorem unusedFrames : Obligations.UnusedFrames := by
  unfold Obligations.UnusedFrames
  intro s rest idle hq notBusy
  obtain ⟨rx, sc, dr, drives, -⟩ := driveFrame_idle (bs := wireOpcode .wrdi :: rest) idle hq notBusy
  obtain ⟨rx', sc', dr', refuses, -⟩ := driveFrame_idle (bs := wireOpcode .wrsr :: rest) idle hq notBusy
  exact ⟨⟨_, drives, rfl, notBusy, rfl, rfl, ⟨rfl, rfl, rfl, rfl, rfl, rfl, rfl, rfl, rfl, rfl, rfl, rfl, rfl, rfl, rfl⟩,
    rfl, rfl, rfl, rfl, rfl⟩, refuses⟩

/-- With the latch clear a WRITE frame changes nothing (20_memory.md R70 (c), G3). -/
theorem deselect_unlatched {s : State} {rest : List Byte} (frame : s.dev.fr = wireOpcode .write :: rest) (listens : s.dev.ign = false)
    (latch : s.dev.wel = false) : deviceDeselect s = .next { s with dev := { s.dev with dsel := false } } := by
  simp only [deviceDeselect, listens, frame, wireOpOf_opcode, Bool.false_eq_true, if_false]
  unfold commitWrite
  split <;> simp [latch]

/-- Settles O52: an idle device has the whole frame at its deselect, and what it does there is by its latch and by whether there are
data. -/
theorem writeFrame : Obligations.WriteFrame := by
  unfold Obligations.WriteFrame
  intro s addr data idle hq notBusy bp
  obtain ⟨rx, sc, dr, drives, -⟩ :=
    driveFrame_idle (bs := wireOpcode .write :: hiByte addr :: loByte addr :: data) idle hq notBusy
  cases latch : s.dev.wel with
  | false =>
    exact ⟨_, drives.trans (deselect_unlatched rfl rfl latch), rfl,
      ⟨rfl, rfl, rfl, rfl, rfl, rfl, rfl, rfl, rfl, rfl, rfl, rfl, rfl, rfl, rfl⟩, ⟨rfl, rfl, rfl, rfl, rfl⟩,
      fun set => (by cases set), fun _ => ⟨notBusy, latch, rfl⟩, fun set => (by cases set)⟩
  | true =>
    cases data with
    | nil =>
      have commits := drives.trans (deselect_writeEmpty rfl rfl latch)
      obtain ⟨w, l, c, cs, k, answers, unchanged, disarming, cycling⟩ := commitEmpty_eq { s with
        dev := { s.dev with dsel := false, fr := [wireOpcode .write, hiByte addr, loByte addr], ign := false },
        benchRx := rx, script := sc, draws := dr }
      refine ⟨_, commits.trans (congrArg Host.Outcome.next answers), rfl,
        ⟨rfl, rfl, rfl, rfl, rfl, rfl, rfl, rfl, rfl, rfl, rfl, rfl, rfl, rfl, rfl⟩, ⟨rfl, rfl, rfl, rfl, rfl⟩,
        fun _ data => absurd rfl data, fun clear => (by cases clear), fun _ _ => ⟨rfl, fun m => ?_, fun m => ?_, fun m => ?_⟩⟩
      · exact ⟨(unchanged m).1.trans notBusy, (unchanged m).2.trans latch⟩
      · exact ⟨(disarming m).1.trans notBusy, (disarming m).2⟩
      · exact ⟨(cycling m).1, (cycling m).2.trans latch⟩
    | cons b bs =>
      have commits := drives.trans (deselect_write rfl rfl latch bp)
      rw [joinBytes_hi_lo] at commits
      obtain ⟨c, cs, k, starts⟩ := startCycle_eq { s with
        dev := { s.dev with
          dsel := false, fr := wireOpcode .write :: hiByte addr :: loByte addr :: b :: bs, ign := false
          mem := storePage s.cfg (deviceAddr s.cfg addr) 0 (b :: bs) s.dev.mem }
        benchRx := rx, script := sc, draws := dr }
      exact ⟨_, commits.trans (congrArg Host.Outcome.next starts), rfl,
        ⟨rfl, rfl, rfl, rfl, rfl, rfl, rfl, rfl, rfl, rfl, rfl, rfl, rfl, rfl, rfl⟩, ⟨rfl, rfl, rfl, rfl, rfl⟩,
        fun _ _ => ⟨rfl, latch, rfl⟩, fun clear => (by cases clear), fun _ none => (by cases none)⟩

/-- The opcode and address of a READ frame at an idle device: three bytes of any value are received. -/
theorem drive_readHead {s : State} (hq : quiet s) (notBusy : s.dev.wip = false) (cycle : Option Nat) (ah al : Byte) (dummies : List Byte) :
    ∃ a b c cycle' sc dr, (∀ x ∈ sc, x = Answer.device) ∧
      driveBytes (wireOpcode .read :: ah :: al :: dummies) (inFrame s [] false cycle [] s.script s.draws) =
        driveBytes dummies (inFrame s [wireOpcode .read, ah, al] false cycle' [.byte a, .byte b, .byte c] sc dr) := by
  have idle (cycle : Option Nat) : steady 1 { s.dev with cycle := cycle } := .inl notBusy
  have listens : (if ([] : List Byte) = [] then s.dev.wip && decide (wireOpOf (wireOpcode .read) ≠ some .rdsr) else false) = false := by
    simp [notBusy]
  obtain ⟨c1, -, opcode⟩ := inFrame_byte hq (idle cycle) (fr := []) (ign := false) (rx := []) (draws := s.draws) (wireOpcode .read)
    (ah :: al :: dummies)
  rw [listens] at opcode
  obtain ⟨c2, -, high⟩ := inFrame_byte (mem_tail_device hq) (idle c1) (fr := [wireOpcode .read]) (ign := false)
    (rx := [.byte (Config.draw8 s.draws)]) (draws := s.draws + 1) ah (al :: dummies)
  obtain ⟨c3, -, low⟩ := inFrame_byte (mem_tail_device (mem_tail_device hq)) (idle c2) (fr := [wireOpcode .read, ah]) (ign := false)
    (rx := [.byte (Config.draw8 s.draws), .byte (Config.draw8 (s.draws + 1))]) (draws := s.draws + 2) al dummies
  exact ⟨_, _, _, c3, _, _, mem_tail_device (mem_tail_device (mem_tail_device hq)), opcode.trans (high.trans low)⟩

/-- Settles O53: after the three bytes of the frame's head an idle device answers the array's bytes one by one (`drive_read`). -/
theorem readFrame : Obligations.ReadFrame := by
  unfold Obligations.ReadFrame
  intro s addr dummies idle hq notBusy
  obtain ⟨c1, -, begins⟩ := inFrame_begin (s := s) (n := 0) (.inl notBusy)
  obtain ⟨a, b, c, c2, sc, dr, hq', head⟩ := drive_readHead hq notBusy c1 (hiByte addr) (loByte addr) dummies
  obtain ⟨sc', data⟩ := drive_read (hiByte addr) (loByte addr) dummies
    (inFrame s [wireOpcode .read, hiByte addr, loByte addr] false c2 [.byte a, .byte b, .byte c] sc dr) [] hq' notBusy rfl rfl rfl
  have drives : benchFrame (wireOpcode .read :: hiByte addr :: loByte addr :: dummies) s = deviceDeselect (cycleTick (driveBytes
      (wireOpcode .read :: hiByte addr :: loByte addr :: dummies) (inFrame s [] false c1 [] s.script s.draws))) := by
    rw [benchFrame, if_pos idle, driveFrame, begins]
  rw [head, data, cycleTick_idle (by exact notBusy)] at drives
  exact ⟨_, a, b, c, drives, by simp [inFrame, readBack], rfl, notBusy, rfl, rfl,
    ⟨rfl, rfl, rfl, rfl, rfl, rfl, rfl, rfl, rfl, rfl, rfl, rfl, rfl, rfl, rfl⟩, rfl, rfl, rfl, rfl, rfl⟩

theorem steady.busy {n : Nat} {d : Device} (h : steady n d) (wip : d.wip = true) : busyFor n d := by
  obtain idle | busy := h
  · exact absurd (wip.symm.trans idle) (by decide)
  · exact busy

theorem deviceDeselect_ignored {s : State} (ignored : s.dev.ign = true) :
    deviceDeselect s = .next { s with dev := { s.dev with dsel := false } } :=
  if_pos ignored

theorem encode_notStatus {i : Instr} (wire : i.isHost = false) (notStatus : ∀ dummy, i ≠ .rdsrFrame dummy) :
    ∃ b bs, encode i = b :: bs ∧ wireOpOf b ≠ some .rdsr := by
  cases i with
  | rdsrFrame dummy => exact absurd rfl (notStatus dummy)
  | wrenFrame | writeFrame | readFrame | wrdiFrame | wrsrFrame => exact ⟨_, _, rfl, by decide⟩
  | wait | wren | wrbyte | write | rdbyte | read => cases wire

/-- A frame other than a status read at a device busy throughout is ignored from its first byte (20_memory.md R67, R73). -/
theorem benchFrame_ignored {s : State} {b : Byte} {bs : List Byte} (idle : s.phase = .idle) (hq : quiet s)
    (notStatus : wireOpOf b ≠ some .rdsr) (busy : busyFor (bs.length + 3) s.dev) :
    ∃ rx sc dr c, rx.length = bs.length + 1 ∧ (∀ x ∈ rx, ∃ v, x = .byte v) ∧
      benchFrame (b :: bs) s = .next { s with
        dev := { s.dev with dsel := false, fr := b :: bs, ign := true, cycle := c }, benchRx := rx, script := sc, draws := dr } := by
  obtain ⟨c1, h, begins⟩ := inFrame_begin (n := bs.length + 2) (.inr busy)
  obtain ⟨c2, h, opcode⟩ := inFrame_byte hq h (fr := []) (ign := false) (rx := []) (draws := s.draws) b bs
  have ignores : (if ([] : List Byte) = [] then s.dev.wip && decide (wireOpOf b ≠ some .rdsr) else false) = true := by
    simp [busy.1, notStatus]
  rw [ignores] at opcode
  obtain ⟨rx, sc, dr, c3, rest, length, bytes, last⟩ := drive_ignored bs
    (inFrame s [b] true c2 [.byte (Config.draw8 s.draws)] s.script.tail (s.draws + 1)) 1 (mem_tail_device hq) rfl (by simp [inFrame])
    (fun x xs frame => by cases frame; exact notStatus) rfl (h.busy busy.1)
  obtain ⟨c4, turn, -⟩ := steady.cycleTick (n := 0)
    (s := inFrame s ([b] ++ bs) true c3 ([.byte (Config.draw8 s.draws)] ++ rx) sc dr) (.inr last)
  refine ⟨.byte (Config.draw8 s.draws) :: rx, sc, dr, c4, by simp [length], ?_, ?_⟩
  · intro x received
    obtain rfl | received := List.mem_cons.1 received
    · exact ⟨_, rfl⟩
    · exact bytes x received
  · rw [benchFrame, if_pos idle, driveFrame, begins]
    refine (congrArg deviceDeselect ((congrArg cycleTick (opcode.trans rest)).trans turn)).trans ?_
    exact deviceDeselect_ignored rfl

/-- Settles O55: at a busy device the frame's first byte is not a status read's, so the device ignores the frame (`benchFrame_ignored`). -/
theorem busyDeviceIgnoresFrames : Obligations.BusyDeviceIgnoresFrames := by
  unfold Obligations.BusyDeviceIgnoresFrames
  intro s i idle hq wire notStatus busy
  obtain ⟨b, bs, bytes, opcode⟩ := encode_notStatus wire notStatus
  rw [bytes] at busy
  obtain ⟨rx, sc, dr, c, length, received, drives⟩ := benchFrame_ignored idle hq opcode busy
  rw [exec_wireFrame wire, bytes]
  exact ⟨_, drives, rfl, busy.1, rfl, rfl, length, received,
    ⟨rfl, rfl, rfl, rfl, rfl, rfl, rfl, rfl, rfl, rfl, rfl, rfl, rfl, rfl, rfl⟩, rfl, rfl, rfl, rfl, rfl⟩

end Sys2Proof.Machine
end

section
/-! The host commands at an idle device that answers: each is one stretch to its response (spec/40_status_poller.md, spec/41_command_framer.md,
spec/42_addressing_engine.md). -/

namespace Sys2Proof.Machine

/-- A command whose stretch runs to `RESP` responds, the device's turn before. -/
theorem operate_runs {s t : State} {op : Byte} {addr len : Half} {payload : List Byte} {k : Nat} (idle : s.phase = .idle)
    (runs : Runs k (accept op addr len payload s) t) (resp : t.phase = .resp) (fuel : k < stretchFuel (accept op addr len payload s)) :
    operate op addr len payload s = .next (respond (cycleTick t)) := by
  rw [operate, if_pos idle, resume]
  exact runs.respond resp fuel

/-- The fuel of a stretch is more than ten micro-steps a byte and a hundred besides (log 8). -/
theorem lt_stretchFuel {s : State} {k : Nat} (le : k ≤ 64 * s.len.toNat + 127) : k < stretchFuel s := by
  unfold stretchFuel
  omega

/-- The state after an idle device's `DECODE` and wait, for a set-up `u`. -/
theorem run_toReady {s u : State} {o : HostOp} (decode : s.phase = .decode) (notBusy : s.dev.wip = false) (hq : quiet s)
    (op : hostOpOf s.op = some o) (sets : stepDecode s = startWait u) (sameDev : u.dev = s.dev) (sameScript : u.script = s.script)
    (sameOp : u.op = s.op) : Runs 7 s (readyState o (startWait u)) := by
  have hq' : quiet (startWait u) := fun a listed => hq a (by rwa [startWait_script, sameScript] at listed)
  exact run_decode decode notBusy sets (by simp) (run_ready rfl (by simpa [sameOp] using op) (by simpa [sameDev] using notBusy) hq')

/-! What is sent, event by event. -/

theorem sent_snoc (trace : List Event) (e : Event) : sent (trace ++ [e]) = sent trace ++ [sentOf e] := by
  simp [sent]

theorem respond_sent (s : State) : sent (respond s).trace = sent s.trace ++ [.rsp s.err s.rbuf] :=
  sent_snoc _ _

theorem accept_sent (op : Byte) (addr len : Half) (payload : List Byte) (s : State) :
    sent (accept op addr len payload s).trace = sent s.trace ++ [.cmd op addr len payload] :=
  sent_snoc _ _

/-- A wait that found the device ready sent one status read (40_status_poller.md R131). -/
theorem readyState_sent (o : HostOp) (s : State) : sent (readyState o s).trace = sent s.trace ++ statusSent s.cfg := by
  simp only [readyState, sent_snoc]
  simp [sentOf, statusSent, frameSent, wireOpcode]

/-- A write-enable procedure (41_command_framer.md R151). -/
theorem enabled_sent (trace : List Event) (c : Config) (r : Rx) :
    sent (trace ++ [.sel c.csId] ++ [.xfer (wireOpcode .wren) r] ++ [.desel c.csId] ++ [.delay c.tWrenUs]) = sent trace ++ enableSent c := by
  simp only [sent_snoc]
  simp [sentOf, enableSent, frameSent, wireOpcode]

/-- Settles O24: after the wait WAIT is at `RESP`. -/
theorem waitCompletes : Obligations.WaitCompletes := by
  unfold Obligations.WaitCompletes
  intro s addr len ⟨idle, desel, notBusy, hq⟩
  have runs := run_toReady (s := accept (hostOpcode .wait) addr len [] s) (o := .wait) rfl notBusy hq rfl
    (stepDecode_wait (o := .wait) rfl (.inl rfl)) rfl rfl rfl
  have answers := operate_runs idle runs rfl (lt_stretchFuel (by omega))
  rw [cycleTick_idle (by exact notBusy)] at answers
  refine ⟨_, answers, ⟨rfl, rfl, rfl, rfl, rfl⟩, ⟨rfl, rfl, rfl, rfl⟩, ?_, rfl, rfl, rfl, rfl, rfl, rfl, notBusy, rfl,
    operate_surroundings answers, rfl, rfl, rfl, rfl⟩
  rw [respond_sent, readyState_sent, startWait_trace, accept_sent]
  rfl

/-- Settles O25: after the wait WREN sends the write-enable frame, which sets the latch (`run_enable`), and is at `RESP`. -/
theorem wrenCompletes : Obligations.WrenCompletes := by
  unfold Obligations.WrenCompletes
  intro s addr len ⟨idle, desel, notBusy, hq⟩
  have ready := run_toReady (s := accept (hostOpcode .wren) addr len [] s) (o := .wren) rfl notBusy hq rfl
    (stepDecode_wait (o := .wren) rfl (.inr rfl)) rfl rfl rfl
  have runs := ready.append (run_enable (by rfl) notBusy (readyState_quiet hq))
  have answers := operate_runs idle runs rfl (lt_stretchFuel (by omega))
  rw [cycleTick_idle (by exact notBusy)] at answers
  refine ⟨_, answers, ⟨rfl, rfl, rfl, rfl, rfl⟩, ⟨rfl, rfl, rfl, rfl⟩, ?_, rfl, rfl, rfl, rfl, rfl, rfl, notBusy, rfl,
    operate_surroundings answers, rfl, rfl, rfl, rfl⟩
  rw [respond_sent, enabled_sent, readyState_sent, startWait_trace, accept_sent]
  rfl

/-- RDBYTE and READ: after the wait one READ frame of `n` bytes, `n` the length `DECODE` leaves (41_command_framer.md R158 to R160). -/
theorem read_completes {s : State} {o : HostOp} {addr len n : Half} (start : goesThrough s) (inside : addr.toNat ≤ lastAddr s.cfg)
    (reads : o = .rdbyte ∨ o = .read) (length : n = if o = .rdbyte then 1 else len) :
    ∃ t, operate (hostOpcode o) addr len [] s = .next t ∧ responded .ok (readBack s.cfg s.dev.mem addr n.toNat) t ∧
      holdsCommand o addr n [] t ∧
      sent t.trace = sent s.trace ++ [.cmd (hostOpcode o) addr len []] ++ statusSent s.cfg ++ readSent s.cfg addr n.toNat ++
        [.rsp .ok (readBack s.cfg s.dev.mem addr n.toNat)] ∧
      t.pcnt = 0 ∧ t.sr.wip = false ∧ t.sr.wel = s.dev.wel ∧ t.sr.bp = s.dev.bp ∧ t.rem = 0 ∧
      t.dev.mem = s.dev.mem ∧ t.dev.wip = false ∧ t.dev.wel = s.dev.wel ∧ sameSurroundings s t ∧ sameWritePath s t := by
  obtain ⟨idle, desel, notBusy, hq⟩ := start
  have sets : stepDecode (accept (hostOpcode o) addr len [] s) =
      startWait { accept (hostOpcode o) addr len [] s with len := n, rem := n } := by
    subst length
    exact (stepDecode_read (s := accept (hostOpcode o) addr len [] s) (hostOpOf_opcode o) reads).trans (setupRead_inside inside)
  have ready := run_toReady (s := accept (hostOpcode o) addr len [] s) rfl notBusy hq (hostOpOf_opcode o) sets rfl rfl rfl
  obtain ⟨tr, d, sc, fr, -, trace, frame⟩ := run_read (s := readyState o (startWait { accept (hostOpcode o) addr len [] s with
    len := n, rem := n })) (by obtain rfl | rfl := reads <;> rfl) notBusy (readyState_quiet hq)
  have short : n.toNat ≤ len.toNat + 1 := by
    rw [length]
    split
    · exact Nat.le_add_left 1 _
    · exact Nat.le_succ _
  have answers := operate_runs idle (ready.append frame) rfl (lt_stretchFuel (by
    show 7 + (n.toNat + 5) ≤ 64 * len.toNat + 127
    omega))
  rw [cycleTick_idle (by exact notBusy)] at answers
  refine ⟨_, answers, ⟨rfl, rfl, rfl, rfl, rfl⟩, ⟨rfl, rfl, rfl, rfl⟩, ?_, rfl, rfl, rfl, rfl, rfl, rfl, notBusy, rfl,
    operate_surroundings answers, rfl, rfl, rfl, rfl⟩
  rw [respond_sent]
  exact congrArg (· ++ _) (trace.trans (by rw [readyState_sent, startWait_trace, accept_sent]; rfl))

/-- Settles O26: `read_completes` for READ. -/
theorem readCompletes : Obligations.ReadCompletes := by
  unfold Obligations.ReadCompletes
  exact fun s addr len start inside => read_completes start inside (.inr rfl) rfl

/-- A read begins at a valid address itself (20_memory.md R64, R69). -/
theorem readAddr_zero {c : Config} (legal : configLegal c = true) {a : Half} (inside : a.toNat ≤ lastAddr c) : readAddr c a 0 = a.toNat := by
  rw [readAddr, Nat.add_zero, deviceAddr_le legal inside, ← deviceAddr]
  exact deviceAddr_le legal inside

/-- Settles O27: `read_completes` for RDBYTE, whose one byte stands at the address itself. -/
theorem rdbyteCompletes : Obligations.RdbyteCompletes := by
  unfold Obligations.RdbyteCompletes
  intro s addr len start legal inside
  have one : readBack s.cfg s.dev.mem addr (1 : Half).toNat = [Memory.read s.dev.mem addr.toNat] := by
    show [Memory.read s.dev.mem (readAddr s.cfg addr 0)] = _
    rw [readAddr_zero legal inside]
  have completes := read_completes (len := len) start inside (.inl rfl) (if_pos rfl).symm
  rw [one] at completes
  exact completes

/-- After the last chunk `W_NEXT` goes to `RESP` (42_addressing_engine.md R187). -/
theorem run_wNextDone {s : State} (next : s.phase = .wNext) (done : s.rem = 0) : Runs 1 s (goto .resp (cycleTick s)) := by
  refine Runs.cons (u := goto .resp (cycleTick s)) ?_ (by rw [next]; rfl) rfl
  exact (phaseStep_wNext (s := cycleTick s) next).trans (congrArg _ (stepWNext_done (s := cycleTick s) done))

/-- The end of a cycle clears both bits (20_memory.md R71). -/
theorem deviceTurn_wel_wip {d : Device} (both : d.wel = d.wip) : (deviceTurn d).wel = (deviceTurn d).wip := by
  simp only [deviceTurn, both]

/-- The wait and the write-enable procedure of a write that fits its page, the device idle. -/
theorem run_toWriteFrame {s u : State} {o : HostOp} (decode : s.phase = .decode) (notBusy : s.dev.wip = false) (hq : quiet s)
    (op : hostOpOf s.op = some o) (writes : o = .wrbyte ∨ o = .write) (sets : stepDecode s = startWait u) (sameDev : u.dev = s.dev)
    (sameScript : u.script = s.script) (sameOp : u.op = s.op) :
    ∃ trace script draws sr fr, (∀ a ∈ script, a = Answer.device) ∧
      sent trace = sent u.trace ++ statusSent u.cfg ++ enableSent u.cfg ∧ sr.wip = false ∧
      Runs 11 s { startWait u with
        phase := .wSel, sel := false, sr := sr, trace := trace, script := script, draws := draws
        dev := { s.dev with dsel := false, fr := fr, ign := false, wel := true } } := by
  have ready := run_toReady decode notBusy hq op sets sameDev sameScript sameOp
  have hq' : quiet (startWait u) := fun a listed => hq a (by rwa [startWait_script, sameScript] at listed)
  have enable := run_enable (s := readyState o (startWait u)) (by obtain rfl | rfl := writes <;> rfl)
    (by show u.dev.wip = false; rw [sameDev]; exact notBusy) (readyState_quiet hq')
  have notWren : hostOpOf (readyState o (startWait u)).op ≠ some .wren := by
    show hostOpOf u.op ≠ some .wren
    rw [sameOp, op]
    obtain rfl | rfl := writes <;> decide
  rw [if_neg notWren] at enable
  rw [← sameDev]
  exact ⟨_, _, _, _, _, mem_tail_device (readyState_quiet (o := o) hq'),
    by rw [enabled_sent, readyState_sent, startWait_trace]; rfl, by rfl, ready.append enable⟩

/-- A write of a payload that fits its page, at least a byte: one WRITE frame, committed at its deselect, and the response while its
cycle may still run (42_addressing_engine.md R188, R189, 20_memory.md R70, G2). -/
theorem write_completes {s : State} {o : HostOp} {addr len n : Half} {data : List Byte} (start : goesThrough s)
    (admissible : gate s = none) (inside : addr.toNat ≤ lastAddr s.cfg) (writes : o = .wrbyte ∨ o = .write)
    (length : n = if o = .wrbyte then 1 else len) (payload : data.length = n.toNat) (some_ : data ≠ []) (fits : n.toNat ≤ maxRun s.cfg addr) :
    ∃ t, operate (hostOpcode o) addr len data s = .next t ∧ responded .ok [] t ∧ holdsCommand o addr n data t ∧
      sent t.trace = sent s.trace ++ [.cmd (hostOpcode o) addr len data] ++ statusSent s.cfg ++ enableSent s.cfg ++
        writeSent s.cfg addr data ++ [.rsp .ok []] ∧
      t.pcnt = 0 ∧ t.sr.wip = false ∧ t.cur = addr ∧ t.run = 0 ∧ t.rem = 0 ∧ t.idx = n ∧
      t.dev.mem = storePage s.cfg addr.toNat 0 data s.dev.mem ∧ t.dev.wel = t.dev.wip ∧ sameSurroundings s t ∧
      t.benchRx = s.benchRx := by
  obtain ⟨idle, desel, notBusy, hq⟩ := start
  obtain ⟨legal, bp⟩ := gate_none_iff.1 admissible
  have sets : stepDecode (accept (hostOpcode o) addr len data s) = startWait { accept (hostOpcode o) addr len data s with
      len := n, cur := addr, run := BitVec.ofNat 17 n.toNat, rem := 0, idx := 0 } := by
    subst length
    exact (stepDecode_write (s := accept (hostOpcode o) addr len data s) (hostOpOf_opcode o) writes).trans (setupWrite_fits inside fits)
  obtain ⟨tr, sc, dr, sr, fr, hq', trace, ready, toFrame⟩ := run_toWriteFrame (s := accept (hostOpcode o) addr len data s) rfl notBusy hq
    (hostOpOf_opcode o) writes sets rfl rfl rfl
  have run : (BitVec.ofNat 17 n.toNat).toNat = data.length := (toNat_ofNat_of_le (fits.trans (maxRun_le_pageSize _ _))).trans payload.symm
  obtain ⟨tr', dr', sc', c, cs, k, -, trace', frame⟩ := run_write (data := data) (s := { startWait { accept (hostOpcode o) addr len data s with
      len := n, cur := addr, run := BitVec.ofNat 17 n.toNat, rem := 0, idx := 0 } with
    phase := .wSel, sel := false, sr := sr, trace := tr, script := sc, draws := dr
    dev := { s.dev with dsel := false, fr := fr, ign := false, wel := true } }) rfl notBusy hq' some_ run (List.prefix_refl data)
    (by show 0 + data.length < 2 ^ 16; have := n.isLt; omega) rfl bp
  have runs := (toFrame.append frame).append (run_wNextDone rfl rfl)
  have short : n.toNat ≤ len.toNat + 1 := by
    rw [length]
    split
    · exact Nat.le_add_left 1 _
    · exact Nat.le_succ _
  have answers := operate_runs idle runs rfl (lt_stretchFuel (by
    show 11 + (data.length + 5) + 1 ≤ 64 * len.toNat + 127
    omega))
  refine ⟨_, answers, ⟨rfl, rfl, rfl, rfl, rfl⟩, ⟨rfl, rfl, rfl, rfl⟩, ?_, rfl, ready, rfl, rfl, rfl, ?_, ?_,
    deviceTurn_wel_wip (deviceTurn_wel_wip rfl), operate_surroundings answers, rfl⟩
  · rw [respond_sent]
    exact congrArg (· ++ _) (trace'.trans (by rw [trace, accept_sent]; rfl))
  · exact (BitVec.zero_add _).trans (by rw [payload, BitVec.ofNat_toNat, BitVec.setWidth_eq])
  · show storePage s.cfg (deviceAddr s.cfg addr) 0 data s.dev.mem = _
    rw [deviceAddr_le legal inside]

/-- Data that stay in their page stand at consecutive addresses, and nothing else changes. -/
theorem storePage_read_run {c : Config} (legal : configLegal c = true) {a : Half} {data : List Byte} {m : Memory}
    (wf : Memory.wf m = true) (fits : data.length ≤ maxRun c a) :
    (∀ j, j < data.length → some (Memory.read (storePage c a.toNat 0 data m) (a.toNat + j)) = data[j]?) ∧
      ∀ x, x < a.toNat ∨ a.toNat + data.length ≤ x → Memory.read (storePage c a.toNat 0 data m) x = Memory.read m x := by
  have place {j : Nat} (within : j < data.length) : writeAddr c a.toNat (0 + j) = a.toNat + j := by
    rw [Nat.zero_add]; exact writeAddr_of_lt_maxRun legal (within.trans_le fits)
  refine ⟨fun j within => ?_, fun x outside => ?_⟩
  · have listed : data[j]? = some data[j] := List.getElem?_eq_getElem within
    have stands := storePage_read_last c a.toNat (k := 0) wf listed fun i later inside => by
      rw [place inside, place within]; omega
    rw [place within] at stands
    rw [stands, listed]
  · refine storePage_read_other c a.toNat 0 data wf x fun i within => ?_
    rw [place within]; omega

/-- Settles O28: `write_completes` for WRITE, whose data stay in their page. -/
theorem writeCompletes : Obligations.WriteCompletes := by
  unfold Obligations.WriteCompletes
  intro s addr len data start admissible wf length some_ inside fits
  obtain ⟨t, answers, response, holds, trace, pcnt, ready, cur, run, rem, idx, mem, bits, surroundings, rx⟩ :=
    write_completes start admissible inside (.inr rfl) rfl length some_ fits
  obtain ⟨stands, others⟩ := storePage_read_run (gate_none_iff.1 admissible).1 (a := addr) wf (length.trans_le fits)
  refine ⟨t, answers, response, holds, trace, pcnt, ready, cur, run, rem, idx, ?_, ?_, bits, surroundings, rx⟩
  · rw [mem]; exact stands
  · rw [mem]; exact others

/-- Settles O29: `write_completes` for WRBYTE, whose byte stands at the address itself. -/
theorem wrbyteCompletes : Obligations.WrbyteCompletes := by
  unfold Obligations.WrbyteCompletes
  intro s addr len v start admissible wf inside
  have legal := (gate_none_iff.1 admissible).1
  have fits := maxRun_pos legal addr
  obtain ⟨t, answers, response, holds, trace, pcnt, ready, cur, run, rem, idx, mem, bits, surroundings, rx⟩ :=
    write_completes (len := len) (data := [v]) start admissible inside (.inl rfl) (if_pos rfl).symm rfl (by simp) fits
  refine ⟨t, answers, response, holds, trace, pcnt, ready, cur, run, rem, idx, fun a => ?_, bits, surroundings, rx⟩
  rw [mem, storePage, storePage, writeAddr_of_lt_maxRun legal fits, Nat.add_zero]
  exact Memory.read_write wf _ _ _

/-- Settles O30: a WRITE of no data goes through the same phases with a frame of three bytes (`run_writeEmpty`); what the device does at
its deselect is its parameter, and its two turns after that change nothing of an idle device and end a cycle with both bits. -/
theorem emptyWriteCompletes : Obligations.EmptyWriteCompletes := by
  unfold Obligations.EmptyWriteCompletes
  intro s addr ⟨idle, desel, notBusy, hq⟩ inside
  have sets : stepDecode (accept (hostOpcode .write) addr 0 [] s) = startWait { accept (hostOpcode .write) addr 0 [] s with
      len := 0, cur := addr, run := 0, rem := 0, idx := 0 } :=
    (stepDecode_write (s := accept (hostOpcode .write) addr 0 [] s) (o := .write) rfl (.inr rfl)).trans
      (setupWrite_fits inside (Nat.zero_le _))
  obtain ⟨tr, sc, dr, sr, fr, hq', trace, ready, toFrame⟩ := run_toWriteFrame (s := accept (hostOpcode .write) addr 0 [] s) rfl notBusy hq
    rfl (.inr rfl) sets rfl rfl rfl
  obtain ⟨tr', dr', sc', w, l, c, cs, k, -, trace', unchanged, disarming, cycling, frame⟩ := run_writeEmpty
    (s := { startWait { accept (hostOpcode .write) addr 0 [] s with len := 0, cur := addr, run := 0, rem := 0, idx := 0 } with
      phase := .wSel, sel := false, sr := sr, trace := tr, script := sc, draws := dr
      dev := { s.dev with dsel := false, fr := fr, ign := false, wel := true } }) rfl notBusy hq' rfl rfl
  have runs := (toFrame.append frame).append (run_wNextDone rfl rfl)
  have answers := operate_runs idle runs rfl (lt_stretchFuel (Nat.le_trans (by decide) (Nat.le_add_left _ _)))
  have stays {d : Device} (still : d.wip = false) : (deviceTurn (deviceTurn d)) = d := by
    rw [deviceTurn_idle still, deviceTurn_idle still]
  refine ⟨_, answers, ⟨rfl, rfl, rfl, rfl, rfl⟩, ⟨rfl, rfl, rfl, rfl⟩, ?_, rfl, rfl, rfl, rfl, rfl, fun m => ?_, fun m => ?_, fun m => ?_,
    operate_surroundings answers, rfl⟩
  · rw [respond_sent]
    exact congrArg (· ++ _) (trace'.trans (by rw [trace, accept_sent]; rfl))
  · obtain ⟨rfl, rfl⟩ := unchanged m
    exact ⟨congrArg Device.wip (stays rfl), congrArg Device.wel (stays rfl)⟩
  · obtain ⟨rfl, rfl⟩ := disarming m
    exact ⟨congrArg Device.wip (stays rfl), congrArg Device.wel (stays rfl)⟩
  · obtain ⟨rfl, rfl⟩ := cycling m
    exact deviceTurn_wel_wip (deviceTurn_wel_wip rfl)

end Sys2Proof.Machine
end

section
/-! A device found busy: the wait loop and its limit (spec/40_status_poller.md R131 to R133, spec/20_memory.md R72). -/

namespace Sys2Proof.Machine

/-- The state before the deselect of a status read that has found a write cycle running, `c` the rest of the cycle. -/
def busyAnswer (c : Option Nat) (s : State) : State :=
  { s with
    phase := .pDesel
    sel := true
    sr := ⟨Config.draw4 (s.draws + 1), s.dev.bp, s.dev.wel, true⟩
    dev := { s.dev with dsel := true, fr := [wireOpcode .rdsr, s.cfg.dummy], ign := false, cycle := c }
    trace := s.trace ++ [.delay s.cfg.tPollUs] ++ [.sel s.cfg.csId] ++ [.xfer (wireOpcode .rdsr) (.byte (Config.draw8 s.draws))]
      ++ [.xfer s.cfg.dummy (.status ⟨Config.draw4 (s.draws + 1), s.dev.bp, s.dev.wel, true⟩)]
    script := s.script.tail.tail
    draws := s.draws + 2 }

/-- The state before the test of that answer. -/
def busyTest (c : Option Nat) (s : State) : State :=
  { busyAnswer c s with
    phase := .pTest
    sel := false
    dev := { deviceTurn (busyAnswer c s).dev with dsel := false }
    trace := (busyAnswer c s).trace ++ [.desel s.cfg.csId] }

theorem busyTest_sent (c : Option Nat) (s : State) : sent (busyTest c s).trace = sent s.trace ++ statusSent s.cfg := by
  simp only [busyTest, busyAnswer, sent_snoc]
  simp [sentOf, statusSent, frameSent, wireOpcode]

/-- The turn of a device whose write cycle outlasts it takes from the cycle alone. -/
theorem tick_busy {s : State} {n : Nat} (h : busyFor (n + 1) s.dev) :
    ∃ c, tick s = phaseStep { s with dev := { s.dev with cycle := c } } ∧ busyFor n { s.dev with cycle := c } ∧ (stuck s.dev → c = none) := by
  obtain ⟨c, turn, busy, never⟩ := deviceTurn_busy h
  exact ⟨c, by rw [tick, cycleTick, turn], busy, never⟩

/-- The first four phases of a status read, the cycle outlasting them: the device's turns take from the cycle alone. -/
theorem run_busyAnswer {s : State} (delay : s.phase = .pDelay) (busy : busyFor 4 s.dev) (hq : quiet s) :
    ∃ c, (stuck s.dev → c = none) ∧ Runs 4 s (busyAnswer c s) := by
  have hq' : quiet { s with script := s.script.tail } := quiet_tail hq rfl
  have wip := busy.1
  obtain ⟨c1, turn1, busy, never1⟩ := tick_busy busy
  obtain ⟨c2, turn2, busy, never2⟩ := tick_busy (s := stepPDelay { s with dev := { s.dev with cycle := c1 } }) busy
  obtain ⟨c3, turn3, busy, never3⟩ := tick_busy (s := stepPSel (stepPDelay { s with dev := { s.dev with cycle := c2 } })) busy
  have opcode (d : Option Nat) : stepPOp (stepPSel (stepPDelay { s with dev := { s.dev with cycle := d } })) = { s with
      phase := .pDummy, sel := true, dev := { s.dev with dsel := true, fr := [wireOpcode .rdsr], ign := false, cycle := d }
      trace := s.trace ++ [.delay s.cfg.tPollUs] ++ [.sel s.cfg.csId] ++ [.xfer (wireOpcode .rdsr) (.byte (Config.draw8 s.draws))]
      script := s.script.tail, draws := s.draws + 1 } := by
    rw [stepPOp, sendByte_quiet (by exact hq)]
    simp [stepPSel, stepPDelay, doSelect, doDelay, goto, emit, deviceSelect, deviceTake, deviceAnswer, drawByte]
  have status (d : Option Nat) : stepPDummy { s with
      phase := .pDummy, sel := true, dev := { s.dev with dsel := true, fr := [wireOpcode .rdsr], ign := false, cycle := d }
      trace := s.trace ++ [.delay s.cfg.tPollUs] ++ [.sel s.cfg.csId] ++ [.xfer (wireOpcode .rdsr) (.byte (Config.draw8 s.draws))]
      script := s.script.tail, draws := s.draws + 1 } = busyAnswer d s := by
    rw [stepPDummy, exchange_quiet (by exact hq')]
    simp [deviceTake, deviceAnswer, drawStatus, rxStatus, goto, busyAnswer, wip]
  obtain ⟨c4, turn4, -, never4⟩ := tick_busy (s := stepPOp (stepPSel (stepPDelay { s with dev := { s.dev with cycle := c3 } })))
    (by rw [opcode]; exact busy)
  rw [opcode] at turn4 never4
  refine ⟨c4, fun never => never4 ⟨wip, never3 ⟨wip, never2 ⟨wip, never1 never⟩⟩⟩, ?_⟩
  refine Runs.cons (u := stepPDelay { s with dev := { s.dev with cycle := c1 } }) ?_ (by rw [delay]; rfl) <|
    Runs.cons (u := stepPSel (stepPDelay { s with dev := { s.dev with cycle := c2 } })) turn2 rfl <|
    Runs.cons (u := stepPOp (stepPSel (stepPDelay { s with dev := { s.dev with cycle := c3 } }))) turn3 (by rw [opcode]; rfl) <|
    Runs.cons (u := busyAnswer c4 s) ?_ (by rw [opcode]; rfl) rfl
  · rw [turn1, phaseStep, delay]
  · rw [opcode]
    exact turn4.trans (congrArg _ (status c4))

/-- A status read that finds the device busy is at its test. -/
theorem run_busyTest {s : State} (delay : s.phase = .pDelay) (busy : busyFor 4 s.dev) (hq : quiet s) :
    ∃ c, (stuck s.dev → c = none) ∧ Runs 5 s (busyTest c s) := by
  obtain ⟨c, never, runs⟩ := run_busyAnswer delay busy hq
  refine ⟨c, never, runs.append (n := 1) (Runs.cons (u := busyTest c s) ?_ rfl rfl)⟩
  show doDeselect .pTest (cycleTick (busyAnswer c s)) = _
  rw [doDeselect, deviceDeselect_status (s := cycleTick (busyAnswer c s)) (x := s.cfg.dummy) rfl]
  rfl

theorem tick_busyTest (c : Option Nat) (s : State) : tick (busyTest c s) = .next (countBusy (cycleTick (busyTest c s))) :=
  phaseStep_pTest_busy (s := cycleTick (busyTest c s)) rfl rfl

/-- Below the limit the stretch ends with the answer counted (40_status_poller.md R133). -/
theorem stretch_busyTest {c : Option Nat} {s : State} {n : Nat} (below : ∀ k, s.cfg.pollLimit = some k → s.pcnt + 1 < k) :
    runStretch (n + 1) (busyTest c s) = .next { cycleTick (busyTest c s) with pcnt := s.pcnt + 1, phase := .pDelay } := by
  rw [runStretch, tick_busyTest, countBusy_belowLimit (s := cycleTick (busyTest c s)) below]
  rfl

/-- A command that `DECODE` lets through starts the wait (42_addressing_engine.md R182 to R184, R186). -/
theorem stepDecode_passes {i : Instr} {o : HostOp} {addr len : Half} {payload : List Byte} {s : State}
    (command : hostCommand i = some (o, addr, len, payload)) (legal : configLegal s.cfg = true) (pass : passes s.cfg i = true)
    (op : s.op = hostOpcode o) (addr' : s.addr = addr) (len' : s.len = len) :
    ∃ n cur run rem idx, stepDecode s = startWait { s with len := n, cur := cur, run := run, rem := rem, idx := idx } := by
  have decoded : hostOpOf s.op = some o := by rw [op, hostOpOf_opcode]
  subst addr' len'
  cases i <;> cases command <;> simp only [passes, Bool.and_eq_true, Bool.or_eq_true, decide_eq_true_eq] at pass
  case wait => exact ⟨_, _, _, _, _, stepDecode_wait decoded (.inl rfl)⟩
  case wren => exact ⟨_, _, _, _, _, stepDecode_wait decoded (.inr rfl)⟩
  case wrbyte => exact ⟨_, _, _, _, _, (stepDecode_write decoded (.inl rfl)).trans (setupWrite_fits pass (maxRun_pos legal _))⟩
  case rdbyte => exact ⟨_, _, _, _, _, (stepDecode_read decoded (.inl rfl)).trans (setupRead_inside pass)⟩
  case read => exact ⟨_, _, _, _, _, (stepDecode_read decoded (.inr rfl)).trans (setupRead_inside pass)⟩
  case write =>
    obtain ⟨inside, length⟩ := pass
    obtain fits | long := le_or_gt s.len.toNat (maxRun s.cfg s.addr)
    · exact ⟨_, _, _, _, _, (stepDecode_write decoded (.inr rfl)).trans (setupWrite_fits inside fits)⟩
    · exact ⟨_, _, _, _, _, (stepDecode_write decoded (.inr rfl)).trans
        (setupWrite_split inside long (length.resolve_left (Nat.not_le.2 long)))⟩

/-- After command `cmd` from `s`, `t` waits and has found the device busy `k` times. -/
structure Waits (s : State) (cmd : Sent) (k : Nat) (t : State) : Prop where
  phase : t.phase = .pDelay
  sel : t.sel = false
  pcnt : t.pcnt = k
  err : t.err = .ok
  rbuf : t.rbuf = []
  quiet : quiet t
  cfg : t.cfg = s.cfg
  mem : t.dev.mem = s.dev.mem
  sent : sent t.trace = sent s.trace ++ [cmd] ++ (List.replicate k (statusSent s.cfg)).flatten

/-- Acceptance and `DECODE` lead to the wait. -/
theorem exec_waits {s : State} {i : Instr} {o : HostOp} {addr len : Half} {payload : List Byte} {n : Nat}
    (command : hostCommand i = some (o, addr, len, payload)) (legal : configLegal s.cfg = true) (pass : passes s.cfg i = true)
    (idle : s.phase = .idle) (desel : s.sel = false) (hq : quiet s) (busy : busyFor (n + 1) s.dev) :
    ∃ t f, exec i s = runStretch f t ∧ 7 ≤ f ∧ Waits s (.cmd (hostOpcode o) addr len payload) 0 t ∧ busyFor n t.dev ∧
      (stuck s.dev → stuck t.dev) := by
  obtain ⟨c, turn, rest, never⟩ := tick_busy (s := accept (hostOpcode o) addr len payload s) busy
  obtain ⟨l, cur, run, rem, idx, sets⟩ := stepDecode_passes (o := o) (addr := addr) (len := len)
    (s := { accept (hostOpcode o) addr len payload s with dev := { s.dev with cycle := c } }) command legal pass rfl rfl rfl
  have runs : Runs 1 (accept (hostOpcode o) addr len payload s) _ :=
    Runs.cons (turn.trans (congrArg Host.Outcome.next sets)) (by rfl) rfl
  refine ⟨startWait { accept (hostOpcode o) addr len payload s with
      dev := { s.dev with cycle := c }, len := l, cur := cur, run := run, rem := rem, idx := idx },
    stretchFuel (accept (hostOpcode o) addr len payload s) - 1, ?_, ?_, ⟨rfl, desel, rfl, rfl, rfl, hq, rfl, rfl, ?_⟩, rest,
    fun stays => ⟨stays.1, never stays⟩⟩
  · rw [exec_hostCommand command, operate, if_pos idle, resume]
    exact runs.stretch (one_lt_stretchFuel _).le
  · unfold stretchFuel
    omega
  · exact (accept_sent _ _ _ _ _).trans (List.append_nil _).symm

theorem stuck.busyFor {d : Device} (h : stuck d) (n : Nat) : busyFor n d :=
  ⟨h.1, by rw [h.2]; trivial⟩

theorem stuck.turn {d : Device} (h : stuck d) : deviceTurn d = d := by
  obtain ⟨mem, wip, wel, bp, dsel, fr, ign, cycle, model⟩ := d
  obtain ⟨rfl, rfl⟩ := h
  simp [deviceTurn, cycleEnds, cycleLeft]

section
variable {s t : State} {cmd : Sent} {k f : Nat}

/-- One status read more was sent. -/
theorem Waits.read (h : Waits s cmd k t) (c : Option Nat) :
    Machine.sent (busyTest c t).trace = Machine.sent s.trace ++ [cmd] ++ (List.replicate (k + 1) (statusSent s.cfg)).flatten := by
  rw [busyTest_sent, h.sent, h.cfg, List.replicate_succ', List.flatten_append]
  simp

/-- A status read that finds the device busy, below the limit. -/
theorem Waits.again (h : Waits s cmd k t) (busy : busyFor 4 t.dev) (below : ∀ n, s.cfg.pollLimit = some n → k + 1 < n) (fuel : 7 ≤ f) :
    ∃ u, runStretch f t = .next u ∧ Waits s cmd (k + 1) u ∧ u.sr.wip = true ∧ (stuck t.dev → stuck u.dev) := by
  obtain ⟨c, never, runs⟩ := run_busyTest h.phase busy h.quiet
  obtain ⟨m, rfl⟩ : ∃ m, f = 5 + (m + 1) := ⟨f - 6, by omega⟩
  refine ⟨_, ((runs.stretch (Nat.le_add_right 5 _)).trans (congrArg (runStretch · _) (Nat.add_sub_cancel_left 5 _))).trans
    (stretch_busyTest (by rw [h.cfg, h.pcnt]; exact below)), ⟨rfl, rfl, by rw [h.pcnt], h.err, h.rbuf, ?_, h.cfg, h.mem, h.read c⟩, rfl, fun stays => ?_⟩
  · exact quiet_tail (quiet_tail h.quiet (t := { t with script := t.script.tail }) rfl) rfl
  · obtain rfl := never stays
    have held : stuck (busyAnswer none t).dev := ⟨stays.1, rfl⟩
    show stuck (deviceTurn { deviceTurn (busyAnswer none t).dev with dsel := false })
    rw [held.turn, stuck.turn (d := { (busyAnswer none t).dev with dsel := false }) held]
    exact held

/-- The status read that reaches the limit at a stuck device (40_status_poller.md R133). -/
theorem Waits.last (h : Waits s cmd k t) (stays : stuck t.dev) {n : Nat} (limit : s.cfg.pollLimit = some n) (reached : n ≤ k + 1)
    (fuel : 7 ≤ f) :
    ∃ u, runStretch f t = .next u ∧ responded .deviceUnresponsive [] u ∧
      Machine.sent u.trace = Machine.sent s.trace ++ [cmd] ++ (List.replicate (k + 1) (statusSent s.cfg)).flatten ++
        [.rsp .deviceUnresponsive []] ∧ u.pcnt = k + 1 ∧ u.dev.mem = s.dev.mem ∧ u.dev.wip = true := by
  obtain ⟨c, never, runs⟩ := run_busyTest h.phase (stays.busyFor 4) h.quiet
  obtain rfl := never stays
  have raises : tick (busyTest none t) = .next (raise .deviceUnresponsive { cycleTick (busyTest none t) with pcnt := t.pcnt + 1 }) :=
    (tick_busyTest none t).trans (congrArg _ (countBusy_atLimit (s := cycleTick (busyTest none t)) (h.cfg ▸ limit) (h.pcnt ▸ reached)))
  have held : stuck (busyAnswer none t).dev := ⟨stays.1, rfl⟩
  refine ⟨_, (runs.append (n := 1) (Runs.cons raises (by rfl) rfl)).respond rfl (by omega), ⟨rfl, rfl, rfl, rfl, rfl⟩, ?_,
    by exact congrArg (· + 1) h.pcnt, h.mem, ?_⟩
  · rw [respond_sent]
    exact congrArg (· ++ _) (h.read none)
  · show (deviceTurn (deviceTurn { deviceTurn (busyAnswer none t).dev with dsel := false })).wip = true
    rw [held.turn, stuck.turn (d := { (busyAnswer none t).dev with dsel := false }) held,
      stuck.turn (d := { (busyAnswer none t).dev with dsel := false }) held]
    exact stays.1

end

/-- Settles O31: the cycle outlasts `DECODE` and the four phases up to the answer, which is then counted (`Waits.again`). -/
theorem busyDeviceIsWaitedFor : Obligations.BusyDeviceIsWaitedFor := by
  unfold Obligations.BusyDeviceIsWaitedFor
  intro s i o addr len payload admissible idle desel hq busy command pass limit
  obtain ⟨t, f, runs, fuel, waits, rest, -⟩ := exec_waits command (gate_none_iff.1 admissible).1 pass idle desel hq busy
  obtain ⟨u, answers, read, wip, -⟩ := waits.again rest limit fuel
  have once := read.sent
  rw [List.replicate_one, List.flatten_singleton] at once
  exact ⟨u, runs.trans answers, read.phase, read.sel, read.pcnt, wip, read.err, read.rbuf, once, read.mem,
    exec_surroundings (runs.trans answers)⟩

theorem seven_le_stretchFuel (s : State) : 7 ≤ stretchFuel s := by
  unfold stretchFuel
  omega

/-- At a stuck device a wait answers busy until the limit, and then gives up. -/
theorem Waits.toLimit {s : State} {cmd : Sent} (m : Nat) : ∀ {t : State} {k f : Nat}, Waits s cmd k t → stuck t.dev →
    s.cfg.pollLimit = some (k + 1 + m) → 7 ≤ f →
    ∃ u, andThen (runStretch f t) (goesOn m) = .next u ∧ responded .deviceUnresponsive [] u ∧
      Machine.sent u.trace = Machine.sent s.trace ++ [cmd] ++ (List.replicate (k + 1 + m) (statusSent s.cfg)).flatten ++
        [.rsp .deviceUnresponsive []] ∧ u.pcnt = k + 1 + m ∧ u.dev.mem = s.dev.mem ∧ u.dev.wip = true := by
  induction m with
  | zero =>
    intro t k f waits stays limit fuel
    obtain ⟨u, answers, ends⟩ := waits.last stays limit le_rfl fuel
    exact ⟨u, by rw [answers]; rfl, ends⟩
  | succ m ih =>
    intro t k f waits stays limit fuel
    obtain ⟨u, answers, read, -, stays'⟩ := waits.again (stays.busyFor 4) (fun n is => by
      obtain rfl := Option.some.inj (is.symm.trans limit); omega) fuel
    rw [show k + 1 + (m + 1) = k + 1 + 1 + m by omega] at limit ⊢
    obtain ⟨v, rest, ends⟩ := ih read (stays' stays) limit (seven_le_stretchFuel u)
    refine ⟨v, ?_, ends⟩
    rw [answers]
    exact (if_neg (by rw [read.phase]; decide)).trans rest

/-- Without a limit it answers busy for ever. -/
theorem Waits.forever {s : State} {cmd : Sent} (limit : s.cfg.pollLimit = none) (m : Nat) : ∀ {t : State} {k f : Nat}, Waits s cmd k t →
    stuck t.dev → 7 ≤ f → ∃ u, andThen (runStretch f t) (goesOn m) = .next u ∧ Waits s cmd (k + 1 + m) u := by
  have below {k : Nat} : ∀ n, s.cfg.pollLimit = some n → k + 1 < n := fun n is => by rw [limit] at is; cases is
  induction m with
  | zero =>
    intro t k f waits stays fuel
    obtain ⟨u, answers, read, -⟩ := waits.again (stays.busyFor 4) below fuel
    exact ⟨u, by rw [answers]; rfl, read⟩
  | succ m ih =>
    intro t k f waits stays fuel
    obtain ⟨u, answers, read, -, stays'⟩ := waits.again (stays.busyFor 4) below fuel
    obtain ⟨v, rest, ends⟩ := ih read (stays' stays) (seven_le_stretchFuel u)
    refine ⟨v, ?_, by rw [show k + 1 + (m + 1) = k + 1 + 1 + m by omega]; exact ends⟩
    rw [answers]
    exact (if_neg (by rw [read.phase]; decide)).trans rest

/-- The rest of an operation changes nothing that surrounds it. -/
theorem goesOn_surroundings {n : Nat} {s t : State} (h : goesOn n s = .next t) : sameSurroundings s t :=
  (goesOn_induct (P := sameFixed s) (fun _ _ hu _ hv => hu.trans (tick_fixed hv)) (sameFixed.refl s) h).surroundings

theorem andThen_next {r : Res} {f : State → Res} {t : State} (h : andThen r f = .next t) : ∃ u, r = .next u ∧ f u = .next t := by
  cases r with
  | next u => exact ⟨u, rfl, h⟩
  | fault | refused => cases h

/-- Settles O32: `DECODE` starts the wait, which gives up after as many answers as the limit says (`Waits.toLimit`); a legal limit is at
least 1. -/
theorem stuckDeviceIsReported : Obligations.StuckDeviceIsReported := by
  unfold Obligations.StuckDeviceIsReported
  intro s i o addr len payload n admissible idle desel hq stays limit command pass
  have legal := (gate_none_iff.1 admissible).1
  obtain ⟨-, -, -, -, -, polls⟩ := (configLegal_iff _).1 legal
  have positive := polls n limit
  obtain ⟨t, f, runs, fuel, waits, -, stays'⟩ := exec_waits command legal pass idle desel hq (stays.busyFor 1)
  have all : 0 + 1 + (n - 1) = n := by omega
  obtain ⟨u, answers, ends⟩ := waits.toLimit (n - 1) (stays' stays) (by rw [all]; exact limit) fuel
  rw [all] at ends
  obtain ⟨response, trace, pcnt, mem, wip⟩ := ends
  rw [← runs] at answers
  obtain ⟨v, first, rest⟩ := andThen_next answers
  exact ⟨u, answers, response, trace, pcnt, mem, wip, (exec_surroundings first).trans (goesOn_surroundings rest)⟩

/-- Settles O33: `DECODE` starts the wait, which goes on for ever (`Waits.forever`). -/
theorem stuckDeviceHangs : Obligations.StuckDeviceHangs := by
  unfold Obligations.StuckDeviceHangs
  intro s i n admissible idle desel hq stays limit host pass
  obtain ⟨o, addr, len, payload, command⟩ := exists_hostCommand host
  obtain ⟨t, f, runs, fuel, waits, -, stays'⟩ :=
    exec_waits command (gate_none_iff.1 admissible).1 pass idle desel hq (stays.busyFor 1)
  obtain ⟨u, answers, ends⟩ := waits.forever limit n (stays' stays) fuel
  exact ⟨u, runs ▸ answers, ends.phase, ends.pcnt.trans (by omega)⟩

end Sys2Proof.Machine
end

section
/-! What a whole operation leaves alone, whatever the transport answers (spec/10_state.md R27, R28, spec/42_addressing_engine.md R188). -/

namespace Sys2Proof.Machine

/-- A command accepted begins its operation; a WRITE carries as many bytes as it says (30_encoding.md R93). -/
theorem Running.commanded {s : State} {i : Instr} {o : HostOp} {addr len : Half} {payload : List Byte}
    (command : hostCommand i = some (o, addr, len, payload)) (desel : s.sel = false)
    (writes : isWrite o = true → i.wf = true ∧ configLegal s.cfg = true) : Running o 0 (accept (hostOpcode o) addr len payload s) := by
  refine Running.accepted (fun isWrite => (writes isWrite).2) desel ?_ ?_
  · rintro rfl
    cases i <;> cases command
    rfl
  · rintro rfl
    have wf := (writes rfl).1
    cases i <;> cases command
    exact beq_iff_eq.1 wf

/-- A property of states that micro-steps of operation `o` keep, from its acceptance on. -/
theorem operation_induct {P : State → Prop} {s u t : State} {i : Instr} {o : HostOp} {addr len : Half} {payload : List Byte} {n : Nat}
    (command : hostCommand i = some (o, addr, len, payload)) (idle : s.phase = .idle)
    (begins : P (accept (hostOpcode o) addr len payload s)) (first : exec i s = .next u) (rest : goesOn n u = .next t)
    (keep : ∀ s t, P s → s.phase ≠ .idle → tick s = .next t → P t) : P t :=
  operate_induct keep idle begins (by rw [← exec_hostCommand command]; exact first) rest

/-- The command registers hold the command throughout (10_state.md R27), and the surroundings are as before (R22). -/
theorem operation_fixed {s u t : State} {i : Instr} {o : HostOp} {addr len : Half} {payload : List Byte} {n : Nat}
    (command : hostCommand i = some (o, addr, len, payload)) (idle : s.phase = .idle) (first : exec i s = .next u)
    (rest : goesOn n u = .next t) : sameFixed (accept (hostOpcode o) addr len payload s) t :=
  operation_induct (P := sameFixed (accept (hostOpcode o) addr len payload s)) command idle (sameFixed.refl _) first rest
    fun _ _ hu _ hv => hu.trans (tick_fixed hv)

theorem operation_surroundings {s u t : State} {i : Instr} {n : Nat} (first : exec i s = .next u) (rest : goesOn n u = .next t) :
    sameSurroundings s t :=
  (exec_surroundings first).trans (goesOn_surroundings rest)

/-! ### Operations that read -/

section
variable {s t : State} {o : HostOp} {k : Nat}

/-- The frame that an operation without data holds is none that a device commits. -/
theorem Running.holdsNoWrite (h : Running o k s) (noWrite : isWrite o = false) (sel : selectedPhase s.phase = true) {op ah al : Byte}
    {rest : List Byte} (fr : s.dev.fr = op :: ah :: al :: rest) : wireOpOf op ≠ some .write := by
  have held := h.fr
  have belongs := h.belongs
  have notWrite : hostOpOf s.op ≠ some .wrbyte ∧ hostOpOf s.op ≠ some .write := by
    rw [h.op]; constructor <;> rintro ⟨⟩ <;> cases noWrite
  unfold heldFrame at held
  rw [fr] at held
  cases phase : s.phase <;> rw [phase] at held sel belongs <;> try cases sel
  case pOp | pDummy | pDesel | eOp | eDesel | wOp | wAh | wAl | rOp | rAh | rAl => simp at held
  case rData | rDesel => simp at held; rw [held.1]; decide
  case wData | wDesel => simp [opInv] at belongs; obtain rfl | rfl := belongs <;> cases noWrite
  case xDesel => simp [notWrite] at held; obtain ⟨rfl, -⟩ | ⟨rfl, -⟩ | ⟨rfl, -⟩ := held <;> decide

/-- Its deselect starts no write cycle. -/
theorem Running.deselectsQuietly (h : Running o k s) (noWrite : isWrite o = false) {p : Phase} (here : deselectsAt s.phase = some p)
    (run : doDeselect p s = .next t) :
    ∃ w, t = { s with dev := { s.dev with dsel := false, wel := w }, trace := s.trace ++ [.desel s.cfg.csId], sel := false, phase := p } := by
  have sel := (deselectsAt_selected here).1
  obtain ⟨u, deselects, rfl⟩ := doDeselect_cases run
  obtain ⟨w, rfl⟩ | ⟨_, _, _, _, _, _, fr, write, -⟩ | ⟨_, _, _, _, _, _, _, _, fr, write, -⟩ := deviceDeselect_cases deselects
  · exact ⟨w, rfl⟩
  · exact absurd write (h.holdsNoWrite noWrite sel fr)
  · exact absurd write (h.holdsNoWrite noWrite sel fr)

/-- `DECODE` of an operation that does not write: `REM` is set by the reads alone. -/
theorem stepDecode_reading (op : hostOpOf s.op = some o) (noWrite : isWrite o = false) :
    sameWritePath s (stepDecode s) ∧ (stepDecode s).cycles = s.cycles ∧ (o = .wait ∨ o = .wren → (stepDecode s).rem = s.rem) := by
  by_cases waits : o = .wait ∨ o = .wren
  · rw [stepDecode_wait op waits]
    exact ⟨⟨rfl, rfl, rfl, rfl⟩, rfl, fun _ => rfl⟩
  · have reads : o = .rdbyte ∨ o = .read := by cases o <;> simp_all [isWrite]
    rw [stepDecode_read op reads]
    obtain above | inside := lt_or_ge (lastAddr s.cfg) s.addr.toNat
    · rw [setupRead_above above]; exact ⟨⟨rfl, rfl, rfl, rfl⟩, rfl, fun is => absurd is waits⟩
    · rw [setupRead_inside inside]; exact ⟨⟨rfl, rfl, rfl, rfl⟩, rfl, fun is => absurd is waits⟩

/-- A micro-step of an operation that does not write leaves the write path and the schedule of write cycles alone, and `REM` if it does
not read. -/
theorem Micro.reading (h : Micro s t) (run : Running o k s) (noWrite : isWrite o = false) :
    sameWritePath s t ∧ t.cycles = s.cycles ∧ (o = .wait ∨ o = .wren → t.rem = s.rem) := by
  have belongs := run.belongs
  have notHere {p : Phase} (only : opInv p (some o) = true → isWrite o = true) : s.phase ≠ p := by
    rintro rfl
    rw [only belongs] at noWrite
    cases noWrite
  cases h with
  | decodes _ eq => rw [eq]; exact stepDecode_reading run.op noWrite
  | answers tx r d _ _ _ eq =>
    have notData := notHere (p := .wData) (by cases o <;> simp [opInv, isWrite])
    rw [eq]
    refine ⟨⟨rfl, if_neg notData, if_neg notData, rfl⟩, rfl, fun waits => if_neg fun here => ?_⟩
    rw [here] at belongs
    obtain rfl | rfl := waits <;> cases belongs
  | deselects _ here deselect =>
    obtain ⟨w, rfl⟩ := run.deselectsQuietly noWrite here deselect
    exact ⟨⟨rfl, rfl, rfl, rfl⟩, rfl, fun _ => rfl⟩
  | busy _ _ eq =>
    obtain leads | ⟨-, leads⟩ := countBusy_cases s <;> rw [eq, leads] <;> exact ⟨⟨rfl, rfl, rfl, rfl⟩, rfl, fun _ => rfl⟩
  | chunk here _ => exact absurd here (notHere (by cases o <;> simp [opInv, isWrite]))
  | rests _ eq | delays _ _ _ eq | selects _ _ eq | fails _ _ eq | ready _ _ _ _ eq | responds _ eq =>
    rw [eq]; exact ⟨⟨rfl, rfl, rfl, rfl⟩, rfl, fun _ => rfl⟩

/-- Only READ and RDBYTE put anything in `RBUF` (10_state.md R31). -/
theorem Micro.noData (h : Micro s t) (belongs : opInv s.phase (some o) = true) (noRead : o ≠ .rdbyte ∧ o ≠ .read) (none : s.rbuf = []) :
    t.rbuf = [] := by
  cases h with
  | decodes _ eq =>
    obtain ⟨_, _, _, _, leads⟩ | ⟨_, -, leads⟩ := stepDecode_cases s
    · rw [eq, leads]; exact none
    · rw [eq, leads]; rfl
  | answers tx r d _ _ _ eq =>
    have notData : s.phase ≠ .rData := fun here => by rw [here] at belongs; simp [opInv, noRead] at belongs
    rw [eq]
    exact (if_neg notData).trans none
  | deselects _ _ run => obtain ⟨_, _, _, rfl, -⟩ := doDeselect_shape run; exact none
  | busy _ _ eq =>
    obtain leads | ⟨-, leads⟩ := countBusy_cases s
    · rw [eq, leads]; exact none
    · rw [eq, leads]; rfl
  | chunk _ eq => obtain leads | ⟨_, _, _, leads⟩ := stepWNext_cases s <;> rw [eq, leads] <;> exact none
  | fails _ _ eq => rw [eq]; rfl
  | rests _ eq | delays _ _ _ eq | selects _ _ eq | ready _ _ _ _ eq | responds _ eq => rw [eq]; exact none

end

theorem sameWritePath.trans {s t u : State} (h : sameWritePath s t) (k : sameWritePath t u) : sameWritePath s u := by
  obtain ⟨cur, run, idx, rx⟩ := h
  obtain ⟨cur', run', idx', rx'⟩ := k
  exact ⟨cur'.trans cur, run'.trans run, idx'.trans idx, rx'.trans rx⟩

/-- Operation `o`, under way in `t`, has left alone what an operation that does not write leaves alone. -/
structure LeavesAlone (o : HostOp) (s t : State) : Prop where
  running : ∃ k, Running o k t
  mem : t.dev.mem = s.dev.mem
  path : sameWritePath s t
  cycles : t.cycles = s.cycles
  rem : o = .wait ∨ o = .wren → t.rem = s.rem
  rbuf : o = .wait ∨ o = .wren → t.rbuf = []

theorem LeavesAlone.tick {o : HostOp} {s u t : State} (noWrite : isWrite o = false) (h : LeavesAlone o s u) (busy : u.phase ≠ .idle)
    (run : tick u = .next t) : LeavesAlone o s t := by
  obtain ⟨⟨k, running⟩, mem, path, cycles, rem, rbuf⟩ := h
  obtain ⟨k', running', same⟩ := running.all busy run
  obtain ⟨path', cycles', rem'⟩ := (tick_micro run).reading running.turn noWrite
  refine ⟨⟨k', running'⟩, (same noWrite).trans mem, path.trans path', cycles'.trans cycles, fun waits => (rem' waits).trans (rem waits),
    fun waits => (tick_micro run).noData running.belongs ?_ (rbuf waits)⟩
  obtain rfl | rfl := waits <;> decide

theorem hostCommand_reads {i : Instr} {o : HostOp} {addr len : Half} {payload : List Byte}
    (command : hostCommand i = some (o, addr, len, payload)) : reads i = !isWrite o := by
  cases i <;> cases command <;> rfl

/-- The host commands are the ones that read and the ones that write. -/
theorem exists_command_of_reads {i : Instr} (h : reads i = true) : ∃ o addr len payload, hostCommand i = some (o, addr, len, payload) :=
  exists_hostCommand (by cases i <;> first | rfl | cases h)

/-- Settles O39: no micro-step of an operation that does not write commits a frame, starts a cycle or touches the write path
(`LeavesAlone.tick`); the rest is what no micro-step changes. -/
theorem readingFrame : Obligations.ReadingFrame := by
  unfold Obligations.ReadingFrame
  intro s u t i n isReading idle desel first rest
  obtain ⟨o, addr, len, payload, command⟩ := exists_command_of_reads isReading
  have noWrite : isWrite o = false := by simpa [hostCommand_reads command] using isReading
  have h : LeavesAlone o s t := operation_induct (P := LeavesAlone o s) command idle
    ⟨⟨0, Running.commanded command desel fun writes => by rw [noWrite] at writes; cases writes⟩, rfl, ⟨rfl, rfl, rfl, rfl⟩, rfl,
      fun _ => rfl, fun _ => rfl⟩ first rest fun _ _ => LeavesAlone.tick noWrite
  refine ⟨fun a => congrArg (Memory.read · a) h.mem, operation_surroundings first rest, h.path, h.cycles, fun a l is => ?_,
    fun o' a l p command' => ?_⟩
  · have waits : o = .wait ∨ o = .wren := by obtain rfl | rfl := is <;> cases command <;> decide
    exact ⟨h.rem waits, h.rbuf waits⟩
  · obtain ⟨-, -, -, -, -, op, addr, wbuf, -⟩ := operation_fixed command' idle first rest
    exact ⟨op, addr, wbuf⟩

/-! ### Operations that write -/

section
variable {s t : State} {o : HostOp} {k : Nat}

/-- A micro-step leaves the array alone, or stores payload bytes where the page counter from `ADDR` puts them. -/
theorem Running.steps (h : Running o k s) (busy : s.phase ≠ .idle) (run : Machine.tick s = .next t) :
    ∃ k', Running o k' t ∧ (t.dev.mem = s.dev.mem ∨ isWrite o = true ∧ s.addr.toNat ≤ lastAddr s.cfg ∧
      ∃ n, t.dev.mem = storePage s.cfg s.addr.toNat k (payloadPart k n s) s.dev.mem) := by
  obtain ⟨k', running, -⟩ := h.all busy run
  by_cases special : s.phase = .decode ∨ s.phase = .wNext
  · refine ⟨k', running, .inl ?_⟩
    obtain here | here := special
    · obtain rfl := Host.Outcome.next.inj ((phaseStep_decode (s := cycleTick s) here).symm.trans run)
      rw [(stepDecode_keeps _).2, cycleTick_dev]; rfl
    · obtain rfl := Host.Outcome.next.inj ((phaseStep_wNext (s := cycleTick s) here).symm.trans run)
      obtain leads | ⟨_, _, _, leads⟩ := stepWNext_cases (cycleTick s) <;> rw [leads] <;> rfl
  · obtain ⟨notDecode, notNext⟩ := not_or.1 special
    obtain ⟨running, same | ⟨writes, deselects, n, -, -, stored⟩⟩ := h.tick busy notDecode notNext run
    · exact ⟨k, running, .inl same⟩
    · have chunk := h.ch writes notDecode busy (by obtain here | here := deselects <;> rw [here] <;> decide)
      exact ⟨k, running, .inr ⟨writes, chunk.inside, n, stored.trans (chunk.commit (h.legal writes) _ _)⟩⟩

theorem payloadPart_within (k n : Nat) (s : State) : payloadPart k n s = [] ∨ k + (payloadPart k n s).length ≤ s.wbuf.length := by
  by_cases empty : payloadPart k n s = []
  · exact .inl empty
  · refine .inr ?_
    have positive := List.length_pos_of_ne_nil empty
    simp only [payloadPart, List.length_drop, List.length_take] at positive ⊢
    omega

end

/-- Operation `o`, under way in `t`, has changed no byte of the array outside the places of its payload. -/
structure WritesInside (o : HostOp) (s t : State) : Prop where
  running : ∃ k, Running o k t
  fixed : sameFixed s t
  canonical : Memory.wf t.dev.mem = true
  rbuf : t.rbuf = []
  outside : ∀ a, (∀ j, j < s.wbuf.length → a ≠ writeAddr s.cfg (deviceAddr s.cfg s.addr) j) →
    Memory.read t.dev.mem a = Memory.read s.dev.mem a

theorem WritesInside.tick {o : HostOp} {s u t : State} (writes : isWrite o = true) (h : WritesInside o s u) (busy : u.phase ≠ .idle)
    (run : tick u = .next t) : WritesInside o s t := by
  obtain ⟨⟨k, running⟩, fixed, canonical, rbuf, outside⟩ := h
  obtain ⟨k', running', mem⟩ := running.steps busy run
  refine ⟨⟨k', running'⟩, fixed.trans (tick_fixed run), (tick_micro run).canonical canonical,
    (tick_micro run).noData running.belongs (by constructor <;> rintro rfl <;> cases writes) rbuf, fun a apart => ?_⟩
  obtain ⟨cfg, -, -, -, -, -, addr, wbuf, -⟩ := fixed
  obtain same | ⟨-, inside, n, stored⟩ := mem
  · rw [same]; exact outside a apart
  rw [stored, ← outside a apart]
  refine storePage_read_other _ _ _ _ canonical a fun j listed => ?_
  obtain none | within := payloadPart_within k n u
  · rw [none] at listed; cases listed
  · rw [← deviceAddr_le (running.legal writes) inside, cfg, addr]
    exact apart (k + j) (by rw [← wbuf]; omega)

theorem isWrite_iff {o : HostOp} : isWrite o = true ↔ o = .wrbyte ∨ o = .write := by
  cases o <;> decide

/-- Settles O40: every commit of the operation stores payload bytes where the page counter from `ADDR` puts them
(`Running.steps`, which rests on `Chunk.commit`), so no other byte changes; the rest is what no micro-step changes. -/
theorem writingFrame : Obligations.WritingFrame := by
  unfold Obligations.WritingFrame
  intro s u t i o addr len payload n command wf writes admissible idle desel canonical first rest
  have legal := (gate_none_iff.1 admissible).1
  have isWrite := isWrite_iff.2 writes
  have h : WritesInside o (accept (hostOpcode o) addr len payload s) t :=
    operation_induct (P := WritesInside o (accept (hostOpcode o) addr len payload s)) command idle
      ⟨⟨0, Running.commanded command desel fun _ => ⟨wf, legal⟩⟩, sameFixed.refl _, canonical, rfl, fun _ _ => rfl⟩ first rest
      fun _ _ => WritesInside.tick isWrite
  obtain ⟨-, -, -, rx, -, op, addr', wbuf, -⟩ := h.fixed
  exact ⟨h.outside, operation_surroundings first rest, op, addr', wbuf, h.rbuf, rx⟩

end Sys2Proof.Machine
end

section
/-! Whole operations while the device answers every exchange: what a response `OK` says (spec/20_memory.md sections 4 to 6,
spec/42_addressing_engine.md sections 2, 4). -/

namespace Sys2Proof.Machine

/-- Operation `o` of command registers `s` under way in `t`, the device answering. -/
structure Answered (o : HostOp) (s t : State) (k : Nat) : Prop where
  running : Running o k t
  undisturbed : Undisturbed t
  fixed : sameFixed s t
  unprotected : isWrite o = true → s.dev.bp = 0

theorem Answered.tick {o : HostOp} {s u t : State} {k : Nat} (h : Answered o s u k) (busy : u.phase ≠ .idle) (run : tick u = .next t) :
    ∃ k', Answered o s t k' := by
  obtain ⟨running, undisturbed, fixed, unprotected⟩ := h
  obtain ⟨k', running', -⟩ := running.all busy run
  obtain ⟨-, -, -, -, bp, -⟩ := id fixed
  exact ⟨k', running', (undisturbed.tick running (fun writes => bp.trans (unprotected writes)) busy run).1, fixed.trans (tick_fixed run),
    unprotected⟩

theorem Answered.commanded {s : State} {i : Instr} {o : HostOp} {addr len : Half} {payload : List Byte}
    (command : hostCommand i = some (o, addr, len, payload)) (desel : s.sel = false) (hq : quiet s)
    (writes : isWrite o = true → i.wf = true ∧ gate s = none) :
    Answered o (accept (hostOpcode o) addr len payload s) (accept (hostOpcode o) addr len payload s) 0 where
  running := Running.commanded command desel fun isWrite => (writes isWrite).imp_right fun g => (gate_none_iff.1 g).1
  undisturbed := Undisturbed.accepted hq
  fixed := sameFixed.refl _
  unprotected isWrite := (gate_none_iff.1 (writes isWrite).2).2

section
variable {s u t : State} {i : Instr} {o : HostOp} {addr len : Half} {payload : List Byte} {n : Nat}

/-- A whole operation, the device answering. -/
theorem operation_answered (command : hostCommand i = some (o, addr, len, payload)) (idle : s.phase = .idle) (desel : s.sel = false)
    (hq : quiet s) (writes : isWrite o = true → i.wf = true ∧ gate s = none) (first : exec i s = .next u) (rest : goesOn n u = .next t) :
    ∃ k, Answered o (accept (hostOpcode o) addr len payload s) t k :=
  operation_induct (P := fun t => ∃ k, Answered o (accept (hostOpcode o) addr len payload s) t k) command idle
    ⟨0, Answered.commanded command desel hq writes⟩ first rest fun _ _ h busy run => h.elim fun _ h => h.tick busy run

end

/-- Settles O44: what the last status read and the write-enable frame have shown of the device still holds at the response
(`Undisturbed.fence`). -/
theorem waitIsAFence : Obligations.WaitIsAFence := by
  unfold Obligations.WaitIsAFence
  intro s u t i addr len n waits idle desel hq first rest ended ok
  obtain rfl | rfl := waits
  · obtain ⟨k, h⟩ := operation_answered (o := .wait) rfl idle desel hq (fun writes => by cases writes) first rest
    exact ⟨(h.undisturbed.fence (.inr ended) ok).1 h.running.op, fun is => by cases is⟩
  · obtain ⟨k, h⟩ := operation_answered (o := .wren) rfl idle desel hq (fun writes => by cases writes) first rest
    obtain ⟨notBusy, latched⟩ := (h.undisturbed.fence (.inr ended) ok).2 h.running.op
    exact ⟨notBusy, fun _ => latched⟩

/-! ### Writes -/

/-- What the array of a write shows in phase `p`, `k` the number of the chunk's first payload byte: the chunks committed so far. -/
def storesSoFar (s t : State) (k : Nat) : Prop :=
  match t.phase with
  | .decode => t.dev.mem = s.dev.mem
  | .wNext => t.dev.mem = storePage s.cfg s.addr.toNat 0 (s.wbuf.take t.idx.toNat) s.dev.mem
  | .resp | .idle => t.err = .ok → t.dev.mem = storePage s.cfg s.addr.toNat 0 s.wbuf s.dev.mem ∧ s.addr.toNat ≤ lastAddr s.cfg
  | _ => t.dev.mem = storePage s.cfg s.addr.toNat 0 (s.wbuf.take k) s.dev.mem

/-- The phases between `DECODE` and the response, but `W_NEXT`. -/
def midWrite : Phase → Bool
  | .decode | .wNext | .resp | .idle => false
  | _ => true

theorem midWrite_iff {p : Phase} : midWrite p = true ↔ p ≠ .decode ∧ p ≠ .wNext ∧ p ≠ .resp ∧ p ≠ .idle := by
  cases p <;> decide

theorem storesSoFar_mid {s t : State} {k : Nat} (mid : midWrite t.phase = true) :
    storesSoFar s t k ↔ t.dev.mem = storePage s.cfg s.addr.toNat 0 (s.wbuf.take k) s.dev.mem := by
  obtain ⟨notDecode, notNext, notResp, notIdle⟩ := midWrite_iff.1 mid
  unfold storesSoFar
  cases phase : t.phase <;> simp_all

theorem storesSoFar_next {s t : State} {k : Nat} (next : t.phase = .wNext) :
    storesSoFar s t k ↔ t.dev.mem = storePage s.cfg s.addr.toNat 0 (s.wbuf.take t.idx.toNat) s.dev.mem := by
  simp only [storesSoFar, next]

theorem storesSoFar_ended {s t : State} {k : Nat} (ended : t.phase = .resp ∨ t.phase = .idle) :
    storesSoFar s t k ↔
      (t.err = .ok → t.dev.mem = storePage s.cfg s.addr.toNat 0 s.wbuf s.dev.mem ∧ s.addr.toNat ≤ lastAddr s.cfg) := by
  obtain here | here := ended <;> simp only [storesSoFar, here]

theorem midWrite_raised {e : Code} {s : State} (error : e ≠ .ok) :
    midWrite (raise e s).phase = true ∨ (raise e s).phase = .resp ∧ (raise e s).err ≠ .ok := by
  rw [raise_phase]
  cases s.sel
  · exact .inr ⟨rfl, error⟩
  · exact .inl rfl

theorem midWrite_answered {s : State} (exchanges : exchangePhase s.phase = true) : midWrite (answeredPhase s) = true := by
  unfold answeredPhase
  cases phase : s.phase <;> rw [phase] at exchanges <;> try cases exchanges
  case wAl | wData | rAl | rData => dsimp only; split <;> exact rfl
  all_goals exact rfl

/-- A phase of a write but its deselects leads to another, or to a response that is not `OK`. -/
theorem Micro.midWrite {o : HostOp} {s t : State} (h : Micro s t) (op : hostOpOf s.op = some o) (belongs : opInv s.phase (some o) = true)
    (writes : isWrite o = true) (mid : midWrite s.phase = true) (notDesel : s.phase ≠ .wDesel) (noError : s.phase ≠ .xDesel) :
    Machine.midWrite t.phase = true ∨ t.phase = .resp ∧ t.err ≠ .ok := by
  obtain ⟨notDecode, notNext, notResp, notIdle⟩ := midWrite_iff.1 mid
  cases h with
  | rests here _ => exact absurd here notIdle
  | decodes here _ => exact absurd here notDecode
  | delays n p here eq =>
    have notWren : hostOpOf s.op ≠ some .wren := by rw [op]; rintro ⟨⟩; cases writes
    rw [eq]
    unfold delaysAt at here
    split at here
    · cases here; exact .inl rfl
    · cases here; rw [if_neg notWren]; exact .inl rfl
    · cases here
  | selects p here eq =>
    rw [eq]
    cases phase : s.phase <;> rw [phase] at here <;> cases here <;> exact .inl rfl
  | fails tx _ eq => rw [eq]; exact midWrite_raised (by decide)
  | answers _ _ _ sends _ _ eq => rw [eq]; exact .inl (midWrite_answered (byteSent_exchanges sends))
  | deselects p here run =>
    obtain ⟨_, _, _, rfl, -⟩ := doDeselect_shape run
    cases phase : s.phase <;> rw [phase] at here belongs
    case pDesel | eDesel => cases here; exact .inl rfl
    case wDesel => exact absurd phase notDesel
    case xDesel => exact absurd phase noError
    case rDesel => obtain rfl | rfl := isWrite_iff.1 writes <;> cases belongs
    all_goals cases here
  | busy _ _ eq =>
    rw [eq]
    obtain leads | ⟨-, leads⟩ := countBusy_cases s <;> rw [leads]
    · exact .inl rfl
    · exact midWrite_raised (by decide)
  | ready _ _ o' op' eq =>
    obtain rfl := Option.some.inj (op.symm.trans op')
    rw [eq]
    obtain rfl | rfl := isWrite_iff.1 writes <;> exact .inl rfl
  | chunk here _ => exact absurd here notNext
  | responds here _ => exact absurd here notResp

section
variable {o : HostOp} {s u t : State} {k : Nat}

/-- `DECODE` stores nothing, and the first chunk starts with payload byte 0. -/
theorem Answered.decode_stores (h : Answered o s u k) (writes : isWrite o = true) (decode : u.phase = .decode) (run : Machine.tick u = .next t)
    (mem : u.dev.mem = s.dev.mem) : ∃ k', Answered o s t k' ∧ storesSoFar s t k' := by
  obtain ⟨k', running, dev, -, leads⟩ := h.running.turn.decode decode
  obtain rfl := Host.Outcome.next.inj ((phaseStep_decode (s := cycleTick u) decode).symm.trans run)
  have same : (stepDecode (cycleTick u)).dev.mem = s.dev.mem := by rw [dev]; exact mem
  obtain ⟨_, answered⟩ := h.tick (by rw [decode]; decide) run
  refine ⟨k', { answered with running := running }, ?_⟩
  obtain ⟨resp, error, -⟩ | ⟨waits, -, -, first, -⟩ := leads
  · exact (storesSoFar_ended (.inl resp)).2 fun ok => absurd ok error
  · rw [storesSoFar_mid (by rw [waits]; exact rfl), first writes, same]
    rfl

/-- `W_NEXT` stores nothing; the next chunk starts where this one ends, and without one the whole payload is stored. -/
theorem Answered.next_stores (h : Answered o s u k) (writes : isWrite o = true) (next : u.phase = .wNext) (run : Machine.tick u = .next t)
    (mem : u.dev.mem = storePage s.cfg s.addr.toNat 0 (s.wbuf.take u.idx.toNat) s.dev.mem) :
    ∃ k', Answered o s t k' ∧ storesSoFar s t k' := by
  obtain ⟨k', running, dev, -, -, -, leads⟩ := h.running.turn.next next
  obtain rfl := Host.Outcome.next.inj ((phaseStep_wNext (s := cycleTick u) next).symm.trans run)
  have same : (stepWNext (cycleTick u)).dev.mem = storePage s.cfg s.addr.toNat 0 (s.wbuf.take u.idx.toNat) s.dev.mem := by
    rw [dev]; exact mem
  obtain ⟨_, answered⟩ := h.tick (by rw [next]; decide) run
  obtain ⟨cfg, -, -, -, -, -, addr, wbuf, -⟩ := h.fixed
  have chunk := h.running.ch writes (by rw [next]; decide) (by rw [next]; decide) (by rw [next]; decide)
  refine ⟨k', { answered with running := running }, ?_⟩
  obtain ⟨resp, -, all⟩ | ⟨waits, starts⟩ := leads
  · refine (storesSoFar_ended (.inl resp)).2 fun _ => ⟨?_, by rw [← addr, ← cfg]; exact chunk.inside⟩
    rw [same, show u.idx.toNat = s.wbuf.length from all.trans (by rw [← wbuf]; rfl), List.take_length]
  · rw [storesSoFar_mid (by rw [waits]; exact rfl), same, starts]
    rfl

/-- The deselect of a WRITE frame commits the chunk after the chunks before. -/
theorem Answered.desel_stores (h : Answered o s u k) (writes : isWrite o = true) (desel : u.phase = .wDesel) (run : Machine.tick u = .next t)
    (mem : u.dev.mem = storePage s.cfg s.addr.toNat 0 (s.wbuf.take k) s.dev.mem) :
    ∃ k', Answered o s t k' ∧ storesSoFar s t k' := by
  obtain ⟨k', answered⟩ := h.tick (by rw [desel]; decide) run
  obtain ⟨cfg, -, -, -, bp, -, addr, wbuf, -⟩ := h.fixed
  have chunk := h.running.ch writes (by rw [desel]; decide) (by rw [desel]; decide) (by rw [desel]; decide)
  have commits := (h.undisturbed.tick h.running (fun w => bp.trans (h.unprotected w)) (by rw [desel]; decide) run).2 desel
  have leads : t.phase = .wNext ∧ t.idx = u.idx := by
    have run' : doDeselect .wNext (cycleTick u) = .next t := by
      rw [← run, Machine.tick, phaseStep, cycleTick_phase, desel]; rfl
    obtain ⟨_, _, _, rfl, -⟩ := doDeselect_shape run'
    exact ⟨rfl, rfl⟩
  refine ⟨k', answered, (storesSoFar_next leads.1).2 ?_⟩
  have fewer : (s.wbuf.take k).length = k := by
    rw [List.length_take, ← wbuf]
    have le := chunk.le
    have total := chunk.total
    omega
  have parts : s.wbuf.take u.idx.toNat = s.wbuf.take k ++ sentChunk k u := by
    rw [sentChunk, payloadPart, wbuf]
    have whole := List.take_append_drop k (s.wbuf.take u.idx.toNat)
    rw [List.take_take, Nat.min_eq_left chunk.le] at whole
    exact whole.symm
  rw [commits, chunk.commit (h.running.legal writes), mem, leads.2, parts, storePage_append, Nat.zero_add, fewer, cfg, addr]

/-- Every micro-step of a write keeps what the array shows of its payload. -/
theorem Answered.tick_stores (h : Answered o s u k) (writes : isWrite o = true) (busy : u.phase ≠ .idle) (run : Machine.tick u = .next t)
    (mem : storesSoFar s u k) : ∃ k', Answered o s t k' ∧ storesSoFar s t k' := by
  by_cases decode : u.phase = .decode
  · exact h.decode_stores writes decode run (by simpa only [storesSoFar, decode] using mem)
  by_cases next : u.phase = .wNext
  · exact h.next_stores writes next run ((storesSoFar_next next).1 mem)
  by_cases resp : u.phase = .resp
  · obtain ⟨k', answered⟩ := h.tick busy run
    have responds : t = respond (cycleTick u) := by
      rw [Machine.tick, phaseStep, cycleTick_phase, resp] at run
      exact (Host.Outcome.next.inj run).symm
    exact ⟨k', answered, (storesSoFar_ended (.inr (by rw [responds]; rfl))).2 (by rw [responds]; exact (storesSoFar_ended (.inl resp)).1 mem)⟩
  have mid : midWrite u.phase = true := midWrite_iff.2 ⟨decode, next, resp, busy⟩
  rw [storesSoFar_mid mid] at mem
  by_cases desel : u.phase = .wDesel
  · exact h.desel_stores writes desel run mem
  obtain ⟨k', answered⟩ := h.tick busy run
  obtain ⟨running, same | ⟨-, deselects, -⟩⟩ := h.running.tick busy decode next run
  · refine ⟨k, { answered with running := running }, ?_⟩
    obtain goesOn | ⟨ends, error⟩ := (tick_micro run).midWrite h.running.op h.running.belongs writes mid desel h.undisturbed.noError
    · rw [storesSoFar_mid goesOn, same]; exact mem
    · exact (storesSoFar_ended (.inl ends)).2 fun ok => absurd ok error
  · exact absurd deselects (not_or.2 ⟨desel, h.undisturbed.noError⟩)

end

/-- Settles O42: after each chunk the array shows the payload up to it (`Answered.tick_stores`), and a response `OK` comes after the
last. -/
theorem writeStoresItsData : Obligations.WriteStoresItsData := by
  unfold Obligations.WriteStoresItsData
  intro s u t i o addr len payload n command wf writes admissible idle desel hq first rest ended ok
  have isWrite := isWrite_iff.2 writes
  obtain ⟨k, -, stores⟩ : ∃ k, Answered o (accept (hostOpcode o) addr len payload s) t k ∧
      storesSoFar (accept (hostOpcode o) addr len payload s) t k :=
    operation_induct (P := fun t => ∃ k, Answered o (accept (hostOpcode o) addr len payload s) t k ∧
        storesSoFar (accept (hostOpcode o) addr len payload s) t k) command idle
      ⟨0, Answered.commanded command desel hq fun _ => ⟨wf, admissible⟩, rfl⟩ first rest
      fun _ _ h busy run => h.elim fun _ h => h.1.tick_stores isWrite busy run h.2
  exact (storesSoFar_ended (.inr ended)).1 stores ok

end Sys2Proof.Machine
end

section
/-! Reads answered `OK` (spec/41_command_framer.md R158 to R160, spec/20_memory.md R69), and what a write and a read after it say
together (spec/20_memory.md section 6). -/

namespace Sys2Proof.Machine

/-- The phases of a read before its data: all but `DECODE`, the data phases and the end. -/
def preRead : Phase → Bool
  | .decode | .rData | .rDesel | .resp | .idle => false
  | _ => true

/-- What `RBUF` holds of the `n` bytes a read is to return, and `REM`. -/
def readsSoFar (n : Nat) (s t : State) : Prop :=
  match t.phase with
  | .decode => t.rbuf = [] ∧ t.len = s.len
  | .rData => t.rbuf = readBack s.cfg s.dev.mem s.addr t.rbuf.length ∧ t.rbuf.length + t.rem.toNat = n ∧
      ∃ d, t.dev.fr = wireOpcode .read :: hiByte s.addr :: loByte s.addr :: d ∧ d.length = t.rbuf.length
  | .rDesel => t.rbuf = readBack s.cfg s.dev.mem s.addr n
  | .resp | .idle => t.err = .ok → t.rbuf = readBack s.cfg s.dev.mem s.addr n
  | _ => t.rbuf = [] ∧ t.rem.toNat = n

theorem readsSoFar_pre {n : Nat} {s t : State} (pre : preRead t.phase = true) : readsSoFar n s t ↔ t.rbuf = [] ∧ t.rem.toNat = n := by
  unfold readsSoFar
  cases phase : t.phase <;> first | exact Iff.rfl | (rw [phase] at pre; cases pre)

theorem readsSoFar_ended {n : Nat} {s t : State} (ended : t.phase = .resp ∨ t.phase = .idle) :
    readsSoFar n s t ↔ (t.err = .ok → t.rbuf = readBack s.cfg s.dev.mem s.addr n) := by
  obtain here | here := ended <;> simp only [readsSoFar, here]

theorem readBack_succ (c : Config) (m : Memory) (a : Half) (n : Nat) :
    readBack c m a (n + 1) = readBack c m a n ++ [Memory.read m (readAddr c a n)] := by
  simp [readBack, List.range_succ]

/-- How many bytes the operation is to return. -/
def readLength (o : HostOp) (len : Half) : Nat := if o = .rdbyte then 1 else len.toNat

theorem preRead_raised {e : Code} {s : State} (error : e ≠ .ok) :
    (raise e s).phase = .xDesel ∨ (raise e s).phase = .resp ∧ (raise e s).err ≠ .ok := by
  rw [raise_phase]
  cases s.sel
  · exact .inr ⟨rfl, error⟩
  · exact .inl rfl

theorem preRead_answered {s : State} (exchanges : exchangePhase s.phase = true) (notAl : s.phase ≠ .rAl) (notData : s.phase ≠ .rData) :
    preRead (answeredPhase s) = true := by
  unfold answeredPhase
  cases phase : s.phase <;> rw [phase] at exchanges <;> try cases exchanges
  case rAl => exact absurd phase notAl
  case rData => exact absurd phase notData
  case wAl | wData => dsimp only; split <;> rfl
  all_goals rfl

/-- A phase of a read before its data leads to another, which leaves `RBUF` and `REM` alone, or fails. -/
theorem Micro.preRead {o : HostOp} {s t : State} (h : Micro s t) (op : hostOpOf s.op = some o) (belongs : opInv s.phase (some o) = true)
    (reads : o = .rdbyte ∨ o = .read) (pre : preRead s.phase = true) (notAl : s.phase ≠ .rAl) (noError : s.phase ≠ .xDesel) :
    Machine.preRead t.phase = true ∧ t.rbuf = s.rbuf ∧ t.rem = s.rem ∨ t.phase = .xDesel ∨ t.phase = .resp ∧ t.err ≠ .ok := by
  have notHere {p : Phase} (other : opInv p (some o) = false) : s.phase ≠ p := by
    rintro rfl
    rw [other] at belongs
    cases belongs
  have notData : s.phase ≠ .rData := fun here => by rw [here] at pre; cases pre
  cases h with
  | rests here _ | decodes here _ | responds here _ => rw [here] at pre; cases pre
  | delays n p here eq =>
    rw [eq]
    unfold delaysAt at here
    split at here
    · cases here; exact .inl ⟨rfl, rfl, rfl⟩
    · next delay => exact absurd delay (notHere (by obtain rfl | rfl := reads <;> rfl))
    · cases here
  | selects p here eq =>
    rw [eq]
    cases phase : s.phase <;> rw [phase] at here <;> cases here <;> exact .inl ⟨rfl, rfl, rfl⟩
  | fails tx _ eq => rw [eq]; exact .inr (preRead_raised (by decide))
  | answers _ _ _ sends _ _ eq =>
    rw [eq]
    exact .inl ⟨preRead_answered (byteSent_exchanges sends) notAl notData, if_neg notData, if_neg notData⟩
  | deselects p here run =>
    obtain ⟨_, _, _, rfl, -⟩ := doDeselect_shape run
    cases phase : s.phase <;> rw [phase] at here belongs pre
    case pDesel => cases here; exact .inl ⟨rfl, rfl, rfl⟩
    case xDesel => exact absurd phase noError
    case eDesel | wDesel => obtain rfl | rfl := reads <;> cases belongs
    case rDesel => cases pre
    all_goals cases here
  | busy _ _ eq =>
    rw [eq]
    obtain leads | ⟨-, leads⟩ := countBusy_cases s <;> rw [leads]
    · exact .inl ⟨rfl, rfl, rfl⟩
    · exact .inr (preRead_raised (by decide))
  | ready _ _ o' op' eq =>
    obtain rfl := Option.some.inj (op.symm.trans op')
    rw [eq]
    obtain rfl | rfl := reads <;> exact .inl ⟨rfl, rfl, rfl⟩
  | chunk here _ => exact absurd here (notHere (by obtain rfl | rfl := reads <;> rfl))

section
variable {o : HostOp} {s u t : State} {k n : Nat}

theorem Answered.decode_reads (h : Answered o s u k) (reads : o = .rdbyte ∨ o = .read) (decode : u.phase = .decode)
    (run : Machine.tick u = .next t) (none : u.rbuf = []) (len : u.len = s.len) : readsSoFar (readLength o s.len) s t := by
  obtain ⟨k', -, -, -, leads⟩ := h.running.turn.decode decode
  obtain rfl := Host.Outcome.next.inj ((phaseStep_decode (s := cycleTick u) decode).symm.trans run)
  obtain ⟨resp, error, -⟩ | ⟨waits, -, rbuf, -, read, rdbyte⟩ := leads
  · exact (readsSoFar_ended (.inl resp)).2 fun ok => absurd ok error
  · refine (readsSoFar_pre (by rw [waits]; rfl)).2 ⟨rbuf.trans none, ?_⟩
    obtain rfl | rfl := reads
    · rw [rdbyte rfl]; rfl
    · rw [read rfl, readLength, if_neg (by decide), ← len]; rfl

/-- The second address byte: nothing is received yet, and without data to read the frame is over. -/
theorem Answered.addr_reads (h : Answered o s u k) (here : u.phase = .rAl) (run : Machine.tick u = .next t) (noError : t.phase ≠ .xDesel)
    (none : u.rbuf = []) (rem : u.rem.toNat = n) : readsSoFar n s t := by
  obtain ⟨-, -, -, -, -, -, addr, -, -⟩ := h.fixed
  have held := h.running.fr
  simp only [heldFrame, here] at held
  have dsel : (cycleTick u).dev.dsel = true := h.running.dsel (by rw [h.running.sel, here]; rfl)
  obtain ⟨tx, sends, -, rfl | ⟨r, d, -, rfl⟩⟩ := exchange_answers (s := cycleTick u) (by rw [cycleTick_phase, here]; rfl) run
  · exact (preRead_raised (by decide)).elim (absurd · noError) fun ⟨ends, error⟩ => (readsSoFar_ended (.inl ends)).2 fun ok => absurd ok error
  have lo : tx = loByte s.addr := by
    simp only [byteSent, cycleTick_phase, here, Option.some.injEq] at sends
    rw [← sends, ← addr]; rfl
  have rbuf : (afterAnswer tx r d (cycleTick u)).rbuf = [] := by simp [afterAnswer, here, none]
  have left : (afterAnswer tx r d (cycleTick u)).rem.toNat = n := by simp [afterAnswer, here, rem]
  have phase : (afterAnswer tx r d (cycleTick u)).phase = if u.rem = 0 then .rDesel else .rData := by
    simp only [afterAnswer, answeredPhase, cycleTick_phase, here]; rfl
  have fr : (afterAnswer tx r d (cycleTick u)).dev.fr = [wireOpcode .read, hiByte s.addr, loByte s.addr] := by
    refine (deviceTake_fr dsel).trans ?_
    rw [lo, ← addr]
    exact congrArg (· ++ _) held
  by_cases empty : u.rem = 0
  · rw [empty] at rem
    rw [if_pos empty] at phase
    simp only [readsSoFar, phase, rbuf, ← rem]
    rfl
  · rw [if_neg empty] at phase
    simp only [readsSoFar, phase, rbuf, left, fr]
    exact ⟨rfl, Nat.zero_add n, [], rfl, rfl⟩

/-- One byte of the array is received and appended (20_memory.md R69). -/
theorem Answered.data_reads (h : Answered o s u k) (here : u.phase = .rData) (run : Machine.tick u = .next t)
    (mem : u.dev.mem = s.dev.mem) (reads : readsSoFar n s u) : readsSoFar n s t := by
  obtain ⟨cfg, -, -, -, -, -, -, -, -⟩ := h.fixed
  simp only [readsSoFar, here] at reads
  obtain ⟨rbuf, left, d, fr, received⟩ := reads
  have more : u.rem ≠ 0 := by simpa [here, countInv] using h.running.count
  have dsel : u.dev.dsel = true := h.running.dsel (by rw [h.running.sel, here]; rfl)
  have listens : u.dev.ign = false := h.undisturbed.heard (by rw [here]; rfl)
  have answer : deviceAnswer u.cfg u.dev u.draws = (.byte (Memory.read u.dev.mem (readAddr u.cfg s.addr d.length)), u.draws) := by
    simp [deviceAnswer, dsel, fr, listens]
  rw [tick_idleDev (h.undisturbed.ready (by rw [here]; rfl)), phaseStep, here] at run
  simp only [stepRData, if_neg more, exchange_quiet h.undisturbed.quiet, answer, rxByte] at run
  obtain rfl := Host.Outcome.next.inj run
  have next : u.rbuf ++ [Memory.read u.dev.mem (readAddr u.cfg s.addr d.length)] = readBack s.cfg s.dev.mem s.addr (u.rbuf.length + 1) := by
    rw [readBack_succ, ← rbuf, mem, cfg, received]
  have fewer : (u.rem - 1).toNat = u.rem.toNat - 1 := by bv_omega
  have positive : u.rem.toNat ≠ 0 := fun zero => more (BitVec.eq_of_toNat_eq zero)
  by_cases last : u.rem - 1 = 0
  · have all : u.rbuf.length + 1 = n := by rw [last] at fewer; simp at fewer; omega
    simp only [readsSoFar, goto, if_pos last]
    rw [next, all]
  · simp only [readsSoFar, goto, if_neg last, List.length_append, List.length_singleton]
    refine ⟨next, by omega, d ++ [u.cfg.dummy], ?_, by simp [received]⟩
    rw [deviceTake_fr dsel, fr]
    rfl

/-- Every micro-step of a read keeps what `RBUF` holds. -/
theorem Answered.tick_reads (h : Answered o s u k) (reads : o = .rdbyte ∨ o = .read) (busy : u.phase ≠ .idle) (run : Machine.tick u = .next t)
    (mem : u.dev.mem = s.dev.mem) (before : readsSoFar (readLength o s.len) s u) : readsSoFar (readLength o s.len) s t := by
  obtain ⟨k', after⟩ := h.tick busy run
  have noError := after.undisturbed.noError
  by_cases decode : u.phase = .decode
  · simp only [readsSoFar, decode] at before
    exact h.decode_reads reads decode run before.1 before.2
  by_cases data : u.phase = .rData
  · exact h.data_reads data run mem before
  by_cases desel : u.phase = .rDesel
  · have run' : doDeselect .resp (cycleTick u) = .next t := by
      rw [← run, Machine.tick, phaseStep, cycleTick_phase, desel]; rfl
    obtain ⟨_, _, _, rfl, -⟩ := doDeselect_shape run'
    simp only [readsSoFar, desel] at before
    exact fun _ => before
  by_cases resp : u.phase = .resp
  · rw [Machine.tick, phaseStep, cycleTick_phase, resp] at run
    obtain rfl := Host.Outcome.next.inj run
    exact (readsSoFar_ended (.inr rfl)).2 ((readsSoFar_ended (.inl resp)).1 before)
  have pre : preRead u.phase = true := by
    cases phase : u.phase <;> first | rfl | contradiction
  obtain ⟨none, rem⟩ := (readsSoFar_pre pre).1 before
  by_cases addr : u.phase = .rAl
  · exact h.addr_reads addr run noError none rem
  obtain ⟨goesOn, rbuf, same⟩ | error | ⟨ends, error⟩ :=
    (tick_micro run).preRead h.running.op h.running.belongs reads pre addr h.undisturbed.noError
  · exact (readsSoFar_pre goesOn).2 ⟨rbuf.trans none, (congrArg _ same).trans rem⟩
  · exact absurd error noError
  · exact (readsSoFar_ended (.inl ends)).2 fun ok => absurd ok error

end

/-- Settles O43: no micro-step of a read changes the array, `RBUF` grows byte by byte as the array is read (`Answered.tick_reads`), and a
response `OK` comes after the last. -/
theorem readReturnsTheArray : Obligations.ReadReturnsTheArray := by
  unfold Obligations.ReadReturnsTheArray
  intro s u t i o addr len payload n command reads idle desel hq first rest ended ok
  have noWrite : isWrite o = false := by obtain rfl | rfl := reads <;> rfl
  have whole : ∃ k, Answered o (accept (hostOpcode o) addr len payload s) t k ∧ t.dev.mem = s.dev.mem ∧
      readsSoFar (readLength o len) (accept (hostOpcode o) addr len payload s) t :=
    operation_induct (P := fun t => ∃ k, Answered o (accept (hostOpcode o) addr len payload s) t k ∧ t.dev.mem = s.dev.mem ∧
        readsSoFar (readLength o len) (accept (hostOpcode o) addr len payload s) t) command idle
      ⟨0, Answered.commanded command desel hq (fun writes => by rw [noWrite] at writes; cases writes), rfl, rfl, rfl⟩ first rest
      fun _ _ ⟨_, h, mem, sofar⟩ busy run => by
        obtain ⟨k', after⟩ := h.tick busy run
        obtain ⟨-, -, same⟩ := h.running.all busy run
        exact ⟨k', after, (same noWrite).trans mem, h.tick_reads reads busy run mem sofar⟩
  obtain ⟨k, -, -, sofar⟩ := whole
  exact (readsSoFar_ended (.inr ended)).1 sofar ok

end Sys2Proof.Machine
end

section
/-! Operations one after another, and the host's two loops (spec/20_memory.md section 6, spec/42_addressing_engine.md R192,
spec/43_bulk_pseudo_ops.md). -/

namespace Sys2Proof.Machine

/-- An admissible state in `IDLE`, the device answering: an operation can be issued and its response relied on. -/
structure Ready (s : State) : Prop where
  admissible : gate s = none
  idle : s.phase = .idle
  desel : s.sel = false
  answering : quiet s
  canonical : Memory.wf s.dev.mem = true

theorem goesOn_canonical {n : Nat} {s t : State} (wf : Memory.wf s.dev.mem = true) (h : goesOn n s = .next t) :
    Memory.wf t.dev.mem = true :=
  goesOn_induct (P := fun t => Memory.wf t.dev.mem = true) (fun _ _ wf _ run => (tick_micro run).canonical wf) wf h

section
variable {s u t : State} {addr len : Half} {n : Nat}

/-- After its response the next operation can be issued. -/
theorem Ready.operation {i : Instr} (h : Ready s) (host : i.isHost = true) (wf : i.wf = true) (first : exec i s = .next u)
    (rest : goesOn n u = .next t) (ended : t.phase = .idle) : Ready t ∧ t.cfg = s.cfg := by
  obtain ⟨o, addr, len, payload, command⟩ := exists_hostCommand host
  obtain ⟨legal, bp⟩ := gate_none_iff.1 h.admissible
  obtain ⟨k, answered⟩ := operation_answered command h.idle h.desel h.answering (fun _ => ⟨wf, h.admissible⟩) first rest
  obtain ⟨cfg, bp', -⟩ := operation_surroundings first rest
  exact ⟨⟨gate_none_iff.2 ⟨cfg ▸ legal, bp'.trans bp⟩, ended, answered.running.sel.trans (by rw [ended]; rfl), answered.undisturbed.quiet,
    goesOn_canonical (exec_canonical h.canonical first) rest⟩, cfg⟩

/-- WRBYTE answered `OK` has written its byte at its address. -/
theorem Ready.wrbyte {v : Byte} (h : Ready s) (first : exec (.wrbyte addr len v) s = .next u) (rest : goesOn n u = .next t)
    (ended : t.phase = .idle) (ok : t.err = .ok) : t.dev.mem = Memory.write s.dev.mem addr.toNat v ∧ addr.toNat ≤ lastAddr s.cfg := by
  obtain ⟨stored, inside⟩ := writeStoresItsData s u t _ .wrbyte addr len [v] n rfl rfl (.inl rfl) h.admissible h.idle h.desel h.answering
    first rest ended ok
  have legal := (gate_none_iff.1 h.admissible).1
  refine ⟨?_, inside⟩
  rw [stored, storePage, storePage, writeAddr_of_lt_maxRun legal (maxRun_pos legal addr), Nat.add_zero]

/-- RDBYTE answered `OK` has returned the byte at its address, and changed nothing. -/
theorem Ready.rdbyte (h : Ready s) (inside : addr.toNat ≤ lastAddr s.cfg) (first : exec (.rdbyte addr len) s = .next u)
    (rest : goesOn n u = .next t) (ended : t.phase = .idle) (ok : t.err = .ok) : t.rbuf = [Memory.read s.dev.mem addr.toNat] := by
  have returned := readReturnsTheArray s u t _ .rdbyte addr len [] n rfl (.inl rfl) h.idle h.desel h.answering first rest ended ok
  rw [returned, if_pos rfl, ← readAddr_zero (gate_none_iff.1 h.admissible).1 inside]
  rfl

end

/-- Settles O45: WRBYTE has written the byte at its address (`Ready.wrbyte`), and RDBYTE returns the byte there (`Ready.rdbyte`). -/
theorem roundTrip : Obligations.RoundTrip := by
  unfold Obligations.RoundTrip
  intro s u t w x addr len len' v m n admissible idle desel hq canonical first rest ended ok first' rest' ended' ok'
  have start : Ready s := ⟨admissible, idle, desel, hq, canonical⟩
  obtain ⟨between, cfg⟩ := start.operation rfl rfl first rest ended
  obtain ⟨written, inside⟩ := start.wrbyte first rest ended ok
  rw [between.rdbyte (by rw [cfg]; exact inside) first' rest' ended' ok', written, Memory.read_write canonical, if_pos rfl]

/-- Settles O46: both arrays are the one before with the data stored from the address with the page's wrap (`writeStoresItsData`,
`writeFrame`). -/
theorem splitEqualsOneFrame : Obligations.SplitEqualsOneFrame := by
  unfold Obligations.SplitEqualsOneFrame
  intro s u t v addr len data n admissible idle desel hq notBusy some_ length _ first rest ended ok frame
  obtain ⟨legal, bp⟩ := gate_none_iff.1 admissible
  obtain ⟨stored, inside⟩ := writeStoresItsData s u t (.write addr len data) .write addr len data n rfl (beq_iff_eq.2 length) (.inr rfl) admissible idle desel
    hq first rest ended ok
  obtain ⟨v', frame', -, -, -, commits, -⟩ := writeFrame { s with dev := { s.dev with wel := true } } addr data idle hq notBusy bp
  obtain rfl := Host.Outcome.next.inj (frame.symm.trans frame')
  obtain ⟨-, -, committed⟩ := commits rfl some_
  have address : addr.toNat = deviceAddr s.cfg addr := (deviceAddr_le legal inside).symm
  exact stored.trans ((congrArg (storePage s.cfg · 0 data s.dev.mem) address).trans committed.symm)

/-! ### CLEAR_ALL and DUMP_ALL -/

/-- A response that came is one the operation goes on to. -/
theorem awaitResponse_some {n : Nat} : ∀ {s t : State}, awaitResponse n s = some t → goesOn n s = .next t ∧ t.phase = .idle := by
  induction n with
  | zero =>
    intro s t h
    rw [awaitResponse] at h
    split at h
    · next idle => cases h; exact ⟨rfl, idle⟩
    · cases h
  | succ n ih =>
    intro s t h
    rw [awaitResponse] at h
    rw [goesOn]
    split at h
    · next idle => cases h; exact ⟨if_pos idle, idle⟩
    next busy =>
    rw [if_neg busy]
    cases run : resume s with
    | next u => rw [run] at h; exact ih h
    | fault | refused => rw [run] at h; cases h

theorem issue_some {polls : Nat} {i : Instr} {s t : State} (h : issue polls i s = some t) :
    ∃ u, exec i s = .next u ∧ goesOn polls u = .next t ∧ t.phase = .idle := by
  rw [issue] at h
  cases first : exec i s with
  | next u => rw [first] at h; exact ⟨u, rfl, awaitResponse_some h⟩
  | fault | refused => rw [first] at h; cases h

/-- A bulk operation that reports `OK` has had its first command answered `OK`, and goes on with the rest. -/
theorem bulkRun_cons {polls : Nat} {i : Instr} {is : List Instr} {rep r : BulkReport} {s t : State}
    (h : bulkRun polls (i :: is) rep s = some (r, t)) (ok : r.code = .ok) :
    ∃ u v, exec i s = .next u ∧ goesOn polls u = .next v ∧ v.phase = .idle ∧ v.err = .ok ∧
      bulkRun polls is { rep with count := rep.count + 1, out := rep.out ++ v.rbuf } v = some (r, t) := by
  rw [bulkRun] at h
  cases issued : issue polls i s with
  | none => rw [issued] at h; cases h
  | some v =>
    rw [issued] at h
    obtain ⟨u, first, rest, ended⟩ := issue_some issued
    dsimp only at h
    split at h
    · next answered => exact ⟨u, v, first, rest, ended, answered, h⟩
    · next error => cases h; exact absurd ok error

theorem toNat_ofNat_address {c : Config} (legal : configLegal c = true) {a : Nat} (inside : a < c.addrSpaceSize.toNat) :
    (BitVec.ofNat 16 a).toNat = a ∧ a ≤ lastAddr c := by
  obtain ⟨-, ⟨b, small, size⟩, -⟩ := (configLegal_iff c).1 legal
  have most : 2 ^ b ≤ 2 ^ 16 := Nat.pow_le_pow_right (by decide) small
  refine ⟨?_, Nat.le_sub_one_of_lt inside⟩
  rw [BitVec.toNat_ofNat]
  exact Nat.mod_eq_of_lt (by omega)

/-- CLEAR_ALL over addresses `as`: each holds 0 then, and no other byte has changed. -/
theorem clear_run {polls : Nat} (as : List Nat) : ∀ {rep r : BulkReport} {s t : State}, Ready s →
    (∀ a ∈ as, a < s.cfg.addrSpaceSize.toNat) → bulkRun polls (as.map clearCommand) rep s = some (r, t) → r.code = .ok →
    Ready t ∧ t.cfg = s.cfg ∧ r.count = rep.count + as.length ∧
      ∀ x, Memory.read t.dev.mem x = if x ∈ as then 0x00 else Memory.read s.dev.mem x := by
  induction as with
  | nil =>
    intro rep r s t ready _ run _
    cases run
    exact ⟨ready, rfl, rfl, fun x => by simp⟩
  | cons a as ih =>
    intro rep r s t ready inside run ok
    obtain ⟨u, v, first, rest, ended, answered, run⟩ := bulkRun_cons run ok
    obtain ⟨ready', cfg⟩ := ready.operation rfl rfl first rest ended
    obtain ⟨written, -⟩ := ready.wrbyte first rest ended answered
    obtain ⟨ready'', cfg', count, reads⟩ := ih ready' (fun x listed => by rw [cfg]; exact inside x (List.mem_cons_of_mem _ listed)) run ok
    have address := (toNat_ofNat_address (gate_none_iff.1 ready.admissible).1 (inside a List.mem_cons_self)).1
    refine ⟨ready'', cfg'.trans cfg, by rw [count, List.length_cons]; show rep.count + 1 + as.length = _; omega, fun x => ?_⟩
    rw [reads, written, address, Memory.read_write ready.canonical]
    by_cases here : x = a
    · simp [here]
    · simp [here]

/-- DUMP_ALL over addresses `as` reports the byte at each, and changes none. -/
theorem dump_run {polls : Nat} (as : List Nat) : ∀ {rep r : BulkReport} {s t : State}, Ready s →
    (∀ a ∈ as, a < s.cfg.addrSpaceSize.toNat) → bulkRun polls (as.map dumpCommand) rep s = some (r, t) → r.code = .ok →
    (∀ x, Memory.read t.dev.mem x = Memory.read s.dev.mem x) ∧ r.count = rep.count + as.length ∧
      r.out = rep.out ++ as.map (Memory.read s.dev.mem) := by
  induction as with
  | nil =>
    intro rep r s t _ _ run _
    cases run
    exact ⟨fun x => rfl, rfl, by simp⟩
  | cons a as ih =>
    intro rep r s t ready inside run ok
    obtain ⟨u, v, first, rest, ended, answered, run⟩ := bulkRun_cons run ok
    obtain ⟨ready', cfg⟩ := ready.operation rfl rfl first rest ended
    obtain ⟨address, valid⟩ := toNat_ofNat_address (gate_none_iff.1 ready.admissible).1 (inside a List.mem_cons_self)
    have returned := ready.rdbyte (by rw [address]; exact valid) first rest ended answered
    have same : sameArray s v := (readingFrame s u v _ polls rfl ready.idle ready.desel first rest).1
    obtain ⟨same', count, out⟩ := ih ready' (fun x listed => by rw [cfg]; exact inside x (List.mem_cons_of_mem _ listed)) run ok
    refine ⟨fun x => (same' x).trans (same x), by rw [count, List.length_cons]; show rep.count + 1 + as.length = _; omega, ?_⟩
    rw [out, returned, address, List.map_cons, List.map_congr_left fun x _ => same x]
    simp

/-- Settles O60: CLEAR_ALL leaves 0 at every address (`clear_run`), so DUMP_ALL reports as many zeros (`dump_run`). -/
theorem clearThenDump : Obligations.ClearThenDump := by
  unfold Obligations.ClearThenDump
  intro s t u p q r1 r2 admissible idle desel hq canonical clears ok1 dumps ok2
  obtain ⟨ready, cfg, count, zero⟩ := clear_run _ ⟨admissible, idle, desel, hq, canonical⟩ (fun a => List.mem_range.1) clears ok1
  obtain ⟨same, count', out⟩ := dump_run _ ready (fun a => List.mem_range.1) dumps ok2
  have zeros {x : Nat} (inside : x < s.cfg.addrSpaceSize.toNat) : Memory.read t.dev.mem x = 0x00 :=
    (zero x).trans (if_pos (List.mem_range.2 inside))
  rw [cfg] at count' out
  refine ⟨?_, ?_, fun a inside => (same a).trans (zeros inside), ?_⟩
  · rw [count, List.length_range, Nat.zero_add]
  · rw [count', List.length_range, Nat.zero_add]
  · rw [out, List.nil_append, List.map_congr_left fun x listed => zeros (List.mem_range.1 listed), List.map_const', List.length_range]

end Sys2Proof.Machine
end

section
/-! A transport failure: how it ends the operation, and what the device makes of the frame it cuts (spec/60_exceptions.md R214, R216,
R220, spec/20_memory.md R75). -/

namespace Sys2Proof.Machine

theorem exchange_fails {s : State} {rest : List Answer} (script : s.script = .err :: rest) (tx : Byte) :
    exchange tx s = (.err, afterFailure tx s) := by
  simp only [exchange, transfer, script, List.head?_cons]
  simp [afterFailure, emit, script]

theorem sendByte_fails {s : State} {rest : List Answer} (script : s.script = .err :: rest) (tx : Byte) (p : Phase) :
    sendByte tx p s = raise .transportError (afterFailure tx s) := by
  rw [sendByte, exchange_fails script]

/-- An exchange the transport answers `ERR` raises `TransportError` (60_exceptions.md R214). -/
theorem phaseStep_fails {s : State} {tx : Byte} {rest : List Answer} (sends : byteSent s = some tx)
    (data : countInv s.phase s.run s.rem = true) (script : s.script = .err :: rest) :
    phaseStep s = .next (raise .transportError (afterFailure tx s)) := by
  unfold byteSent at sends
  cases phase : s.phase <;> rw [phase] at sends data <;> simp only [Option.some.injEq, reduceCtorEq] at sends
  case pOp | eOp | wOp | wAh | wAl | rOp | rAh | rAl =>
    subst sends
    rw [phaseStep, phase]
    exact congrArg _ (sendByte_fails script _ _)
  case pDummy =>
    subst sends
    simp only [phaseStep, phase, stepPDummy, exchange_fails script, rxStatus]
  case wData =>
    have left : s.run ≠ 0 := by simpa [countInv] using data
    simp only [phaseStep, phase, stepWData, if_neg left, sends, exchange_fails script, rxByte]
  case rData =>
    subst sends
    have left : s.rem ≠ 0 := by simpa [countInv] using data
    simp only [phaseStep, phase, stepRData, if_neg left, exchange_fails script, rxByte]

/-- The array `m` after a WRITE frame whose bytes after the opcode are given, the latch `wel` (20_memory.md R70 (b), (c), R75). -/
def committedArray (c : Config) (wel : Bool) (m : Memory) : List Byte → Memory
  | ah :: al :: data => if wel = true then storePage c (deviceAddr c (joinBytes ah al)) 0 data m else m
  | _ => m

/-- The array after a deselect. -/
def deselectedArray (c : Config) (d : Device) : Memory :=
  match d.fr with
  | op :: rest => if wireOpOf op = some .write ∧ d.ign = false then committedArray c d.wel d.mem rest else d.mem
  | [] => d.mem

theorem commitWrite_mem {s t : State} {rest : List Byte} (h : commitWrite rest s = .next t) :
    t.dev.mem = committedArray s.cfg s.dev.wel s.dev.mem rest := by
  match rest with
  | [] | [_] => cases h; rfl
  | [ah, al] =>
    obtain ⟨_, _, _, _, _, empty, -⟩ := commitEmpty_eq s
    have same : t.dev.mem = s.dev.mem := by
      simp only [commitWrite, empty] at h
      split at h <;> cases h <;> rfl
    rw [same, committedArray, storePage, ite_self]
  | ah :: al :: b :: bs =>
    simp only [commitWrite] at h
    rw [committedArray]
    split at h
    · next wel =>
      rw [if_pos wel]
      split at h
      · cases h; rw [startCycle_mem]
      · cases h
    · next unlatched => cases h; rw [if_neg unlatched]

theorem deviceDeselect_mem {s t : State} (h : deviceDeselect s = .next t) : t.dev.mem = deselectedArray s.cfg s.dev := by
  unfold deselectedArray
  unfold deviceDeselect at h
  dsimp only at h
  split at h
  · next ignored =>
    cases h
    split
    · rw [if_neg (by simp [ignored])]
    · rfl
  next listens =>
  split at h
  · next empty => cases h; simp only [empty]
  next op rest fr =>
  simp only [fr]
  split at h
  · next wren => rw [if_neg (by simp [wren])]; split at h <;> cases h <;> rfl
  · next write =>
    rw [if_pos ⟨write, Bool.eq_false_iff.2 listens⟩]
    exact commitWrite_mem (s := { s with dev := { s.dev with dsel := false } }) h
  · next read => cases h; rw [if_neg (by simp [read])]
  · next rdsr => cases h; rw [if_neg (by simp [rdsr])]
  · next wrdi => cases h; rw [if_neg (by simp [wrdi])]
  · cases h
  · cases h

theorem doDeselect_mem {p : Phase} {s t : State} (h : doDeselect p s = .next t) : t.dev.mem = deselectedArray s.cfg s.dev := by
  obtain ⟨u, deselects, rfl⟩ := doDeselect_cases h
  exact deviceDeselect_mem (t := u) deselects

theorem deselectedArray_ignored (c : Config) {d : Device} (ignored : d.ign = true) : deselectedArray c d = d.mem := by
  unfold deselectedArray
  split
  · rw [if_neg (by simp [ignored])]
  · rfl

/-- A frame taken as far as it was received. -/
theorem cutArray_taken {s : State} {tx : Byte} (taken : s.dev.model.cutFrame = .taken) {fr : List Byte} {ign : Bool}
    (frame : fr = s.dev.fr ++ if s.dev.model.failedByte = .received then [tx] else [])
    (listens : s.dev.fr ≠ [] → ign = s.dev.ign) :
    deselectedArray s.cfg { s.dev with fr := fr, ign := ign } = cutArray s tx := by
  unfold cutArray deselectedArray
  rw [taken, ← frame]
  match fr, frame with
  | [], _ => rfl
  | [op], _ | [op, ah], _ => simp [committedArray]
  | op :: ah :: al :: data, frame =>
    have begun : s.dev.fr ≠ [] := fun empty => by
      rw [empty] at frame
      split at frame <;> cases frame
    simp only [committedArray, listens begun]
    split <;> simp_all

/-- What a device's deselect makes of the frame cut by a failed exchange (93_implementation_defined.md U13, U17). -/
theorem deselectedArray_failed {s : State} (tx : Byte) (dsel : s.dev.dsel = true) :
    deselectedArray s.cfg (deviceFail tx s.dev) = cutArray s tx := by
  have cut (d : Device) (model : d.model = s.dev.model) (taken : s.dev.model.cutFrame = .taken → deselectedArray s.cfg d = cutArray s tx)
      (mem : d.mem = s.dev.mem) : deselectedArray s.cfg (deviceCut d) = cutArray s tx := by
    have ignored (policy : s.dev.model.cutFrame ≠ .taken) : cutArray s tx = s.dev.mem := by
      unfold cutArray
      split
      · next policy' _ => exact absurd policy' policy
      · rfl
    unfold deviceCut
    rw [model]
    cases policy : s.dev.model.cutFrame with
    | taken => exact taken policy
    | ignored | disarming =>
      rw [ignored (by rw [policy]; decide)]
      exact (deselectedArray_ignored _ rfl).trans mem
  rw [deviceFail, if_pos dsel]
  cases failed : s.dev.model.failedByte with
  | dropped => exact cut s.dev rfl (fun taken => cutArray_taken taken (by rw [failed]; simp) fun _ => rfl) rfl
  | received =>
    refine cut (deviceTake tx s.dev) (deviceTake_model _ _) (fun taken => ?_) (deviceTake_mem _ _)
    rw [deviceTake, if_pos dsel]
    exact cutArray_taken taken (by rw [failed]; rfl) fun begun => if_neg begun

/-- Settles O38: the failed exchange raises with chip-select asserted (`phaseStep_fails`), `X_DESEL` deselects, which the invariant lets
every device answer, and `RESP` responds; an idle device's turns change nothing, and its deselect leaves `cutArray`. -/
theorem transportErrorEnds : Obligations.TransportErrorEnds := by
  unfold Obligations.TransportErrorEnds
  intro s rest inv exchanges script
  obtain ⟨-, ⟨sel, dsel, -⟩, ⟨-, -, counts, -, -⟩, -⟩ := id inv
  have selected := sel.trans (exchangePhase_selected exchanges)
  obtain ⟨tx, sends⟩ := inv.sends exchanges
  have fails := phaseStep_fails (s := cycleTick s) (tx := tx) sends counts script
  have raised : (raise .transportError (afterFailure tx (cycleTick s))).phase = .xDesel := if_pos selected
  obtain ⟨u, deselects⟩ := (inv.turn.phaseStep fails).turn.deselects (by rw [cycleTick_phase, raised]; rfl) .resp
  obtain ⟨d, cs, k, shape, desel, -, -⟩ := doDeselect_shape deselects
  have mem := doDeselect_mem deselects
  have runs : Runs 2 s u := Runs.cons fails (by rw [raised]; cases s.phase <;> rfl) <|
    Runs.cons (by rw [tick, phaseStep, cycleTick_phase, raised]; exact deselects) (by rw [raised, shape]; rfl) rfl
  refine ⟨_, tx, runs.respond (by rw [shape]) (by decide), ?_, ?_, fun notBusy => ?_⟩
  · rw [shape]
    exact ⟨rfl, rfl, desel, rfl, rfl⟩
  · rw [shape]
    show ((s.trace ++ [Event.xfer tx .err]) ++ [Event.desel s.cfg.csId]) ++ [Event.rsp .transportError []] = _
    simp
  · have failed : (cycleTick (raise .transportError (afterFailure tx (cycleTick s)))).dev = deviceFail tx s.dev := by
      rw [cycleTick_idle notBusy]
      exact deviceTurn_idle ((deviceFail_wip tx s.dev).trans notBusy)
    rw [failed] at mem
    exact mem.trans (deselectedArray_failed tx (dsel.trans selected))

end Sys2Proof.Machine
end

section
/-! Every operation responds when write cycles end: micro-steps go on, and each leaves less to do (spec/00_scope.md R16,
spec/20_memory.md R71, spec/40_status_poller.md R133). -/

namespace Sys2Proof.Machine

/-! ### No micro-step stops -/

section
variable {o : HostOp} {k : Nat} {s t : State}

/-- The frame held is one of the sequencer's own. -/
theorem Running.ownFrame (h : Running o k s) : frameInv s.phase s.dev.fr = true := by
  have held := h.fr
  unfold heldFrame at held
  cases phase : s.phase <;> rw [phase] at held
  case xDesel =>
    obtain fr | ⟨r, fr⟩ | ⟨r, fr⟩ | ⟨r, fr⟩ | fr | fr | ⟨-, n, fr⟩ := held <;> rw [fr] <;> rfl
  case rData | rDesel => obtain ⟨d, fr⟩ := held; rw [fr]; rfl
  case pOp | eOp | wOp | rOp | pDummy | pDesel | eDesel | wAh | wAl | wData | wDesel | rAh | rAl => rw [held]; rfl
  all_goals rfl

/-- The phases of a write frame are those of the writes. -/
theorem isWrite_of_writeFrame (belongs : opInv .wDesel (some o) = true) : isWrite o = true := by
  cases o <;> first | rfl | cases belongs

/-- An exchange phase has a byte to send. -/
theorem Running.sends (h : Running o k s) (exchanges : exchangePhase s.phase = true) : ∃ tx, byteSent s = some tx := by
  cases phase : s.phase <;> rw [phase] at exchanges <;> try cases exchanges
  case wData =>
    have writes : isWrite o = true := by
      have belongs := h.belongs
      rw [phase] at belongs
      exact isWrite_of_writeFrame belongs
    have chunk := h.ch writes (by rw [phase]; decide) (by rw [phase]; decide) (by rw [phase]; decide)
    have left : s.run ≠ 0 := by simpa [phase, countInv] using h.count
    have positive : s.run.toNat ≠ 0 := fun zero => left (BitVec.eq_of_toNat_eq zero)
    have total := chunk.total
    have lt : s.idx.toNat < s.wbuf.length := by omega
    exact ⟨s.wbuf[s.idx.toNat], by simp only [byteSent, phase]; exact List.getElem?_eq_getElem lt⟩
  all_goals exact ⟨_, by rw [byteSent, phase]⟩

/-- An operation in progress takes a next micro-step. -/
theorem Running.progress (h : Running o k s) (bp : s.dev.bp = 0) : ∃ t, Machine.tick s = .next t := by
  have deselects (sel : selectedPhase s.phase = true) (p : Phase) : ∃ t, doDeselect p (cycleTick s) = .next t := by
    obtain ⟨u, deselects⟩ := deviceDeselect_next (s := cycleTick s) bp fun op rest fr =>
      emittedOpcode_of_frame sel (by rw [← fr]; exact h.ownFrame)
    exact ⟨_, by rw [doDeselect, deselects]; rfl⟩
  cases exchanges : exchangePhase s.phase with
  | true =>
    obtain ⟨tx, sends⟩ := h.turn.sends exchanges
    obtain failed | ⟨r, d, -, answered⟩ := phaseStep_exchange sends h.turn.count
    · exact ⟨_, failed⟩
    · exact ⟨_, answered⟩
  | false =>
    rw [Machine.tick, phaseStep, cycleTick_phase]
    cases phase : s.phase <;> rw [phase] at exchanges deselects
    case pOp | pDummy | eOp | wOp | wAh | wAl | wData | rOp | rAh | rAl | rData => cases exchanges
    case pDesel | eDesel | wDesel | rDesel | xDesel => exact deselects rfl _
    case pTest =>
      dsimp only
      rw [stepPTest]
      split
      · exact ⟨_, rfl⟩
      · rw [afterWait, cycleTick_op, h.op]
        cases o <;> exact ⟨_, rfl⟩
    all_goals exact ⟨_, rfl⟩

end

/-! ### Less to do -/

/-- The chunks, at most, that are still to be sent, counted by the bytes left. -/
def workLeft (s : State) : Nat :=
  s.rem.toNat + match s.phase with
    | .wNext | .resp | .idle => 0
    | _ => 1

/-- The turns until a running write cycle ends. -/
def turnsLeft (d : Device) : Nat :=
  match d.wip, d.cycle with
  | true, some k => k + 1
  | _, _ => 0

/-- How far the phase is from the response; a busy answer is on its way back to `P_DELAY`. -/
def phasesLeft (p : Phase) (busy : Bool) : Nat :=
  match p, busy with
  | .pDesel, true => 40
  | .pTest, true => 39
  | .wNext, _ => 38
  | .pDelay, _ => 36
  | .pSel, _ => 35
  | .pOp, _ => 34
  | .pDummy, _ => 33
  | .pDesel, false => 32
  | .pTest, false => 31
  | .eSel, _ => 30
  | .eOp, _ => 29
  | .eDesel, _ => 28
  | .eDelay, _ => 27
  | .wSel, _ => 26
  | .wOp, _ => 25
  | .wAh, _ => 24
  | .wAl, _ => 23
  | .wData, _ => 22
  | .wDesel, _ => 21
  | .rSel, _ => 20
  | .rOp, _ => 19
  | .rAh, _ => 18
  | .rAl, _ => 17
  | .rData, _ => 16
  | .rDesel, _ => 15
  | .resp, _ => 1
  | _, _ => 0

/-- The same with the bytes left, each of them a micro-step. -/
def stepsLeft (s : State) : Nat := phasesLeft s.phase s.sr.wip + s.run.toNat + s.rem.toNat

/-- What is left to do: chunks first, then the cycle that runs, then phases. -/
def toDo (s : State) : ℕ ×ₗ ℕ ×ₗ ℕ := toLex (workLeft s, toLex (turnsLeft s.dev, stepsLeft s))

theorem toDo_lt_of_work {s t : State} (less : workLeft t < workLeft s) : toDo t < toDo s :=
  Prod.Lex.toLex_lt_toLex.2 (.inl less)

theorem toDo_lt_of_turns {s t : State} (work : workLeft t ≤ workLeft s) (less : turnsLeft t.dev < turnsLeft s.dev) : toDo t < toDo s := by
  obtain fewer | same := Nat.lt_or_eq_of_le work
  · exact toDo_lt_of_work fewer
  · exact Prod.Lex.toLex_lt_toLex.2 (.inr ⟨same, Prod.Lex.toLex_lt_toLex.2 (.inl less)⟩)

theorem toDo_lt_of_steps {s t : State} (work : workLeft t ≤ workLeft s) (turns : turnsLeft t.dev ≤ turnsLeft s.dev)
    (less : stepsLeft t < stepsLeft s) : toDo t < toDo s := by
  obtain fewer | same := Nat.lt_or_eq_of_le turns
  · exact toDo_lt_of_turns work fewer
  obtain fewer | same' := Nat.lt_or_eq_of_le work
  · exact toDo_lt_of_work fewer
  · exact Prod.Lex.toLex_lt_toLex.2 (.inr ⟨same', Prod.Lex.toLex_lt_toLex.2 (.inr ⟨same, less⟩)⟩)

/-- A cycle that ends still ends after a turn. -/
theorem deviceTurn_ends {d : Device} (ends : d.wip = true → d.cycle ≠ none) : (deviceTurn d).wip = true → (deviceTurn d).cycle ≠ none := by
  cases wip : d.wip with
  | false => rw [deviceTurn_idle wip, wip]; exact nofun
  | true =>
    cases cycle : d.cycle with
    | none => exact absurd cycle (ends wip)
    | some k => cases k <;> simp [deviceTurn, cycleEnds, cycleLeft, wip, cycle]

/-- It comes nearer to its end by every turn. -/
theorem turnsLeft_turn {d : Device} (ends : d.wip = true → d.cycle ≠ none) :
    turnsLeft (deviceTurn d) ≤ turnsLeft d ∧ ((deviceTurn d).wip = true → turnsLeft (deviceTurn d) < turnsLeft d) := by
  cases wip : d.wip with
  | false => rw [deviceTurn_idle wip, wip]; exact ⟨le_rfl, nofun⟩
  | true =>
    cases cycle : d.cycle with
    | none => exact absurd cycle (ends wip)
    | some k => cases k <;> simp [deviceTurn, cycleEnds, cycleLeft, turnsLeft, wip, cycle]

/-! ### Write cycles -/

theorem startCycle_cons {s : State} {e : Option Nat} {rest : List (Option Nat)} (cycles : s.cycles = e :: rest) :
    (startCycle s).dev.wip = true ∧ (startCycle s).dev.cycle = e ∧ (startCycle s).cycles = rest := by
  unfold startCycle
  rw [cycles]
  exact ⟨rfl, rfl, rfl⟩

/-- The cycle that runs and those to come, after a deselect: as before, or the first to come has begun. -/
def cycleBegins (s t : State) : Prop :=
  t.dev.wip = s.dev.wip ∧ t.dev.cycle = s.dev.cycle ∧ t.cycles = s.cycles ∨
    ∀ e rest, s.cycles = e :: rest → t.dev.wip = true ∧ t.dev.cycle = e ∧ t.cycles = rest

theorem commitWrite_cycle {s t : State} {rest : List Byte} (h : commitWrite rest s = .next t) : cycleBegins s t := by
  match rest with
  | [] | [_] => cases h; exact .inl ⟨rfl, rfl, rfl⟩
  | [ah, al] =>
    simp only [commitWrite] at h
    split at h
    · cases h
      unfold commitEmpty
      split
      · exact .inl ⟨rfl, rfl, rfl⟩
      · exact .inl ⟨rfl, rfl, rfl⟩
      · exact .inr fun e rest cycles => startCycle_cons cycles
    · cases h; exact .inl ⟨rfl, rfl, rfl⟩
  | ah :: al :: b :: bs =>
    simp only [commitWrite] at h
    split at h
    · split at h
      · cases h; exact .inr fun e rest cycles => startCycle_cons (s := { s with dev := _ }) cycles
      · cases h
    · cases h; exact .inl ⟨rfl, rfl, rfl⟩

/-- Only the deselect of a WRITE frame begins a cycle. -/
theorem deviceDeselect_cycle {s t : State} (h : deviceDeselect s = .next t) :
    cycleBegins s t ∧ ((∀ op rest, s.dev.fr = op :: rest → wireOpOf op ≠ some .write) →
      t.dev.wip = s.dev.wip ∧ t.dev.cycle = s.dev.cycle ∧ t.cycles = s.cycles) := by
  have same {u : State} (kept : u.dev.wip = s.dev.wip ∧ u.dev.cycle = s.dev.cycle ∧ u.cycles = s.cycles) : cycleBegins s u ∧
      ((∀ op rest, s.dev.fr = op :: rest → wireOpOf op ≠ some .write) →
        u.dev.wip = s.dev.wip ∧ u.dev.cycle = s.dev.cycle ∧ u.cycles = s.cycles) := ⟨.inl kept, fun _ => kept⟩
  unfold deviceDeselect at h
  dsimp only at h
  split at h
  · cases h; exact same ⟨rfl, rfl, rfl⟩
  split at h
  · cases h; exact same ⟨rfl, rfl, rfl⟩
  next op rest fr =>
  split at h
  · split at h <;> cases h <;> exact same ⟨rfl, rfl, rfl⟩
  · next write =>
    exact ⟨commitWrite_cycle (s := { s with dev := { s.dev with dsel := false } }) h, fun notWrite => absurd write (notWrite op rest fr)⟩
  · cases h; exact same ⟨rfl, rfl, rfl⟩
  · cases h; exact same ⟨rfl, rfl, rfl⟩
  · cases h; exact same ⟨rfl, rfl, rfl⟩
  · cases h
  · cases h

theorem doDeselect_cycle {p : Phase} {s t : State} (h : doDeselect p s = .next t) :
    cycleBegins s t ∧ ((∀ op rest, s.dev.fr = op :: rest → wireOpOf op ≠ some .write) →
      t.dev.wip = s.dev.wip ∧ t.dev.cycle = s.dev.cycle ∧ t.cycles = s.cycles) := by
  obtain ⟨u, deselects, rfl⟩ := doDeselect_cases h
  exact deviceDeselect_cycle (t := u) deselects

/-- What a deselect leaves of the registers that say what is left to do. -/
theorem doDeselect_registers {p : Phase} {s t : State} (h : doDeselect p s = .next t) :
    t.phase = p ∧ t.run = s.run ∧ t.rem = s.rem ∧ t.sr = s.sr ∧ t.err = s.err := by
  obtain ⟨_, _, _, rfl, -⟩ := doDeselect_shape h
  exact ⟨rfl, rfl, rfl, rfl, rfl⟩

/-- Operation `o` of command registers `s` under way in `t` with nothing in the way of its response: no limit, no error, every cycle
ends, and as many are known to come as there may be frames. -/
structure Live (o : HostOp) (s t : State) (k : Nat) : Prop where
  answered : Answered o s t k
  admissible : gate s = none
  limit : s.cfg.pollLimit = none
  decoded : t.phase ≠ .decode
  err : t.err = .ok
  ends : t.dev.wip = true → t.dev.cycle ≠ none
  coming : ∀ e ∈ t.cycles, e ≠ none
  enough : isWrite o = true → workLeft t ≤ t.cycles.length

/-- What a micro-step of such an operation leaves: cycles that end, and less to do, or no more with a turn of the running cycle gone. -/
structure Advances (o : HostOp) (s t : State) : Prop where
  work : workLeft t ≤ workLeft s
  err : t.err = .ok
  ends : t.dev.wip = true → t.dev.cycle ≠ none
  coming : ∀ e ∈ t.cycles, e ≠ none
  enough : isWrite o = true → workLeft t ≤ t.cycles.length
  less : workLeft t < workLeft s ∨ turnsLeft t.dev = turnsLeft s.dev ∧ (stepsLeft t < stepsLeft s ∨ s.dev.wip = true)

/-- A micro-step that keeps the cycle running, the cycles to come and `ERR`. -/
theorem Advances.quietly {o : HostOp} {s t : State} {k : Nat} {c : State} (h : Live o c s k) (wip : t.dev.wip = s.dev.wip) (cycle : t.dev.cycle = s.dev.cycle)
    (cycles : t.cycles = s.cycles) (err : t.err = s.err) (work : workLeft t ≤ workLeft s)
    (less : workLeft t < workLeft s ∨ stepsLeft t < stepsLeft s ∨ s.dev.wip = true) : Advances o s t where
  work := work
  err := err.trans h.err
  ends := by rw [wip, cycle]; exact h.ends
  coming := by rw [cycles]; exact h.coming
  enough writes := by rw [cycles]; exact work.trans (h.enough writes)
  less := less.imp_right fun less => ⟨by rw [turnsLeft, wip, cycle]; rfl, less⟩

theorem Live.turn {o : HostOp} {c s : State} {k : Nat} (h : Live o c s k) : Live o c (cycleTick s) k where
  answered := ⟨h.answered.running.turn, h.answered.undisturbed.turn, h.answered.fixed, h.answered.unprotected⟩
  admissible := h.admissible
  limit := h.limit
  decoded := h.decoded
  err := h.err
  ends := deviceTurn_ends h.ends
  coming := h.coming
  enough := h.enough

theorem workLeft_of_mid {s : State} (mid : s.phase ≠ .wNext ∧ s.phase ≠ .resp ∧ s.phase ≠ .idle) : workLeft s = s.rem.toNat + 1 := by
  obtain ⟨notNext, notResp, notIdle⟩ := mid
  unfold workLeft
  split <;> simp_all

theorem workLeft_le (s : State) : workLeft s ≤ s.rem.toNat + 1 := by
  unfold workLeft
  split <;> omega

/-- A phase before the end of its frame that keeps `REM` and goes to a nearer phase. -/
theorem Advances.moves {o : HostOp} {s t : State} {k : Nat} {c : State} (h : Live o c s k) (wip : t.dev.wip = s.dev.wip)
    (cycle : t.dev.cycle = s.dev.cycle) (cycles : t.cycles = s.cycles) (err : t.err = s.err)
    (mid : s.phase ≠ .wNext ∧ s.phase ≠ .resp ∧ s.phase ≠ .idle) (run : t.run = s.run) (rem : t.rem = s.rem)
    (nearer : phasesLeft t.phase t.sr.wip < phasesLeft s.phase s.sr.wip) : Advances o s t := by
  refine Advances.quietly h wip cycle cycles err ?_ (.inr (.inl ?_))
  · rw [workLeft_of_mid mid, ← rem]; exact workLeft_le t
  · simp only [stepsLeft, run, rem]; omega

theorem phasesLeft_answered {s : State} (exchanges : exchangePhase s.phase = true) (notPayload : s.phase ≠ .wData)
    (notRead : s.phase ≠ .rData) (notStatus : s.phase ≠ .pDummy) (busy : Bool) :
    phasesLeft (answeredPhase s) busy < phasesLeft s.phase busy := by
  unfold answeredPhase
  cases phase : s.phase <;> rw [phase] at exchanges <;> try cases exchanges
  case wData => exact absurd phase notPayload
  case rData => exact absurd phase notRead
  case pDummy => exact absurd phase notStatus
  case wAl | rAl => dsimp only; split <;> simp [phasesLeft]
  all_goals simp [phasesLeft]

section
variable {o : HostOp} {c s t : State} {k : Nat}

/-- An answered exchange: the payload or `REM` has a byte less, or the phase is nearer; a status read that finds a cycle running is
allowed to be the exception. -/
theorem Live.answers (h : Live o c s k) {tx : Byte} {r : Rx} {d : Nat} (sends : byteSent s = some tx)
    (data : countInv s.phase s.run s.rem = true) (read : s.phase = .pDummy → (afterAnswer tx r d s).sr.wip = s.dev.wip) :
    Advances o s (afterAnswer tx r d s) := by
  have exchanges := byteSent_exchanges sends
  have mid : s.phase ≠ .wNext ∧ s.phase ≠ .resp ∧ s.phase ≠ .idle := by
    refine ⟨?_, ?_, ?_⟩ <;> intro here <;> rw [here] at exchanges <;> cases exchanges
  have wip : (afterAnswer tx r d s).dev.wip = s.dev.wip := deviceTake_wip tx s.dev
  have cycle : (afterAnswer tx r d s).dev.cycle = s.dev.cycle := deviceTake_cycle tx s.dev
  by_cases payload : s.phase = .wData
  · have left : s.run ≠ 0 := by simpa [payload, countInv] using data
    have fewer : (s.run - 1).toNat + 1 = s.run.toNat := by bv_omega
    have rem : (afterAnswer tx r d s).rem = s.rem := if_neg (by rw [payload]; decide)
    refine Advances.quietly h wip cycle rfl rfl (by rw [workLeft_of_mid mid, ← rem]; exact workLeft_le _) (.inr (.inl ?_))
    simp only [stepsLeft, afterAnswer, answeredPhase, payload]
    split <;> simp [phasesLeft] <;> omega
  by_cases reads : s.phase = .rData
  · have left : s.rem ≠ 0 := by simpa [reads, countInv] using data
    have fewer : (s.rem - 1).toNat + 1 = s.rem.toNat := by bv_omega
    have rem : (afterAnswer tx r d s).rem = s.rem - 1 := if_pos reads
    have less : workLeft (afterAnswer tx r d s) < workLeft s := by
      have most := workLeft_le (afterAnswer tx r d s)
      rw [rem] at most
      rw [workLeft_of_mid mid]
      omega
    exact Advances.quietly h wip cycle rfl rfl less.le (.inl less)
  have run : (afterAnswer tx r d s).run = s.run := if_neg payload
  have rem : (afterAnswer tx r d s).rem = s.rem := if_neg reads
  by_cases status : s.phase = .pDummy
  · have phase : (afterAnswer tx r d s).phase = .pDesel := by simp only [afterAnswer, answeredPhase, status]
    cases busy : s.dev.wip with
    | true =>
      exact Advances.quietly h wip cycle rfl rfl (by rw [workLeft_of_mid mid, ← rem]; exact workLeft_le _)
        (.inr (.inr busy))
    | false =>
      refine Advances.moves h wip cycle rfl rfl mid run rem ?_
      rw [phase, status, read status, busy]
      cases s.sr.wip <;> decide
  · refine Advances.moves h wip cycle rfl rfl mid run rem ?_
    have sr : (afterAnswer tx r d s).sr = s.sr := if_neg status
    rw [sr]
    exact phasesLeft_answered (byteSent_exchanges sends) payload reads status _

/-- The end of a WRITE frame: a chunk less, and its cycle, if one begins, is the first of those to come. -/
theorem Live.commits (h : Live o c s k) (here : s.phase = .wDesel) (run : doDeselect .wNext s = .next t) : Advances o s t := by
  obtain ⟨phase, -, rem, -, err⟩ := doDeselect_registers run
  have writes : isWrite o = true := by
    have belongs := h.answered.running.belongs
    rw [here] at belongs
    exact isWrite_of_writeFrame belongs
  have before : workLeft s = s.rem.toNat + 1 := workLeft_of_mid (by rw [here]; decide)
  have after : workLeft t = s.rem.toNat := by simp only [workLeft, phase, rem]; rfl
  have less : workLeft t < workLeft s := by omega
  obtain ⟨wip, cycle, cycles⟩ | begins := (doDeselect_cycle run).1
  · exact Advances.quietly h wip cycle cycles err less.le (.inl less)
  have enough := h.enough writes
  match coming : s.cycles with
  | [] =>
    rw [coming, before] at enough
    cases enough
  | e :: rest =>
    obtain ⟨-, cycle, cycles⟩ := begins e rest coming
    have ends := h.coming
    rw [coming] at ends
    rw [coming, List.length_cons] at enough
    exact ⟨less.le, err.trans h.err, fun _ => by rw [cycle]; exact ends e List.mem_cons_self,
      fun e listed => ends e (List.mem_cons_of_mem _ (cycles ▸ listed)), fun _ => by rw [cycles]; omega, .inl less⟩

theorem phasesLeft_deselects {p q : Phase} (here : deselectsAt p = some q) (notWrite : p ≠ .wDesel) (noError : p ≠ .xDesel) (busy : Bool) :
    phasesLeft q busy < phasesLeft p busy := by
  cases p <;> cases here
  case wDesel => exact absurd rfl notWrite
  case xDesel => exact absurd rfl noError
  all_goals cases busy <;> decide

/-- A status read, a write-enable frame and a READ frame do not begin with WRITE's opcode. -/
theorem Running.holdsOther (h : Running o k s) {p : Phase} (here : deselectsAt s.phase = some p) (notWrite : s.phase ≠ .wDesel)
    (noError : s.phase ≠ .xDesel) : ∀ op rest, s.dev.fr = op :: rest → wireOpOf op ≠ some .write := by
  intro op rest fr
  have held := h.fr
  unfold heldFrame at held
  cases phase : s.phase <;> rw [phase] at held here <;> try cases here
  case wDesel => exact absurd phase notWrite
  case xDesel => exact absurd phase noError
  case pDesel | eDesel => rw [held, List.cons.injEq] at fr; rw [← fr.1]; decide
  case rDesel => obtain ⟨d, held⟩ := held; rw [held, List.cons.injEq] at fr; rw [← fr.1]; decide

/-- The deselects of the other frames. -/
theorem Live.deselects (h : Live o c s k) {p : Phase} (here : deselectsAt s.phase = some p) (notWrite : s.phase ≠ .wDesel)
    (noError : s.phase ≠ .xDesel) (run : doDeselect p s = .next t) : Advances o s t := by
  obtain ⟨phase, run', rem, sr, err⟩ := doDeselect_registers run
  obtain ⟨wip, cycle, cycles⟩ := (doDeselect_cycle run).2 (h.answered.running.holdsOther here notWrite noError)
  refine Advances.moves h wip cycle cycles err ?_ run' rem ?_
  · refine ⟨?_, ?_, ?_⟩ <;> intro phase <;> rw [phase] at here <;> cases here
  · rw [phase, sr]; exact phasesLeft_deselects here notWrite noError _

/-- The next chunk is at least a byte of what is left. -/
theorem Live.chunk (h : Live o c s k) (here : s.phase = .wNext) : Advances o s (stepWNext s) := by
  have before : workLeft s = s.rem.toNat := by simp only [workLeft, here]; rfl
  by_cases done : s.rem = 0
  · rw [stepWNext_done done]
    refine Advances.quietly h rfl rfl rfl rfl (by rw [before]; exact le_rfl) (.inr (.inl ?_))
    simp only [stepsLeft, goto, here, phasesLeft]
    omega
  · obtain ⟨cfg, -⟩ := h.answered.fixed
    have page := (configLegal_sizes (configLegal_of_gate h.admissible)).1
    rw [← cfg] at page
    have some_ : s.rem.toNat ≠ 0 := fun zero => done (BitVec.eq_of_toNat_eq zero)
    have run := toNat_ofNat_of_le (v := s.cfg.pageSize) (Nat.min_le_right s.rem.toNat s.cfg.pageSize.toNat)
    have rest := toNat_ofNat_of_le (v := s.rem) (Nat.sub_le s.rem.toNat (min s.rem.toNat s.cfg.pageSize.toNat))
    rw [stepWNext_more done]
    refine Advances.quietly h rfl rfl rfl rfl ?_ (.inr (.inl ?_))
    · refine (workLeft_le _).trans ?_
      rw [before, startWait_rem, rest]
      omega
    · simp only [stepsLeft, startWait_phase, startWait_run, startWait_rem, run, rest, here, phasesLeft]
      omega

/-- Every kind of micro-step leaves less to do. -/
theorem Live.micro (h : Live o c s k) (m : Micro s t) (busy : s.phase ≠ .idle) (noError : t.phase ≠ .xDesel)
    (read : s.phase = .pDummy → t.sr.wip = s.dev.wip) : Advances o s t := by
  have running := h.answered.running
  have limit : s.cfg.pollLimit = none := by rw [h.answered.fixed.1]; exact h.limit
  cases m with
  | rests here _ => exact absurd here busy
  | decodes here _ => exact absurd here h.decoded
  | delays n p here eq =>
    rw [eq]
    unfold delaysAt at here
    split at here
    · next delay => cases here; exact Advances.moves h rfl rfl rfl rfl (by rw [delay]; decide) rfl rfl (by rw [delay]; simp [phasesLeft, doDelay])
    · next delay =>
      cases here
      refine Advances.moves h rfl rfl rfl rfl (by rw [delay]; decide) rfl rfl ?_
      rw [delay, doDelay_phase]
      split <;> simp [phasesLeft]
    · cases here
  | selects p here eq =>
    rw [eq]
    have mid : s.phase ≠ .wNext ∧ s.phase ≠ .resp ∧ s.phase ≠ .idle := by
      refine ⟨?_, ?_, ?_⟩ <;> intro phase <;> rw [phase] at here <;> cases here
    refine Advances.moves h rfl rfl rfl rfl mid rfl rfl ?_
    show phasesLeft p s.sr.wip < _
    cases phase : s.phase <;> rw [phase] at here <;> cases here <;> simp [phasesLeft]
  | fails tx sends eq =>
    refine absurd ?_ noError
    rw [eq]
    exact if_pos (running.sel.trans (exchangePhase_selected (byteSent_exchanges sends)))
  | answers tx r d sends data _ eq => rw [eq] at read ⊢; exact h.answers sends data read
  | deselects p here run =>
    by_cases writes : s.phase = .wDesel
    · rw [writes] at here; cases here; exact h.commits writes run
    · exact h.deselects here writes h.answered.undisturbed.noError run
  | busy here wip eq =>
    obtain leads | ⟨⟨_, limited, -⟩, -⟩ := countBusy_cases s
    · rw [eq, leads]
      exact Advances.moves h rfl rfl rfl rfl (by rw [here]; decide) rfl rfl (by rw [here, wip]; simp [phasesLeft, goto])
    · rw [limit] at limited; cases limited
  | ready here wip o' _ eq =>
    rw [eq]
    refine Advances.moves h rfl rfl rfl rfl (by rw [here]; decide) rfl rfl ?_
    rw [here, wip, goto_phase]
    cases o' <;> simp [phasesLeft, readyPhase]
  | chunk here eq => rw [eq]; exact h.chunk here
  | responds here eq =>
    rw [eq]
    refine Advances.quietly h rfl rfl rfl rfl ?_ (.inr (.inl ?_))
    · simp only [workLeft, respond, goto, here]; exact le_rfl
    · simp only [stepsLeft, respond, goto, here, phasesLeft]; exact Nat.add_lt_add_right (Nat.add_lt_add_right (by decide) _) _

/-- A status read says whether a cycle is running (20_memory.md R68). -/
theorem Answered.read_status (h : Answered o c s k) (here : s.phase = .pDummy) (run : Machine.tick s = .next t) :
    t.sr.wip = (cycleTick s).dev.wip := by
  have held := h.running.fr
  simp only [heldFrame, here] at held
  have dsel : s.dev.dsel = true := h.running.dsel (by rw [h.running.sel, here]; rfl)
  have answer : deviceAnswer s.cfg (deviceTurn s.dev) s.draws = drawStatus (deviceTurn s.dev) s.draws := by
    have fr : (deviceTurn s.dev).fr = [0x05] := held
    have sel : (deviceTurn s.dev).dsel = true := dsel
    simp only [deviceAnswer, sel, if_true, fr]
    rfl
  rw [Machine.tick, phaseStep, cycleTick_phase, here] at run
  simp only [stepPDummy, exchange_quiet (s := cycleTick s) h.undisturbed.quiet, cycleTick_cfg, cycleTick_draws, cycleTick_dev, answer] at run
  obtain rfl := Host.Outcome.next.inj run
  rfl

/-- A micro-step of such an operation answers, keeps it such, and leaves less to do. -/
theorem Live.tick (h : Live o c s k) (busy : s.phase ≠ .idle) : ∃ t, Machine.tick s = .next t ∧ (∃ k', Live o c t k') ∧ toDo t < toDo s := by
  obtain ⟨-, -, -, -, bp, -⟩ := h.answered.fixed
  obtain ⟨t, run⟩ := h.answered.running.progress (bp.trans (gate_none_iff.1 h.admissible).2)
  obtain ⟨k', answered⟩ := h.answered.tick busy run
  obtain ⟨work, err, ends, coming, enough, less⟩ :=
    h.turn.micro (tick_micro run) busy answered.undisturbed.noError fun here => h.answered.read_status here run
  refine ⟨t, run, ⟨k', answered, h.admissible, h.limit, fun decode => (tick_micro run).notDecode decode, err, ends, coming, enough⟩, ?_⟩
  obtain ⟨noMore, fewer⟩ := turnsLeft_turn h.ends
  obtain less | ⟨same, less | running⟩ := less
  · exact toDo_lt_of_work less
  · exact toDo_lt_of_steps work (same.trans_le noMore) less
  · exact toDo_lt_of_turns work (same.trans_lt (fewer running))

/-- So does a stretch of it, however much fuel it is given. -/
theorem Live.stretch {n : Nat} : ∀ {s : State} {k : Nat}, Live o c s k → s.phase ≠ .idle →
    ∃ t, runStretch (n + 1) s = .next t ∧ (∃ k', Live o c t k') ∧ toDo t < toDo s := by
  induction n with
  | zero =>
    intro s k h busy
    obtain ⟨t, run, live, less⟩ := h.tick busy
    exact ⟨t, by simp only [runStretch, run, ite_self], live, less⟩
  | succ n ih =>
    intro s k h busy
    obtain ⟨t, run, ⟨k', live⟩, less⟩ := h.tick busy
    rw [runStretch, run]
    dsimp only
    split
    · exact ⟨t, rfl, ⟨k', live⟩, less⟩
    next goesOn =>
    have busy' : t.phase ≠ .idle := fun idle => goesOn (by simp [pausesAt, idle])
    obtain ⟨u, rest, live', less'⟩ := ih live busy'
    exact ⟨u, rest, live', less'.trans less⟩

/-- Such an operation comes to its response. -/
theorem Live.responds (h : Live o c s k) : ∃ n t k', goesOn n s = .next t ∧ Live o c t k' ∧ t.phase = .idle := by
  induction work : toDo s using WellFoundedLT.induction generalizing s k with
  | ind w ih =>
    by_cases idle : s.phase = .idle
    · exact ⟨0, s, k, rfl, h, idle⟩
    · obtain ⟨m, fuel⟩ : ∃ m, stretchFuel s = m + 1 := ⟨stretchFuel s - 1, by have := one_lt_stretchFuel s; omega⟩
      obtain ⟨t, run, ⟨k', live⟩, less⟩ := h.stretch (n := m) idle
      obtain ⟨n, u, k'', rest, live', ended⟩ := ih _ (work ▸ less) live rfl
      refine ⟨n + 1, u, k'', ?_, live', ended⟩
      rw [goesOn, if_neg idle, resume, fuel, run]
      exact rest

end

/-- A descriptor is longer than its payload (30_encoding.md R93). -/
theorem payload_lt_encode {i : Instr} {o : HostOp} {addr len : Half} {payload : List Byte}
    (command : hostCommand i = some (o, addr, len, payload)) : payload.length < (encode i).length := by
  cases i <;> cases command <;> simp only [encode, header, List.length_append, List.length_cons, List.length_nil] <;> omega

/-- A command that `DECODE` lets through begins such an operation: there are at most as many chunks as bytes. -/
theorem exec_live {s : State} {i : Instr} {o : HostOp} {addr len : Half} {payload : List Byte}
    (command : hostCommand i = some (o, addr, len, payload)) (admissible : gate s = none) (idle : s.phase = .idle) (desel : s.sel = false)
    (hq : quiet s) (limit : s.cfg.pollLimit = none) (wf : i.wf = true) (pass : passes s.cfg i = true)
    (ends : s.dev.wip = true → s.dev.cycle ≠ none) (coming : ∀ e ∈ s.cycles, e ≠ none) (enough : (encode i).length ≤ s.cycles.length) :
    ∃ t k n, exec i s = runStretch (n + 1) t ∧ Live o (accept (hostOpcode o) addr len payload s) t k ∧ t.phase ≠ .idle := by
  obtain ⟨l, cur, run, rem, idx, sets⟩ := stepDecode_passes (s := cycleTick (accept (hostOpcode o) addr len payload s)) command
    (configLegal_of_gate admissible) pass rfl rfl rfl
  have decodes : tick (accept (hostOpcode o) addr len payload s) = .next (startWait { cycleTick (accept (hostOpcode o) addr len payload s) with
      len := l, cur := cur, run := run, rem := rem, idx := idx }) :=
    (phaseStep_decode (s := cycleTick (accept (hostOpcode o) addr len payload s)) rfl).trans (congrArg _ sets)
  obtain ⟨k, answered⟩ := (Answered.commanded command desel hq fun _ => ⟨wf, admissible⟩).tick nofun decodes
  have chunks (writes : isWrite o = true) : rem.toNat + 1 ≤ s.cycles.length := by
    have total := (answered.running.ch writes nofun nofun nofun).total
    have bytes : rem.toNat ≤ payload.length := by
      change idx.toNat + run.toNat + rem.toNat = payload.length at total
      omega
    have short := payload_lt_encode command
    omega
  obtain ⟨fuel, more⟩ : ∃ n, stretchFuel (accept (hostOpcode o) addr len payload s) = n + 2 :=
    ⟨_, (Nat.sub_add_cancel (one_lt_stretchFuel (accept (hostOpcode o) addr len payload s))).symm⟩
  refine ⟨_, k, fuel, ?_, ⟨answered, admissible, limit, nofun, rfl, deviceTurn_ends ends, coming, chunks⟩, nofun⟩
  have runs : Runs 1 (accept (hostOpcode o) addr len payload s) _ := Runs.cons decodes rfl rfl
  rw [exec_hostCommand command, operate, if_pos idle, resume, more]
  exact runs.stretch (Nat.le_add_left 1 _)

/-- Settles O34: the command begins an operation with nothing in the way of its response (`exec_live`), each of whose stretches leaves
less to do, so that it responds (`Live.responds`). -/
theorem everyOperationResponds : Obligations.EveryOperationResponds := by
  unfold Obligations.EveryOperationResponds
  intro s i admissible idle desel hq limit wf pass ends coming enough
  obtain ⟨o, addr, len, payload, command⟩ := exists_hostCommand (i := i) (by cases i <;> first | rfl | cases pass)
  obtain ⟨t, k, m, first, live, busy⟩ := exec_live command admissible idle desel hq limit wf pass ends coming enough
  obtain ⟨u, run, ⟨k', live'⟩, -⟩ := live.stretch (n := m) busy
  obtain ⟨n, v, k'', rest, live'', ended⟩ := live'.responds
  refine ⟨n, v, ?_, ended, live''.answered.running.sel.trans (by rw [ended]; rfl), live''.err⟩
  rw [first, run]
  exact rest

end Sys2Proof.Machine
end
